-- ==== Sys2Proof/Word.lean ====
section
/-! DEFINITION. The values the DUC core works on, before any configuration: samples, rail pairs, the
beats of the command port, the command word and its fields, and the values on the result port. -/

namespace Sys2Proof

/-- A value of the sample carrier `S` (R10). The carrier is named by rational numbers: a finite
floating-point value IS a rational number, and `rzero` is the name `0`. Which rational numbers
name a sample, and the operations on samples, which are not rational arithmetic, are fields of `Num`
(assumption 2, DESIGN CHOICE, safe). -/
abbrev Sample := Rat

/-- A pair of rail values, real rail first (R53, R75). -/
structure Rails (α : Type) where
  re : α
  im : α
deriving DecidableEq, Repr

/-- Apply one function to both rails. -/
def Rails.map {α β : Type} (f : α → β) (z : Rails α) : Rails β := ⟨f z.re, f z.im⟩

/-- One beat on the command port: the bit pattern of one value, read as an unsigned number (R70, R77;
assumption 7, DESIGN CHOICE, safe). -/
abbrev Beat := Nat

/-- The 32-bit command word `cw` (R71). -/
abbrev CommandWord := BitVec 32

/-- `cw[7:0]`, the opcode field (R71). -/
abbrev Opcode := BitVec 8

/-- `cw[31:8]`, the 24-bit count field (R71). -/
abbrev Count := BitVec 24

/-- The number of FIR taps, `TAP_COUNT`, written `T` in the spec (R6). -/
abbrev tapCount : Nat := 21

/-- An address of a delay-line memory: one of its `2T = 42` entries (R50). -/
abbrev Addr := Fin 42

/-- The two components of the block, which share nothing (R20). -/
inductive Component where
  | a   -- the real up-converter
  | b   -- the complex-to-real multirate converter
deriving DecidableEq, Repr

/-- One value on the result port (R73, R76): a sample, an integer of A's domain, an integer of B's
domain, or an unsigned DAC code. -/
inductive Result where
  | sample (v : Sample)
  | intA (v : Int)
  | intB (v : Int)
  | code (v : Nat)
deriving DecidableEq, Repr

end Sys2Proof
end

