-- ==== Sys2Proof/Config.lean ====
section
/-! DEFINITION. The configuration of the block: every parameter the source leaves open (R7), the
constraints on it (R8, R10, R11), the reference configuration that shows they can be met (R9), and the
opaque constants the machine runs on: the configuration of this implementation and the free values. -/

namespace Sys2Proof

/-- The sample number system (R10): its carrier `S`, as the rational numbers that name a sample, and its
operations. `rzero` is the sample `0`. -/
structure Num where
  carrier : Sample → Prop
  radd : Sample → Sample → Sample
  rmul : Sample → Sample → Sample
  rdiv : Sample → Sample → Sample
  rofint : Int → Sample

/-- The laws a model may assume of `Num`: the carrier holds `rzero` and its operations are total functions
on it (R10), and (N-a) to (N-d); the law of `rdiv`, which is asked only with `OUT_DIV`, and (N-e) are
fields of `Cfg.Wf`. -/
structure Num.Lawful (n : Num) : Prop where
  zero_mem : n.carrier 0
  add_mem : ∀ v w, n.carrier v → n.carrier w → n.carrier (n.radd v w)
  mul_mem : ∀ v w, n.carrier v → n.carrier w → n.carrier (n.rmul v w)
  rofint_mem : ∀ i, n.carrier (n.rofint i)
  /-- (N-a) -/
  add_zero_zero : n.radd 0 0 = 0
  /-- (N-b) -/
  zero_mul : ∀ v, n.carrier v → n.rmul 0 v = 0
  /-- (N-b) -/
  mul_zero : ∀ v, n.carrier v → n.rmul v 0 = 0
  /-- (N-c) -/
  zero_add : ∀ v, n.carrier v → n.radd 0 v = v
  /-- (N-c) -/
  add_zero : ∀ v, n.carrier v → n.radd v 0 = v
  /-- (N-d) -/
  rofint_zero : n.rofint 0 = 0

/-- The reference number system: exact rational arithmetic (R10). -/
def Num.exact : Num where
  carrier := fun _ => True
  radd := fun a b => a + b
  rmul := fun a b => a * b
  rdiv := fun a d => a / d
  rofint := fun i => (i : Rat)

/-- The configuration record (R7). No command can change it (R30); it is not state (R32). -/
structure Cfg where
  /-- `DUC_N`, the block length. -/
  ducN : Nat
  /-- `M`, outputs of A per input sample. -/
  m : Nat
  /-- `BETA2`, the pre-filter coefficient. -/
  beta2 : Sample
  /-- `A_SCALE`. -/
  aScale : Sample
  /-- `QUANT_A`, the rounding of A's step 2 (R11). -/
  quantA : Sample → Int
  /-- `B1N`, multiplies `A.n1`. -/
  b1n : Int
  /-- `B1`, multiplies `A.n2`. -/
  b1 : Int
  /-- `SHIFT`. -/
  shift : Nat
  /-- `DC_OFFSET`. -/
  dcOffset : Int
  /-- `W_IIR`, the width of A's integer domain. -/
  wIir : Nat
  /-- `W_DAC`, the width of A's output codes. -/
  wDac : Nat
  /-- `H[0..20]`, the FIR coefficients. -/
  h : Fin 21 → Sample
  /-- `FIX_SCALE`. -/
  fixScale : Sample
  /-- `QUANT_B`, the conversion of B's Stage 3 (R11). -/
  quantB : Sample → Int
  /-- `W_CIC`, the width of B's integer domain. -/
  wCic : Nat
  /-- `CIC_GAIN` (R150). -/
  cicGain : Sample
  /-- `OUT_DIV` (R163). -/
  outDiv : Sample
  /-- `Num`, the sample number system (R10). -/
  num : Num
  /-- `W_S`, the width of a sample on a port (R77). -/
  wS : Nat
  /-- `enc_S`, how a sample is carried on a port (R77). -/
  encS : Sample → BitVec wS
  /-- `dec_S`, the inverse of `enc_S` (R77). -/
  decS : BitVec wS → Sample

/-- `v` lies in the range of `w`-bit two's-complement integers (R12). -/
abbrev InWidth (w : Nat) (v : Int) : Prop := -2 ^ (w - 1) ≤ v ∧ v ≤ 2 ^ (w - 1) - 1

/-- The laws of a real-to-integer conversion (R11): (Q-a), (Q-b), and (Q-d), which is asked only of the
exact rational number system. (Q-c) holds because the conversion is a function of its argument. In (Q-b)
the number system represents `i` exactly when `rofint i` is `i` itself (assumption 2, DEDUCED). -/
structure Quantiser (n : Num) (q : Sample → Int) : Prop where
  zero : q 0 = 0
  exact : ∀ i : Int, n.rofint i = (i : Rat) → q (n.rofint i) = i
  near : n = Num.exact → ∀ v, |(q v : Rat) - v| < 1

/-- The well-formedness check of a configuration, `Cfg.wf` (R8): (a), (b) and the constraint column of
R7, each parameter of type `S` in the carrier, with the laws of R10 and R11 and R163's divisor. -/
structure Cfg.Wf (c : Cfg) : Prop where
  /-- (a) `H` is symmetric. -/
  symmetric : ∀ k : Fin 21, c.h k = c.h k.rev
  /-- (b) `DUC_N` is a multiple of 10 ... -/
  ducN_mult : c.ducN % 10 = 0
  /-- ... and at least 10. -/
  ducN_pos : 10 ≤ c.ducN
  m_pos : 1 ≤ c.m
  b1n_fits : InWidth c.wIir c.b1n
  b1_fits : InWidth c.wIir c.b1
  shift_lt : c.shift < c.wIir
  dcOffset_nonneg : 0 ≤ c.dcOffset
  dcOffset_lt : c.dcOffset < 2 ^ c.wDac
  wIir_ge : 2 ≤ c.wIir
  wDac_ge : 1 ≤ c.wDac
  wCic_ge : 2 ≤ c.wCic
  fixScale_ne : c.fixScale ≠ 0
  outDiv_ne : c.outDiv ≠ 0
  /-- `OUT_DIV = rmul(FIX_SCALE, CIC_GAIN)` (R163; assumption 4, DEDUCED, unsafe). -/
  outDiv_eq : c.outDiv = c.num.rmul c.fixScale c.cicGain
  beta2_mem : c.num.carrier c.beta2
  aScale_mem : c.num.carrier c.aScale
  h_mem : ∀ k, c.num.carrier (c.h k)
  fixScale_mem : c.num.carrier c.fixScale
  cicGain_mem : c.num.carrier c.cicGain
  outDiv_mem : c.num.carrier c.outDiv
  num_lawful : c.num.Lawful
  /-- `rdiv(a, OUT_DIV)` is a sample. -/
  div_mem : ∀ v, c.num.carrier v → c.num.carrier (c.num.rdiv v c.outDiv)
  /-- (N-e) -/
  zero_div : c.num.rdiv 0 c.outDiv = 0
  quantA_law : Quantiser c.num c.quantA
  quantB_law : Quantiser c.num c.quantB

/-- `dec_S` is the inverse of `enc_S` on the samples, and what a port carries is a sample (R77). -/
structure Cfg.PortWf (c : Cfg) : Prop where
  decS_encS : ∀ v, c.num.carrier v → c.decS (c.encS v) = v
  decS_mem : ∀ n, c.num.carrier (c.decS n)

/-- Round to nearest, ties away from zero: the default offered for `QUANT_A` (R11). Only the reference
configuration uses it. -/
def roundNearest (v : Rat) : Int :=
  if 0 ≤ v then (v + 1 / 2).floor else -(-v + 1 / 2).floor

/-- Truncate toward zero: the default offered for `QUANT_B` (R11). Only the reference configuration
uses it. -/
def truncate (v : Rat) : Int :=
  if 0 ≤ v then v.floor else -(-v).floor

/-- The coefficient table `H_TRI` of R9. -/
def hTri : Fin 21 → Sample := fun k =>
  if k.val = 9 then 1 / 4 else if k.val = 10 then 1 / 2 else if k.val = 11 then 1 / 4 else 0

/-- The coefficient table `H_DELTA` of R9. -/
def hDelta : Fin 21 → Sample := fun k => if k.val = 10 then 1 else 0

/-- The coefficient table `H_ENDS` of R9. -/
def hEnds : Fin 21 → Sample := fun k => if k.val = 0 then 1 else if k.val = 20 then 1 else 0

/-- `REFCFG-A` and `REFCFG-B` of R9 in one record, with `H_TRI`. It is not normative: it shows that
`Cfg.Wf` can be met and serves the tests. The machine does not run on it: no finite `W_S` carries every
rational number, so its `encS`, which R9 does not give, carries the 16-bit integers alone. -/
def Cfg.reference : Cfg where
  ducN := 10
  m := 3
  beta2 := 1 / 2
  aScale := 4
  quantA := roundNearest
  b1n := -3
  b1 := 2
  shift := 2
  dcOffset := 100
  wIir := 16
  wDac := 8
  h := hTri
  fixScale := 1024
  quantB := truncate
  wCic := 32
  cicGain := 125
  outDiv := 128000
  num := Num.exact
  wS := 16
  encS := fun v => BitVec.ofInt 16 v.num
  decS := fun n => n.toInt

theorem Num.exact_lawful : Num.exact.Lawful where
  zero_mem := trivial
  add_mem := fun _ _ _ _ => trivial
  mul_mem := fun _ _ _ _ => trivial
  rofint_mem := fun _ => trivial
  add_zero_zero := by simp [Num.exact]
  zero_mul := by simp [Num.exact]
  mul_zero := by simp [Num.exact]
  zero_add := by simp [Num.exact]
  add_zero := by simp [Num.exact]
  rofint_zero := by simp [Num.exact]

theorem rat_floor_bounds (v : Rat) : (v.floor : Rat) ≤ v ∧ v < v.floor + 1 :=
  ⟨Int.floor_le v, Int.lt_floor_add_one v⟩

theorem rat_floor_int (i : Int) : (i : Rat).floor = i := show ⌊(i : Rat)⌋ = i from Int.floor_intCast i

theorem rat_floor_int_half (i : Int) : ((i : Rat) + 1 / 2).floor = i :=
  show ⌊(i : Rat) + 1 / 2⌋ = i from Int.floor_eq_iff.2 ⟨by norm_num, by norm_num⟩

theorem roundNearest_quantiser : Quantiser Num.exact roundNearest where
  zero := by decide +kernel
  exact := fun i _ => by
    show roundNearest (i : Rat) = i
    have h := rat_floor_int_half (-i)
    push_cast at h
    simp only [roundNearest, rat_floor_int_half, h, neg_neg, ite_self]
  near := fun _ v => by
    have h1 := rat_floor_bounds (v + 1 / 2)
    have h2 := rat_floor_bounds (-v + 1 / 2)
    unfold roundNearest
    split <;> push_cast <;> rw [abs_lt] <;> constructor <;> linarith

theorem truncate_quantiser : Quantiser Num.exact truncate where
  zero := by decide +kernel
  exact := fun i _ => by
    show truncate (i : Rat) = i
    have h := rat_floor_int (-i)
    push_cast at h
    simp only [truncate, rat_floor_int, h, neg_neg, ite_self]
  near := fun _ v => by
    have h1 := rat_floor_bounds v
    have h2 := rat_floor_bounds (-v)
    unfold truncate
    split <;> push_cast <;> rw [abs_lt] <;> constructor <;> linarith

/-- The reference configuration is well formed, so `Cfg.Wf` is not an empty condition. -/
theorem Cfg.reference_wf : Cfg.reference.Wf where
  symmetric := by decide +kernel
  ducN_mult := by decide
  ducN_pos := by decide
  m_pos := by decide
  b1n_fits := by decide
  b1_fits := by decide
  shift_lt := by decide
  dcOffset_nonneg := by decide
  dcOffset_lt := by decide
  wIir_ge := by decide
  wDac_ge := by decide
  wCic_ge := by decide
  fixScale_ne := by decide +kernel
  outDiv_ne := by decide +kernel
  outDiv_eq := by decide +kernel
  beta2_mem := trivial
  aScale_mem := trivial
  h_mem := fun _ => trivial
  fixScale_mem := trivial
  cicGain_mem := trivial
  outDiv_mem := trivial
  num_lawful := Num.exact_lawful
  div_mem := fun _ _ => trivial
  zero_div := by decide +kernel
  quantA_law := roundNearest_quantiser
  quantB_law := truncate_quantiser

/-! ### A configuration with a finite carrier

It is the model's own example, no rule gives it: it shows that `Cfg.Wf` and `Cfg.PortWf` can be met
together. -/

/-- Round toward zero and saturate to a byte. -/
def toByte (v : Rat) : Int := max (-128) (min 127 (truncate v))

/-- The signed bytes as a number system: each operation is exact, then rounded and saturated. -/
def Num.byte : Num where
  carrier := fun v => ∃ i : Int, InWidth 8 i ∧ v = i
  radd := fun a b => toByte (a + b)
  rmul := fun a b => toByte (a * b)
  rdiv := fun a d => toByte (a / d)
  rofint := fun i => toByte i

/-- A configuration over the signed bytes, with `W_S = 8`. -/
def Cfg.byte : Cfg :=
  { Cfg.reference with
    beta2 := 1
    aScale := 1
    quantA := truncate
    h := hDelta
    fixScale := 1
    outDiv := 125
    num := Num.byte
    wS := 8
    encS := fun v => BitVec.ofInt 8 v.num
    decS := fun n => n.toInt }

theorem toByte_width (v : Rat) : InWidth 8 (toByte v) := by
  constructor <;> simp only [toByte] <;> omega

theorem toByte_of_mem {v : Sample} (h : Num.byte.carrier v) : ((toByte v : Int) : Rat) = v := by
  obtain ⟨i, hi, rfl⟩ := h
  have ht : truncate (i : Rat) = i := truncate_quantiser.exact i rfl
  have : toByte (i : Rat) = i := by
    simp only [toByte, ht]
    simp only [InWidth] at hi
    omega
  rw [this]

theorem Num.byte_toByte (v : Rat) : Num.byte.carrier (toByte v : Int) := ⟨_, toByte_width v, rfl⟩

theorem Num.byte_ofInt (i : Int) (h : InWidth 8 i) : Num.byte.carrier (i : Rat) := ⟨i, h, rfl⟩

theorem toByte_zero : toByte 0 = 0 := by decide +kernel

theorem Num.byte_lawful : Num.byte.Lawful where
  zero_mem := ⟨0, by decide, by simp⟩
  add_mem := fun _ _ _ _ => Num.byte_toByte _
  mul_mem := fun _ _ _ _ => Num.byte_toByte _
  rofint_mem := fun _ => Num.byte_toByte _
  add_zero_zero := by simp [Num.byte, toByte_zero]
  zero_mul := by simp [Num.byte, toByte_zero]
  mul_zero := by simp [Num.byte, toByte_zero]
  zero_add := fun v h => by simpa [Num.byte] using toByte_of_mem h
  add_zero := fun v h => by simpa [Num.byte] using toByte_of_mem h
  rofint_zero := by simp [Num.byte, toByte_zero]

theorem truncate_byte : Quantiser Num.byte truncate where
  zero := truncate_quantiser.zero
  exact := fun i h => by rw [h]; exact truncate_quantiser.exact i rfl
  near := fun _ => truncate_quantiser.near rfl

theorem Cfg.byte_wf : Cfg.byte.Wf :=
  { Cfg.reference_wf with
    symmetric := by decide +kernel
    fixScale_ne := by decide +kernel
    outDiv_ne := by decide +kernel
    outDiv_eq := by decide +kernel
    beta2_mem := ⟨1, by decide, by simp [Cfg.byte]⟩
    aScale_mem := ⟨1, by decide, by simp [Cfg.byte]⟩
    h_mem := fun k => by
      show Num.byte.carrier (if k.val = 10 then 1 else 0)
      split
      · exact ⟨1, by decide, by simp⟩
      · exact ⟨0, by decide, by simp⟩
    fixScale_mem := ⟨1, by decide, by simp [Cfg.byte]⟩
    cicGain_mem := ⟨125, by decide, by simp [Cfg.byte, Cfg.reference]⟩
    outDiv_mem := ⟨125, by decide, by simp [Cfg.byte]⟩
    num_lawful := Num.byte_lawful
    div_mem := fun _ _ => Num.byte_toByte _
    zero_div := by decide +kernel
    quantA_law := truncate_byte
    quantB_law := truncate_byte }

theorem Cfg.byte_portWf : Cfg.byte.PortWf where
  decS_encS := fun v h => by
    obtain ⟨i, hi, rfl⟩ := h
    have : (BitVec.ofInt 8 i).toInt = i := by
      simp only [InWidth] at hi
      rw [BitVec.toInt_ofInt, Int.bmod_eq_of_le] <;> omega
    simp [Cfg.byte, this]
  decS_mem := fun (n : BitVec 8) => ⟨n.toInt, ⟨BitVec.le_toInt n, Int.le_sub_one_of_lt (BitVec.toInt_lt (x := n))⟩, rfl⟩

/-- A configuration together with the proofs that it is well formed and that its ports carry its samples
(boot requirement (1) of R212, R77). The defaults only show that the type is inhabited. -/
structure WfCfg where
  cfg : Cfg := Cfg.byte
  wf : cfg.Wf := by exact Cfg.byte_wf
  port : cfg.PortWf := by exact Cfg.byte_portWf
deriving Inhabited

/-- The configuration this block was built with. It is an opaque constant: nothing in Lean can evaluate
it, and of its value only `Config.cfg_wf` and `Config.cfg_portWf` are known, so a theorem holds for every well-formed
configuration (R7, R30; assumption 1, DESIGN CHOICE, safe). -/
opaque Config.implementation : WfCfg

/-- The configuration record of this block. -/
def Config.cfg : Cfg := Config.implementation.cfg

theorem Config.cfg_wf : Config.cfg.Wf := Config.implementation.wf

theorem Config.cfg_portWf : Config.cfg.PortWf := Config.implementation.port

/-! ### Free values: what the spec does not specify after `Overflow` (R192; assumption 3, DESIGN CHOICE)

Each is indexed by the component and by a number that is new at each use. -/

/-- A sample register or delay-line entry that is not specified. -/
opaque Config.freeSample : Component → Nat → Nat → Sample

/-- An integer register that is not specified. -/
opaque Config.freeInt : Component → Nat → Nat → Int

/-- A cursor that is not specified. -/
opaque Config.freeCursor : Nat → Fin 21

/-- A mixer phase that is not specified. -/
opaque Config.freePhase : Nat → Fin 4

/-- A stretch of the result stream that is not specified, its length included. -/
opaque Config.freeResults : Component → Nat → List Result

end Sys2Proof
end

