-- ==== Sys2Proof/Syntax.lean ====
section
/-! DEFINITION. The commands of the DUC core as abstract syntax: the rows of the opcode table (R73), and
the command as the pair of a row and its operands (R79). -/

namespace Sys2Proof

/-- The rows of the opcode table (R73), in its order. -/
inductive Row where
  | aPre | aQnt | aIirx | aIirf | aPush | aBlock
  | zs2 | firPush
  | cicQnt | cicComb | cicInt | cicIntz
  | mix
  | bPush | bBlock
deriving DecidableEq, Repr

/-- The two command formats (R71). -/
inductive Format where
  | n   -- no count: `cw[31:8]` must be zero
  | c   -- count: `cw[31:8]` is an operand
deriving DecidableEq, Repr

/-- An operand of A's integer domain: a `W_IIR`-bit two's-complement word, in range by construction
(R77; assumption 10, DESIGN CHOICE, safe). -/
abbrev WordA := BitVec Config.cfg.wIir

/-- An operand of B's integer domain: a `W_CIC`-bit two's-complement word (R77). -/
abbrev WordB := BitVec Config.cfg.wCic

/-- A command: its row and its operands, in stream order, real rail first (R73, R75, R79). -/
inductive Instr where
  | aPre (x : Sample)
  | aQnt (f : Sample)
  | aIirx (u : WordA)
  | aIirf
  | aPush (x : Sample)
  | aBlock (xs : List Sample)
  | zs2 (z : Rails Sample)
  | firPush (z : Rails Sample)
  | cicQnt (y : Rails Sample)
  | cicComb (q : Rails WordB)
  | cicInt (u : Rails WordB)
  | cicIntz
  | mix (a : Rails WordB)
  | bPush (z : Rails Sample)
  | bBlock (cnt : Count) (zs : List (Rails Sample))
deriving DecidableEq, Repr

/-- The opcode-table row of a command. -/
def Instr.row : Instr → Row
  | .aPre _ => .aPre
  | .aQnt _ => .aQnt
  | .aIirx _ => .aIirx
  | .aIirf => .aIirf
  | .aPush _ => .aPush
  | .aBlock _ => .aBlock
  | .zs2 _ => .zs2
  | .firPush _ => .firPush
  | .cicQnt _ => .cicQnt
  | .cicComb _ => .cicComb
  | .cicInt _ => .cicInt
  | .cicIntz => .cicIntz
  | .mix _ => .mix
  | .bPush _ => .bPush
  | .bBlock _ _ => .bBlock

/-- The component a row belongs to (R33): the flag it can set and the state it can name. -/
def Row.component : Row → Component
  | .aPre | .aQnt | .aIirx | .aIirf | .aPush | .aBlock => .a
  | .zs2 | .firPush | .cicQnt | .cicComb | .cicInt | .cicIntz | .mix | .bPush | .bBlock => .b

/-- The component a command belongs to. -/
abbrev Instr.component (i : Instr) : Component := i.row.component

end Sys2Proof
end

