-- ==== Sys2Proof/Machine/State.lean ====
section
/-! DEFINITION. The architectural state of the DUC core (R20), the host's side of its ports, and the
reset state (R34). All of it is plain data. -/

namespace Sys2Proof.Machine

/-- One delay-line memory (R23, R50): 42 entries of one sample each, at addresses `0..41`. It is kept as
the list of its entries that are not `rzero`, addresses strictly rising; an address not listed holds
`rzero`, its reset contents (R34; assumption 8, DESIGN CHOICE, safe). -/
structure Memory where
  cells : List (Nat × Sample)
deriving DecidableEq, Repr

/-- Every entry `rzero` (R34). -/
def Memory.empty : Memory := ⟨[]⟩

/-- The state of Component A (R21, R22). -/
structure StateA where
  /-- `A.f1`: the operand of the last `A.PRE`. -/
  f1 : Sample
  /-- `A.f2`: the operand of the `A.PRE` before it. -/
  f2 : Sample
  /-- `A.n1`: the IIR value of the last pass, before the offset; signed, `W_IIR` bits. -/
  n1 : Int
  /-- `A.n2`: the IIR value of the pass before it; signed, `W_IIR` bits. -/
  n2 : Int
deriving DecidableEq, Repr

/-- The registers of the four cascaded stages of one rail, stage 1 to 4 (R25, R26). -/
structure Chain where
  r1 : Int
  r2 : Int
  r3 : Int
  r4 : Int
deriving DecidableEq, Repr

/-- The state of Component B (R23 to R28). -/
structure StateB where
  /-- `B.dl_re`, `B.dl_im`: the delay-line memories. -/
  dl : Rails Memory
  /-- `B.cur`: the entry the next `FIR.PUSH` overwrites, `0..20` (R24). -/
  cur : Fin 21
  /-- `B.cb_re[1..4]`, `B.cb_im[1..4]`: the comb registers; signed, `W_CIC` bits. -/
  cb : Rails Chain
  /-- `B.it_re[1..4]`, `B.it_im[1..4]`: the integrator registers; signed, `W_CIC` bits. -/
  it : Rails Chain
  /-- `B.ph`: the mixer phase index, two bits (R28). -/
  ph : Fin 4
deriving DecidableEq, Repr

/-- The status flags `ST` (R29), which are also the status output (R78). -/
structure Status where
  /-- `ST.ovf_a` -/
  ovfA : Bool
  /-- `ST.ovf_b` -/
  ovfB : Bool
  /-- `ST.ill` -/
  ill : Bool
deriving DecidableEq, Repr

/-- What the host puts to the block: a beat on the command port, or the reset event on the reset input
(R70, R210, R222). -/
inductive HostInput where
  | reset
  | beat (n : Beat)
deriving DecidableEq, Repr

/-- The state: the block's own (R20), the streams on the host's side of its ports, and the counters that
number the uses of free values. -/
structure State where
  /-- Component A. -/
  a : StateA
  /-- Component B. -/
  b : StateB
  /-- The flags. -/
  st : Status
  /-- What the host has put to the block and the block has not taken yet, oldest first (assumption 5, DESIGN
  CHOICE, safe). -/
  input : List HostInput
  /-- The result stream emitted so far, oldest first (R76, R213; assumption 5, DESIGN CHOICE, safe). -/
  output : List Result
  /-- The number of times Component A's behaviour was not specified (assumption 3, DESIGN CHOICE, safe). -/
  freeA : Nat
  /-- The same for Component B. -/
  freeB : Nat
deriving DecidableEq, Repr

/-- Why a step stops with a fault. There is none: the block has no trap and after every event it is
ready for the next command (R197); an `Overflow` is the next state in which the component's flag is set
and its behaviour is free (R191, R192, R198; assumption 3, DESIGN CHOICE, safe). -/
inductive Fault where
deriving DecidableEq, Repr

/-- Why an instruction is given no meaning. -/
inductive Refusal where
  /-- An instruction that has no meaning yet; raised by `exec`'s refused arms, of which there is none.
  Safe. -/
  | notModelled (mnemonic : String)
  /-- A command whose operand list has not the length its row asks for (R79: "an ill-formed command is
  *refused*"); raised by `A.BLOCK` and `B.BLOCK`. The port cannot form one, so no step raises it (assumption 12). Safe. -/
  | malformedCommand
deriving DecidableEq, Repr

/-- `StateA.zero`: Component A after reset (R34, R36). -/
def StateA.zero : StateA := ⟨0, 0, 0, 0⟩

/-- Four registers at 0. -/
def Chain.zero : Chain := ⟨0, 0, 0, 0⟩

/-- `StateB.zero`: Component B after reset (R34, R36). -/
def StateB.zero : StateB where
  dl := ⟨Memory.empty, Memory.empty⟩
  cur := 0
  cb := ⟨Chain.zero, Chain.zero⟩
  it := ⟨Chain.zero, Chain.zero⟩
  ph := 0

/-- The flags after reset (R34). -/
def Status.zero : Status := ⟨false, false, false⟩

/-- The machine right after reset, with nothing put to it yet and nothing emitted (R34, R210). The
counters of free values start at 0 (assumption 18, DESIGN CHOICE, safe). -/
def State.reset : State where
  a := StateA.zero
  b := StateB.zero
  st := Status.zero
  input := []
  output := []
  freeA := 0
  freeB := 0

end Sys2Proof.Machine
end

