-- ==== Sys2Proof/Machine/Flags.lean ====
section
/-! DEFINITION. The range checks that decide the overflow flags (R12, R191) and the setting of each flag
(R29). A check answers `none` where the spec says `raise Overflow`, and the
checks of an operation are made in the order of its pseudocode (R196; assumption 15). -/

namespace Sys2Proof.Machine

/-- `chk_W(v)`: `v` if it lies in the `w`-bit range, otherwise `Overflow` (R12). -/
def chk (w : Nat) (v : Int) : Option Int :=
  if InWidth w v then some v else none

/-- The check of an emitted IIR code: an unsigned `w`-bit value, otherwise `Overflow` (R105, R191). -/
def chkCode (w : Nat) (c : Int) : Option Nat :=
  if 0 ≤ c ∧ c ≤ 2 ^ w - 1 then some c.toNat else none

/-- `ST.ovf_a <- 1` (R191). -/
def Status.setOvfA (st : Status) : Status := { st with ovfA := true }

/-- `ST.ovf_b <- 1` (R191). -/
def Status.setOvfB (st : Status) : Status := { st with ovfB := true }

/-- `ST.ill <- 1` (R193). -/
def Status.setIll (st : Status) : Status := { st with ill := true }

/-- No flag is set. -/
def Status.clear (st : Status) : Bool := !st.ovfA && !st.ovfB && !st.ill

end Sys2Proof.Machine
end

