-- ==== Sys2Proof/Machine/Operands.lean ====
section
/-! DEFINITION. How an instruction reads its operands and the integer operations on them: words of the
integer domains as integers (R12, R77) and the arithmetic right shift (R13). -/

namespace Sys2Proof.Machine

/-- A rail pair of `W_CIC`-bit words as integers (R77). -/
def intsOfWords (w : Rails WordB) : Rails Int := w.map BitVec.toInt

/-- `asr(v, s)`: the arithmetic right shift, `floor(v / 2^s)` (R13). -/
def asr (v : Int) (s : Nat) : Int := v / 2 ^ s

end Sys2Proof.Machine
end

