-- ==== Sys2Proof/Machine/Ops.lean ====
section
/-! DEFINITION. The named operations the meanings share: reads and writes of a delay-line memory (R50 to
R55), runs that emit and may overflow (R76, R192), the two events `Overflow` and `Illegal` (R191 to
R193, R197), the reset event (R210), and how a component's operation is performed on the state. -/

namespace Sys2Proof.Machine

/-! ### The delay-line memories (R15: `MemRead`, `MemWrite`) -/

/-- The entry at address `a` in a list of cells; an address not listed holds `rzero`. -/
def lookupCell : List (Nat × Sample) → Nat → Sample
  | [], _ => 0
  | (k, v) :: rest, a => if k = a then v else lookupCell rest a

/-- Store `v` at address `a` in a list of cells; storing `rzero` removes the cell. -/
def storeCell : List (Nat × Sample) → Nat → Sample → List (Nat × Sample)
  | [], a, v => if v = 0 then [] else [(a, v)]
  | (k, w) :: rest, a, v =>
    if a < k then (if v = 0 then (k, w) :: rest else (a, v) :: (k, w) :: rest)
    else if a = k then (if v = 0 then rest else (a, v) :: rest)
    else (k, w) :: storeCell rest a v

/-- `MemRead(rail, i)`: one whole entry (R15, R50). -/
def Memory.read (m : Memory) (i : Addr) : Sample := lookupCell m.cells i.val

/-- `MemWrite(rail, i, v)`: one whole entry (R15, R50). -/
def Memory.write (m : Memory) (i : Addr) (v : Sample) : Memory := ⟨storeCell m.cells i.val v⟩

/-- The canonical form of a memory: addresses strictly rising and inside `0..41`, and no cell that holds
what an unlisted address reads as. -/
abbrev Memory.wf (m : Memory) : Prop :=
  m.cells.Pairwise (fun x y => x.1 < y.1) ∧ ∀ x ∈ m.cells, x.1 < 42 ∧ x.2 ≠ 0

/-- The memory with given contents. -/
@[irreducible] def Memory.ofEntries (f : Addr → Sample) : Memory :=
  (List.finRange 42).foldl (fun m i => m.write i (f i)) Memory.empty

/-! ### Runs: what an operation emits and the state it leaves, or where it overflows -/

/-- The outcome of an operation on a component's state: the values emitted, in order, and the state it
leaves; `none` where it raised `Overflow` after emitting those values (R76, R192). -/
structure Run (σ ρ : Type) where
  emitted : List ρ
  final : Option σ
deriving DecidableEq, Repr

/-- `Overflow` with nothing emitted. -/
def Run.overflow {σ ρ : Type} : Run σ ρ := ⟨[], none⟩

/-- A checked operation that emits one value. -/
def Run.ofOption {σ ρ : Type} : Option (σ × ρ) → Run σ ρ
  | none => Run.overflow
  | some (s, v) => ⟨[v], some s⟩

/-- One run and then another from the state it leaves; after an `Overflow` nothing follows. -/
def Run.andThen {σ ρ : Type} (r : Run σ ρ) (next : σ → Run σ ρ) : Run σ ρ :=
  match r.final with
  | none => r
  | some s => ⟨r.emitted ++ (next s).emitted, (next s).final⟩

/-- `for j in 1..n: op()` (R15). -/
def Run.times {σ ρ : Type} (op : σ → Run σ ρ) : Nat → σ → Run σ ρ
  | 0, s => ⟨[], some s⟩
  | n + 1, s => (op s).andThen (Run.times op n)

/-- `for x in xs: op(x)` (R15). -/
def Run.forEach {α σ ρ : Type} (op : α → σ → Run σ ρ) : List α → σ → Run σ ρ
  | [], s => ⟨[], some s⟩
  | x :: xs, s => (op x s).andThen (Run.forEach op xs)

/-- The same run with its values put on the result port. -/
def Run.results {σ ρ : Type} (f : ρ → List Result) (r : Run σ ρ) : Run σ Result :=
  ⟨r.emitted.flatMap f, r.final⟩

/-- The two values of a rail pair on the result port, real rail first (R75, R76). -/
def railsResult {α : Type} (f : α → Result) (z : Rails α) : List Result := [f z.re, f z.im]

/-! ### What is not specified after `Overflow` (R192) -/

/-- A state of Component A of which nothing is specified. -/
def StateA.free (k : Nat) : StateA where
  f1 := Config.freeSample .a k 0
  f2 := Config.freeSample .a k 1
  n1 := Config.freeInt .a k 0
  n2 := Config.freeInt .a k 1

/-- Four registers of Component B of which nothing is specified. -/
def Chain.free (k i : Nat) : Chain where
  r1 := Config.freeInt .b k i
  r2 := Config.freeInt .b k (i + 1)
  r3 := Config.freeInt .b k (i + 2)
  r4 := Config.freeInt .b k (i + 3)

/-- A state of Component B of which nothing is specified but that each element is of its type. -/
def StateB.free (k : Nat) : StateB where
  dl := ⟨Memory.ofEntries fun i => Config.freeSample .b k i.val,
         Memory.ofEntries fun i => Config.freeSample .b k (42 + i.val)⟩
  cur := Config.freeCursor k
  cb := ⟨Chain.free k 0, Chain.free k 4⟩
  it := ⟨Chain.free k 8, Chain.free k 12⟩
  ph := Config.freePhase k

/-! ### The events -/

/-- `raise Overflow` in an operation of Component A that had emitted `emitted` before the failing check
(R191, R192): the flag is set, what the component holds and emits from there on is free, and Component B
is as it was (assumption 3, DESIGN CHOICE, safe). -/
def State.overflowA (s : State) (emitted : List Result) : State :=
  { s with
    a := StateA.free s.freeA
    st := s.st.setOvfA
    output := s.output ++ emitted ++ Config.freeResults .a s.freeA
    freeA := s.freeA + 1 }

/-- `raise Overflow` in an operation of Component B (R191, R192). -/
def State.overflowB (s : State) (emitted : List Result) : State :=
  { s with
    b := StateB.free s.freeB
    st := s.st.setOvfB
    output := s.output ++ emitted ++ Config.freeResults .b s.freeB
    freeB := s.freeB + 1 }

/-- `raise Illegal` (R193): `ST.ill` is set, no other state changes, nothing is emitted
(assumption 11, DESIGN CHOICE, safe). -/
def State.illegal (s : State) : State := { s with st := s.st.setIll }

/-- The reset event (R210): every element of the block's state at its reset value. What was emitted
before stays with the host, and what the host has still to send stays sent. -/
def State.resetEvent (s : State) : State :=
  { s with a := StateA.zero, b := StateB.zero, st := Status.zero }

/-! ### Performing a component's operation -/

/-- Perform an operation of Component A. Once `ST.ovf_a` is set nothing the component does is specified
(R192, R198). -/
def State.runA (s : State) (op : StateA → Run StateA Result) : State :=
  if s.st.ovfA then s.overflowA []
  else
    match (op s.a).final with
    | some a => { s with a := a, output := s.output ++ (op s.a).emitted }
    | none => s.overflowA (op s.a).emitted

/-- Perform an operation of Component B (R192, R198). -/
def State.runB (s : State) (op : StateB → Run StateB Result) : State :=
  if s.st.ovfB then s.overflowB []
  else
    match (op s.b).final with
    | some b => { s with b := b, output := s.output ++ (op s.b).emitted }
    | none => s.overflowB (op s.b).emitted

end Sys2Proof.Machine
end

