-- ==== Sys2Proof/Machine/CicInterpolator.lean ====
section
/-! DEFINITION. Component B's third stage, the CIC interpolator of order 4 by 5: `CIC.QNT` (R141),
`CIC.COMB` (R143), `CIC.INT` (R145) and `CIC.INTZ` (R147). -/

namespace Sys2Proof.Machine

/-- `CIC.QNT y`; the real rail is checked first (R141). -/
def quantiseB (c : Cfg) (y : Rails Sample) : Option (Rails Int) := do
  let re ← chk c.wCic (c.quantB (c.num.rmul y.re c.fixScale))
  let im ← chk c.wCic (c.quantB (c.num.rmul y.im c.fixScale))
  return ⟨re, im⟩

/-- One comb stage: the stage's input minus its register, the previous input (R143). -/
def combStage (c : Cfg) (v reg : Rails Int) : Option (Rails Int) := do
  let re ← chk c.wCic (v.re - reg.re)
  let im ← chk c.wCic (v.im - reg.im)
  return ⟨re, im⟩

/-- `CIC.COMB q`: the four stages in order; each register takes its stage's input of this pass (R143). -/
def combPass (c : Cfg) (q : Rails Int) (b : StateB) : Option (StateB × Rails Int) := do
  let d1 ← combStage c q ⟨b.cb.re.r1, b.cb.im.r1⟩
  let d2 ← combStage c d1 ⟨b.cb.re.r2, b.cb.im.r2⟩
  let d3 ← combStage c d2 ⟨b.cb.re.r3, b.cb.im.r3⟩
  let d4 ← combStage c d3 ⟨b.cb.re.r4, b.cb.im.r4⟩
  return ({ b with cb := ⟨⟨q.re, d1.re, d2.re, d3.re⟩, ⟨q.im, d1.im, d2.im, d3.im⟩⟩ }, d4)

/-- One integrator stage: its register plus its input, which is the register's new value (R145). -/
def integratorStage (c : Cfg) (v reg : Rails Int) : Option (Rails Int) := do
  let re ← chk c.wCic (reg.re + v.re)
  let im ← chk c.wCic (reg.im + v.im)
  return ⟨re, im⟩

/-- One pass of the four integrator stages with forcing term `u`: each stage adds the value the stage
before it has just been updated to (R145, R146). -/
def integratorPass (c : Cfg) (u : Rails Int) (b : StateB) : Option (StateB × Rails Int) := do
  let i1 ← integratorStage c u ⟨b.it.re.r1, b.it.im.r1⟩
  let i2 ← integratorStage c i1 ⟨b.it.re.r2, b.it.im.r2⟩
  let i3 ← integratorStage c i2 ⟨b.it.re.r3, b.it.im.r3⟩
  let i4 ← integratorStage c i3 ⟨b.it.re.r4, b.it.im.r4⟩
  return ({ b with it := ⟨⟨i1.re, i2.re, i3.re, i4.re⟩, ⟨i1.im, i2.im, i3.im, i4.im⟩⟩ }, i4)

/-- One pass with forcing term zero (R147). -/
def integratorZero (c : Cfg) (b : StateB) : Option (StateB × Rails Int) := integratorPass c ⟨0, 0⟩ b

/-! ### Meanings -/

/-- `CIC.QNT` (R141). -/
def execCicQnt (y : Rails Sample) (s : State) : Host.Outcome State Fault Refusal :=
  .next (s.runB fun b =>
    (Run.ofOption ((quantiseB Config.cfg y).map fun q => (b, q))).results (railsResult .intB))

/-- `CIC.COMB` (R143). -/
def execCicComb (q : Rails WordB) (s : State) : Host.Outcome State Fault Refusal :=
  .next (s.runB fun b =>
    (Run.ofOption (combPass Config.cfg (intsOfWords q) b)).results (railsResult .intB))

/-- `CIC.INT` (R145). -/
def execCicInt (u : Rails WordB) (s : State) : Host.Outcome State Fault Refusal :=
  .next (s.runB fun b =>
    (Run.ofOption (integratorPass Config.cfg (intsOfWords u) b)).results (railsResult .intB))

/-- `CIC.INTZ` (R147). -/
def execCicIntz (s : State) : Host.Outcome State Fault Refusal :=
  .next (s.runB fun b => (Run.ofOption (integratorZero Config.cfg b)).results (railsResult .intB))

end Sys2Proof.Machine
end

