-- ==== Sys2Proof/Machine/FirDelayLine.lean ====
section
/-! DEFINITION. Component B's first two stages: the zero-stuffer `ZS2` (R121) and the FIR filter with
circular delay line `FIR.PUSH` (R123). -/

namespace Sys2Proof.Machine

/-- The primary address of ring position `c` (R52). -/
def primaryAddr (c : Fin 21) : Addr := ⟨c.val, by omega⟩

/-- The mirror address `c + T` of ring position `c` (R52). -/
def mirrorAddr (c : Fin 21) : Addr := ⟨c.val + 21, by omega⟩

/-- The cursor's advance, `(c + 1) mod T` (R24, R123). -/
def advance (c : Fin 21) : Fin 21 := ⟨(c.val + 1) % 21, by omega⟩

/-- The address of the `k`-th newest sample in the read window of cursor `c`: `c + T - 1 - k` (R123,
R124). -/
def windowAddr (c k : Fin 21) : Addr := ⟨c.val + 20 - k.val, by omega⟩

/-- Both writes of one rail (R123, R218; assumption 13, DESIGN CHOICE, safe). -/
def doubleWrite (m : Memory) (c : Fin 21) (v : Sample) : Memory :=
  (m.write (primaryAddr c) v).write (mirrorAddr c) v

/-- The convolution of one rail's read window with `H`: from `rzero`, the products added in the order
`k = 0, 1, ..., T-1`, coefficient first (R123, R125). -/
def convolve (c : Cfg) (m : Memory) (cur : Fin 21) : Sample :=
  (List.finRange 21).foldl (fun y k => c.num.radd y (c.num.rmul (c.h k) (m.read (windowAddr cur k)))) 0

/-- The delay line after a push: both rails written at the cursor, then the cursor advanced (R123). -/
def pushSample (z : Rails Sample) (b : StateB) : StateB :=
  { b with
    dl := ⟨doubleWrite b.dl.re b.cur z.re, doubleWrite b.dl.im b.cur z.im⟩
    cur := advance b.cur }

/-- `FIR.PUSH z`: write, advance, convolve (R123). -/
def firPush (c : Cfg) (z : Rails Sample) (b : StateB) : StateB × Rails Sample :=
  let b' := pushSample z b
  (b', ⟨convolve c b'.dl.re b'.cur, convolve c b'.dl.im b'.cur⟩)

/-- `ZS2 z`: the sample, then the stuffed zero (R121). -/
def zeroStuff (z : Rails Sample) : Rails Sample × Rails Sample := (z, ⟨0, 0⟩)

/-! ### Meanings -/

/-- `ZS2` (R121). -/
def execZs2 (z : Rails Sample) (s : State) : Host.Outcome State Fault Refusal :=
  .next (s.runB fun b =>
    ⟨railsResult .sample (zeroStuff z).1 ++ railsResult .sample (zeroStuff z).2, some b⟩)

/-- `FIR.PUSH` (R123). -/
def execFirPush (z : Rails Sample) (s : State) : Host.Outcome State Fault Refusal :=
  .next (s.runB fun b =>
    ⟨railsResult .sample (firPush Config.cfg z b).2, some (firPush Config.cfg z b).1⟩)

end Sys2Proof.Machine
end

