-- ==== Sys2Proof/Machine/IirDuc.lean ====
section
/-! DEFINITION. Component A's units: the pre-filter `A.PRE` (R101), the quantiser `A.QNT` (R103) and the
passes of the IIR recursion `A.IIRX` (R105) and `A.IIRF` (R107). Each unit is a function of a
configuration; its instruction's meaning runs it on this block's. -/

namespace Sys2Proof.Machine

/-- `A.PRE x` (R101): the value uses the old `A.f2`; the registers shift the inputs (R217). -/
def preFilter (c : Cfg) (x : Sample) (a : StateA) : StateA × Sample :=
  ({ a with f2 := a.f1, f1 := x }, c.num.radd x (c.num.rmul a.f2 c.beta2))

/-- `A.QNT f` (R103). -/
def quantiseA (c : Cfg) (f : Sample) : Option Int :=
  chk c.wIir (c.quantA (c.num.rmul f c.aScale))

/-- The two feedback terms `t1`, `t2` of an IIR pass: each product is checked, then shifted (R105,
R106). -/
def iirFeedback (c : Cfg) (a : StateA) : Option (Int × Int) := do
  let p1 ← chk c.wIir (c.b1n * a.n1)
  let p2 ← chk c.wIir (c.b1 * a.n2)
  return (asr p1 c.shift, asr p2 c.shift)

/-- The end of an IIR pass: the history shifts, and `n + DC_OFFSET` is emitted as a code (R105). -/
def iirEmit (c : Cfg) (n : Int) (a : StateA) : Option (StateA × Nat) := do
  let code ← chkCode c.wDac (n + c.dcOffset)
  return ({ a with n2 := a.n1, n1 := n }, code)

/-- `A.IIRX u`: one excited pass (R105). -/
def iirExcited (c : Cfg) (u : Int) (a : StateA) : Option (StateA × Nat) := do
  let (t1, t2) ← iirFeedback c a
  let s ← chk c.wIir (u + t1)
  let n ← chk c.wIir (s - t2)
  iirEmit c n a

/-- `A.IIRF`: one free-running pass (R107). -/
def iirFree (c : Cfg) (a : StateA) : Option (StateA × Nat) := do
  let (t1, t2) ← iirFeedback c a
  let n ← chk c.wIir (t1 - t2)
  iirEmit c n a

/-! ### Meanings -/

/-- `A.PRE` (R101). -/
def execAPre (x : Sample) (s : State) : Host.Outcome State Fault Refusal :=
  .next (s.runA fun a => ⟨[.sample (preFilter Config.cfg x a).2], some (preFilter Config.cfg x a).1⟩)

/-- `A.QNT` (R103). -/
def execAQnt (f : Sample) (s : State) : Host.Outcome State Fault Refusal :=
  .next (s.runA fun a => Run.ofOption ((quantiseA Config.cfg f).map fun u => (a, .intA u)))

/-- `A.IIRX` (R105). -/
def execAIirx (u : WordA) (s : State) : Host.Outcome State Fault Refusal :=
  .next (s.runA fun a => (Run.ofOption (iirExcited Config.cfg u.toInt a)).results fun n => [.code n])

/-- `A.IIRF` (R107). -/
def execAIirf (s : State) : Host.Outcome State Fault Refusal :=
  .next (s.runA fun a => (Run.ofOption (iirFree Config.cfg a)).results fun n => [.code n])

end Sys2Proof.Machine
end

