-- ==== Sys2Proof/Machine/QuadratureMixer.lean ====
section
/-! DEFINITION. Component B's fourth stage, the quadrature mixer: the oscillator table (R6, R28) and
`MIX` (R161). -/

namespace Sys2Proof.Machine

/-- `COS[0..3]` (R6). -/
def cosTable (p : Fin 4) : Int :=
  match p with
  | 0 => 1
  | 1 => 0
  | 2 => -1
  | 3 => 0

/-- `SIN[0..3]` (R6). -/
def sinTable (p : Fin 4) : Int :=
  match p with
  | 0 => 0
  | 1 => 1
  | 2 => 0
  | 3 => -1

/-- The phase's advance, `(p + 1) mod 4` (R161). -/
def nextPhase (p : Fin 4) : Fin 4 := ⟨(p.val + 1) % 4, by omega⟩

/-- `MIX a`: combine with the phase held, scale out of the integer domain, advance the phase (R161,
R162, R163). -/
def mixSample (c : Cfg) (a : Rails Int) (b : StateB) : Option (StateB × Sample) := do
  let m ← chk c.wCic (-cosTable b.ph * a.re + sinTable b.ph * a.im)
  return ({ b with ph := nextPhase b.ph }, c.num.rdiv (c.num.rofint m) c.outDiv)

/-! ### Meaning -/

/-- `MIX` (R161). -/
def execMix (a : Rails WordB) (s : State) : Host.Outcome State Fault Refusal :=
  .next (s.runB fun b =>
    (Run.ofOption (mixSample Config.cfg (intsOfWords a) b)).results fun o => [.sample o])

end Sys2Proof.Machine
end

