-- ==== Sys2Proof/WellFormed.lean ====
section
/-! DEFINITION. When a command is well formed: its operand list has the length its row asks for (R79).
Integer operands are in range by their type, and the rows with a fixed number of operands carry them as
arguments, so the two block commands are the ones there is something to check of. -/

namespace Sys2Proof

/-- The complex samples in one chunk of Component B, `DUC_N/10` (R176). -/
def chunkLength (c : Cfg) : Nat := c.ducN / 10

/-- The length an operand list must have (R73, R79): `DUC_N` samples for `A.BLOCK`, `cnt × DUC_N/10`
complex samples for `B.BLOCK`. -/
def Instr.wellFormed : Instr → Bool
  | .aBlock xs => xs.length == Config.cfg.ducN
  | .bBlock cnt zs => zs.length == chunkLength Config.cfg * cnt.toNat
  | .aPre _ | .aQnt _ | .aIirx _ | .aIirf | .aPush _ | .zs2 _ | .firPush _ | .cicQnt _ | .cicComb _
  | .cicInt _ | .cicIntz | .mix _ | .bPush _ => true

/-- The operand list has the length its row asks for. -/
abbrev Instr.WellFormed (i : Instr) : Prop := i.wellFormed = true

/-- The sample operands of a command, in stream order. -/
def Instr.samples : Instr → List Sample
  | .aPre x | .aQnt x | .aPush x => [x]
  | .aBlock xs => xs
  | .zs2 z | .firPush z | .cicQnt z | .bPush z => [z.re, z.im]
  | .bBlock _ zs => zs.flatMap fun z => [z.re, z.im]
  | .aIirx _ | .aIirf | .cicComb _ | .cicInt _ | .cicIntz | .mix _ => []

/-- Every sample operand of a command is a sample of the number system, so that the port can carry it
(R10, R77). -/
def Instr.InCarrier (i : Instr) : Prop := ∀ v ∈ i.samples, Config.cfg.num.carrier v

end Sys2Proof
end

