-- ==== Sys2Proof/Machine/Pipelines.lean ====
section
/-! DEFINITION. The pipeline operations, each the fixed sequence of unit operations it is defined by
(R83, R177): `A.PUSH` (R171), `A.BLOCK` (R172), `B.PUSH` (R174) and `B.BLOCK` (R176). -/

namespace Sys2Proof.Machine

/-- `A.PUSH x`: pre-filter, quantise, one excited pass, then `M-1` free-running passes (R171). -/
def pushA (c : Cfg) (x : Sample) (a : StateA) : Run StateA Nat :=
  let (a, f) := preFilter c x a
  match quantiseA c f with
  | none => Run.overflow
  | some u =>
    (Run.ofOption (iirExcited c u a)).andThen (Run.times (fun a => Run.ofOption (iirFree c a)) (c.m - 1))

/-- `A.BLOCK`: `A.PUSH` for each sample, oldest first (R172). -/
def blockA (c : Cfg) (xs : List Sample) (a : StateA) : Run StateA Nat := Run.forEach (pushA c) xs a

/-- An integrator pass and the `MIX` that follows it at once (R174). -/
def passAndMix (c : Cfg) (pass : StateB → Option (StateB × Rails Int)) (b : StateB) : Run StateB Sample :=
  match pass b with
  | none => Run.overflow
  | some (b, a) => Run.ofOption (mixSample c a b)

/-- One zero-stuffed sample through the FIR, the quantiser, the comb once, and five integrator passes
each followed by `MIX` (R149, R174). -/
def stuffedSample (c : Cfg) (z : Rails Sample) (b : StateB) : Run StateB Sample :=
  let (b, y) := firPush c z b
  match quantiseB c y with
  | none => Run.overflow
  | some q =>
    match combPass c q b with
    | none => Run.overflow
    | some (b, d) =>
      (passAndMix c (integratorPass c d) b).andThen (Run.times (passAndMix c (integratorZero c)) 4)

/-- `B.PUSH z`: both outputs of the zero-stuffer, in order (R174). -/
def pushB (c : Cfg) (z : Rails Sample) (b : StateB) : Run StateB Sample :=
  (stuffedSample c (zeroStuff z).1 b).andThen (stuffedSample c (zeroStuff z).2)

/-- `B.BLOCK`: `B.PUSH` for each sample, oldest first (R176). -/
def blockB (c : Cfg) (zs : List (Rails Sample)) (b : StateB) : Run StateB Sample :=
  Run.forEach (pushB c) zs b

/-! ### Meanings -/

/-- `A.PUSH` (R171). -/
def execAPush (x : Sample) (s : State) : Host.Outcome State Fault Refusal :=
  .next (s.runA fun a => (pushA Config.cfg x a).results fun n => [.code n])

/-- `A.BLOCK` (R172); a sample list of another length is malformed (R79). -/
def execABlock (xs : List Sample) (s : State) : Host.Outcome State Fault Refusal :=
  if xs.length = Config.cfg.ducN then
    .next (s.runA fun a => (blockA Config.cfg xs a).results fun n => [.code n])
  else .refused .malformedCommand

/-- `B.PUSH` (R174). -/
def execBPush (z : Rails Sample) (s : State) : Host.Outcome State Fault Refusal :=
  .next (s.runB fun b => (pushB Config.cfg z b).results fun o => [.sample o])

/-- `B.BLOCK` (R176); a sample list of another length is malformed (R79). -/
def execBBlock (cnt : Count) (zs : List (Rails Sample)) (s : State) : Host.Outcome State Fault Refusal :=
  if zs.length = chunkLength Config.cfg * cnt.toNat then
    .next (s.runB fun b => (blockB Config.cfg zs b).results fun o => [.sample o])
  else .refused .malformedCommand

end Sys2Proof.Machine
end

