-- ==== Sys2Proof/Machine/Dispatch.lean ====
section
/-! DEFINITION. The dispatch of a command to its meaning: one arm per row of the opcode table (R73). -/

namespace Sys2Proof.Machine

def exec (i : Instr) (s : State) : Host.Outcome State Fault Refusal :=
  match i with
  | .aPre x => Sys2Proof.Machine.execAPre x s
  | .aQnt f => Sys2Proof.Machine.execAQnt f s
  | .aIirx u => Sys2Proof.Machine.execAIirx u s
  | .aIirf => Sys2Proof.Machine.execAIirf s
  | .aPush x => Sys2Proof.Machine.execAPush x s
  | .aBlock xs => Sys2Proof.Machine.execABlock xs s
  | .zs2 z => Sys2Proof.Machine.execZs2 z s
  | .firPush z => Sys2Proof.Machine.execFirPush z s
  | .cicQnt y => Sys2Proof.Machine.execCicQnt y s
  | .cicComb q => Sys2Proof.Machine.execCicComb q s
  | .cicInt u => Sys2Proof.Machine.execCicInt u s
  | .cicIntz => Sys2Proof.Machine.execCicIntz s
  | .mix a => Sys2Proof.Machine.execMix a s
  | .bPush z => Sys2Proof.Machine.execBPush z s
  | .bBlock cnt zs => Sys2Proof.Machine.execBBlock cnt zs s

end Sys2Proof.Machine
end

