-- ==== Sys2Proof/Decode.lean ====
section
/-! DEFINITION. Decoding the command stream and encoding commands (R70 to R77, R80, R81): the opcode
table's encodings, the decoder, total on every list of beats, and the encoder. -/

namespace Sys2Proof

/-! ### The opcode table (R73) -/

/-- The `op` column. -/
def Row.opcode : Row → Opcode
  | .aPre => 0x10
  | .aQnt => 0x11
  | .aIirx => 0x12
  | .aIirf => 0x13
  | .aPush => 0x18
  | .aBlock => 0x19
  | .zs2 => 0x20
  | .firPush => 0x21
  | .cicQnt => 0x30
  | .cicComb => 0x31
  | .cicInt => 0x32
  | .cicIntz => 0x33
  | .mix => 0x40
  | .bPush => 0x58
  | .bBlock => 0x59

/-- The `format` column: `B.BLOCK` alone has a count. -/
def Row.format : Row → Format
  | .bBlock => .c
  | .aPre | .aQnt | .aIirx | .aIirf | .aPush | .aBlock | .zs2 | .firPush | .cicQnt | .cicComb | .cicInt
  | .cicIntz | .mix | .bPush => .n

/-- The row with a given `op`, if there is one. -/
def Row.ofOpcode (op : Opcode) : Option Row :=
  match op.toNat with
  | 0x10 => some .aPre
  | 0x11 => some .aQnt
  | 0x12 => some .aIirx
  | 0x13 => some .aIirf
  | 0x18 => some .aPush
  | 0x19 => some .aBlock
  | 0x20 => some .zs2
  | 0x21 => some .firPush
  | 0x30 => some .cicQnt
  | 0x31 => some .cicComb
  | 0x32 => some .cicInt
  | 0x33 => some .cicIntz
  | 0x40 => some .mix
  | 0x58 => some .bPush
  | 0x59 => some .bBlock
  | _ => none

/-! ### The command word (R71, R72, R74, R80) -/

/-- Why a command word is reserved (R80). -/
inductive Reserved where
  | noSuchOpcode (op : Opcode)                    -- `op` is in no row of the table
  | countInFormatN (row : Row) (cnt : Count)      -- a format N row with `cw[31:8]` not zero
deriving DecidableEq, Repr

/-- A decoded command word: its row and its count field. -/
structure Header where
  row : Row
  cnt : Count
deriving DecidableEq, Repr

/-- Decode a command word (R74). -/
def decodeWord (cw : CommandWord) : Except Reserved Header :=
  let op : Opcode := cw.extractLsb' 0 8
  let cnt : Count := cw.extractLsb' 8 24
  match Row.ofOpcode op with
  | none => .error (.noSuchOpcode op)
  | some row =>
    match row.format with
    | .c => .ok ⟨row, cnt⟩
    | .n => if cnt = 0 then .ok ⟨row, cnt⟩ else .error (.countInFormatN row cnt)

/-- The command word of a row with a count (R71): `cnt` above `op`. -/
def Header.word (h : Header) : CommandWord := h.cnt ++ h.row.opcode

/-! ### The operand stream (R73, R75, R77) -/

/-- How many operand beats follow a command word: a function of the row, of `cnt` and of `Cfg` (R74). -/
def Header.operandBeats (h : Header) : Nat :=
  match h.row with
  | .aIirf | .cicIntz => 0
  | .aPre | .aQnt | .aIirx | .aPush => 1
  | .zs2 | .firPush | .cicQnt | .cicComb | .cicInt | .mix | .bPush => 2
  | .aBlock => Config.cfg.ducN
  | .bBlock => 2 * (chunkLength Config.cfg * h.cnt.toNat)

/-- Read a beat as a sample, `dec_S` of a word of `W_S` bits (R77; assumption 9). -/
def sampleOfBeat (n : Beat) : Sample := Config.cfg.decS (BitVec.ofNat _ n)

/-- Read a beat as a `W_IIR`-bit word: the port carries `W_IIR` bits (R77; assumption 9, DESIGN CHOICE,
safe). -/
def wordAOfBeat (n : Beat) : WordA := BitVec.ofNat _ n

/-- Read a beat as a `W_CIC`-bit word (R77). -/
def wordBOfBeat (n : Beat) : WordB := BitVec.ofNat _ n

/-- Two beats of the operand stream, from position `k` on, read as a rail pair, real rail first (R75). -/
def railsAt {α : Type} (f : Beat → α) (ops : Nat → Beat) (k : Nat) : Rails α := ⟨f (ops k), f (ops (k + 1))⟩

/-- The command a header and its operand stream form; `ops k` is the `k`-th operand beat (R75). -/
def assemble (h : Header) (ops : Nat → Beat) : Instr :=
  match h.row with
  | .aPre => .aPre (sampleOfBeat (ops 0))
  | .aQnt => .aQnt (sampleOfBeat (ops 0))
  | .aIirx => .aIirx (wordAOfBeat (ops 0))
  | .aIirf => .aIirf
  | .aPush => .aPush (sampleOfBeat (ops 0))
  | .aBlock => .aBlock ((List.range Config.cfg.ducN).map fun k => sampleOfBeat (ops k))
  | .zs2 => .zs2 (railsAt sampleOfBeat ops 0)
  | .firPush => .firPush (railsAt sampleOfBeat ops 0)
  | .cicQnt => .cicQnt (railsAt sampleOfBeat ops 0)
  | .cicComb => .cicComb (railsAt wordBOfBeat ops 0)
  | .cicInt => .cicInt (railsAt wordBOfBeat ops 0)
  | .cicIntz => .cicIntz
  | .mix => .mix (railsAt wordBOfBeat ops 0)
  | .bPush => .bPush (railsAt sampleOfBeat ops 0)
  | .bBlock => .bBlock h.cnt
      ((List.range (chunkLength Config.cfg * h.cnt.toNat)).map fun k => railsAt sampleOfBeat ops (2 * k))

/-! ### Decoding a stream of beats -/

/-- What the port finds at the front of a stream of beats. -/
inductive Decoded where
  /-- No command word yet, or fewer operand beats than its row asks for. -/
  | incomplete
  /-- A reserved command word; the rest begins right after the word (R80). -/
  | reserved (why : Reserved) (rest : List Beat)
  /-- A command; the rest begins after its last operand beat (R79). -/
  | command (i : Instr) (rest : List Beat)
deriving DecidableEq, Repr

/-- Decode the command at the front of a stream of beats. A command-word beat is 32 bits wide (R70). -/
def decode : List Beat → Decoded
  | [] => .incomplete
  | w :: rest =>
    match decodeWord (BitVec.ofNat 32 w) with
    | .error why => .reserved why rest
    | .ok h =>
      if h.operandBeats ≤ rest.length then
        .command (assemble h fun k => rest.getD k 0) (rest.drop h.operandBeats)
      else .incomplete

/-! ### Encoding -/

/-- The count field of a command: `cnt` of `B.BLOCK`, zero in format N (R71). -/
def Instr.count : Instr → Count
  | .bBlock cnt _ => cnt
  | .aPre _ | .aQnt _ | .aIirx _ | .aIirf | .aPush _ | .aBlock _ | .zs2 _ | .firPush _ | .cicQnt _
  | .cicComb _ | .cicInt _ | .cicIntz | .mix _ | .bPush _ => 0

/-- The header of a command. -/
def Instr.header (i : Instr) : Header := ⟨i.row, i.count⟩

/-- The two beats of a rail pair, real rail first (R75). -/
def beatsOfRails {α : Type} (f : α → Beat) (z : Rails α) : List Beat := [f z.re, f z.im]

/-- The beat of a sample, `enc_S` (R77). -/
def beatOfSample (v : Sample) : Beat := (Config.cfg.encS v).toNat

/-- The operand beats of a command, in stream order (R75, R77). -/
def Instr.operandStream : Instr → List Beat
  | .aPre x | .aQnt x | .aPush x => [beatOfSample x]
  | .aIirx u => [u.toNat]
  | .aIirf | .cicIntz => []
  | .aBlock xs => xs.map beatOfSample
  | .zs2 z | .firPush z | .cicQnt z | .bPush z => beatsOfRails beatOfSample z
  | .cicComb w | .cicInt w | .mix w => beatsOfRails BitVec.toNat w
  | .bBlock _ zs => zs.flatMap (beatsOfRails beatOfSample)

/-- The beats of a command: its word, then its operand stream (R70). -/
def encode (i : Instr) : List Beat := i.header.word.toNat :: i.operandStream

/-! ### The host's entry points -/

/-- The beats of the command whose word is `w` as the opcode table numbers its bits, every operand beat
zero. A command has one word of 32 bits (R81), so of `nbits` no more than 32 count. -/
def tableBeats (nbits w : Nat) : List Beat :=
  let cw : CommandWord := BitVec.ofNat 32 (w % 2 ^ nbits)
  match decodeWord cw with
  | .ok h => cw.toNat :: List.replicate h.operandBeats 0
  | .error _ => [cw.toNat]

/-- The command the decoder reads from a word with zero operand beats. The operand stream is given as the
constant function, so that this evaluates for `A.BLOCK` too, whose operand count is a constant of the
configuration; `decode_tableBeats` (Laws/Decode.lean) says that `decode (tableBeats nbits w)` is the
same command. -/
def decodeTableWord (nbits w : Nat) : Option Instr :=
  match decodeWord (BitVec.ofNat 32 (w % 2 ^ nbits)) with
  | .ok h => some (assemble h fun _ => 0)
  | .error _ => none

end Sys2Proof
end

