-- ==== Sys2Proof/Machine/Port.lean ====
section
/-! DEFINITION. The block's ports: taking the next command, reset event or reserved word from what the
host has put to the block (R70, R79, R80, R210), the bit-level form of results (R77) and the status
output (R78). -/

namespace Sys2Proof.Machine

/-- The beats before the first reset event, and what follows them. -/
def leadingBeats : List HostInput → List Beat × List HostInput
  | .beat n :: rest => (n :: (leadingBeats rest).1, (leadingBeats rest).2)
  | .reset :: rest => ([], .reset :: rest)
  | [] => ([], [])

/-- What the block does next. -/
inductive Fetched where
  /-- Nothing: no command has arrived whole, so the block stays idle (R70, R79). -/
  | idle
  /-- The reset event arrives; a command whose beats had begun to arrive is abandoned (R210; assumption 14). -/
  | reset (rest : List HostInput)
  /-- A reserved command word (R80). -/
  | reserved (why : Reserved) (rest : List HostInput)
  /-- A command with its whole operand stream. -/
  | command (i : Instr) (rest : List HostInput)
deriving DecidableEq, Repr

/-- Take the next thing from the ports, in arrival order (R60, R70). -/
def fetch (input : List HostInput) : Fetched :=
  match decode (leadingBeats input).1 with
  | .command i rest => .command i (rest.map .beat ++ (leadingBeats input).2)
  | .reserved why rest => .reserved why (rest.map .beat ++ (leadingBeats input).2)
  | .incomplete =>
    match (leadingBeats input).2 with
    | [] => .idle
    | _ :: rest => .reset rest

/-- The width of a value on the result port (R77). -/
def portWidth (c : Cfg) : Result → Nat
  | .sample _ => c.wS
  | .intA _ => c.wIir
  | .intB _ => c.wCic
  | .code _ => c.wDac

/-- The result port can carry a value: a sample of the number system, an integer in its domain's range, an
unsigned code of `W_DAC` bits (R73, R77). -/
def Result.Fits (c : Cfg) : Result → Prop
  | .sample v => c.num.carrier v
  | .intA v => InWidth c.wIir v
  | .intB v => InWidth c.wCic v
  | .code n => n < 2 ^ c.wDac

/-- The word a value is on the result port (R77): `enc_S`, a two's-complement word of the domain's width,
or the unsigned code. -/
def wordOfResult (c : Cfg) : (r : Result) → BitVec (portWidth c r)
  | .sample v => c.encS v
  | .intA v => BitVec.ofInt c.wIir v
  | .intB v => BitVec.ofInt c.wCic v
  | .code n => BitVec.ofNat c.wDac n

/-- The beat of a value on the result port. -/
def beatOfResult (c : Cfg) (r : Result) : Beat := (wordOfResult c r).toNat

/-- The three level signals `ovf_a`, `ovf_b`, `ill` of the status output (R78). Reading them changes
nothing. -/
def statusOutput (s : State) : Status := s.st

end Sys2Proof.Machine
end

