-- ==== Sys2Proof/Machine/Step.lean ====
section
/-! DEFINITION. One step of the block: the next reset event, reserved word or whole command from its
ports, taken to completion (R5, R60, R70), and the host's way to put one command first. -/

namespace Sys2Proof.Machine

/-- One atomic step (R5). With no whole command at the port the block stays idle (assumption 5). -/
def step (s : State) : Host.Outcome State Fault Refusal :=
  match fetch s.input with
  | .idle => .next s
  | .reset rest => .next { s with input := rest }.resetEvent
  | .reserved _ rest => .next { s with input := rest }.illegal
  | .command i rest => exec i { s with input := rest }

/-- `s` with the command of word `w` and zero operand beats put first on the command port (assumption
6, DESIGN CHOICE, safe). -/
def State.withFetchWord (s : State) (nbits w : Nat) : State :=
  { s with input := (tableBeats nbits w).map .beat ++ s.input }

end Sys2Proof.Machine
end

