-- ==== Sys2Proof/Machine/Views.lean ====
section
/-! DEFINITION. Derived views of the state: the mirror condition `MIR` (R31) and the history view of the
delay line (R35). -/

namespace Sys2Proof.Machine

/-- One rail's mirror condition: entry `i + T` equals entry `i` (R31). -/
abbrev Mirrored (m : Memory) : Prop := ∀ i : Fin 21, m.read (mirrorAddr i) = m.read (primaryAddr i)

/-- `MIR` (R31). -/
abbrev StateB.Mir (b : StateB) : Prop := Mirrored b.dl.re ∧ Mirrored b.dl.im

/-- The primary address of the sample pushed `k` pushes before the most recent one:
`(cur + T - 1 - k) mod T` (R35). -/
def histAddr (cur k : Fin 21) : Addr := ⟨(cur.val + 20 - k.val) % 21, by omega⟩

/-- `hist_re(k)` and `hist_im(k)` (R35). -/
def StateB.hist (b : StateB) (k : Fin 21) : Rails Sample :=
  ⟨b.dl.re.read (histAddr b.cur k), b.dl.im.read (histAddr b.cur k)⟩

end Sys2Proof.Machine
end

