-- ==== Sys2Proof/Safety.lean ====
section
/-! DEFINITION. What counts as a good state and a good run, in the terms the claims use: the invariant of
the machine, the launch premise (R212), the end of a run (R213) and runs of several commands (R177). -/

namespace Sys2Proof.Machine

/-! ### The invariant -/

/-- Component A's integer registers hold `W_IIR`-bit values (R20, R22). -/
abbrev StateA.InRange (c : Cfg) (a : StateA) : Prop := InWidth c.wIir a.n1 ∧ InWidth c.wIir a.n2

/-- Four registers hold `W_CIC`-bit values (R25, R26). -/
abbrev Chain.InRange (c : Cfg) (x : Chain) : Prop :=
  InWidth c.wCic x.r1 ∧ InWidth c.wCic x.r2 ∧ InWidth c.wCic x.r3 ∧ InWidth c.wCic x.r4

/-- Component B's integer registers hold `W_CIC`-bit values (R20, R25, R26). -/
abbrev StateB.InRange (c : Cfg) (b : StateB) : Prop :=
  b.cb.re.InRange c ∧ b.cb.im.InRange c ∧ b.it.re.InRange c ∧ b.it.im.InRange c

/-- Component A's sample registers hold samples of the number system (R20, R21). -/
def StateA.InCarrier (c : Cfg) (a : StateA) : Prop := c.num.carrier a.f1 ∧ c.num.carrier a.f2

/-- Every entry of the delay line holds a sample of the number system (R20, R23). -/
def StateB.InCarrier (c : Cfg) (b : StateB) : Prop :=
  ∀ i, c.num.carrier (b.dl.re.read i) ∧ c.num.carrier (b.dl.im.read i)

/-- The invariant every step keeps. Both memories are in canonical form, always. As long as a
component's overflow flag is clear (R192), its integer registers fit their widths, what it holds as samples
are samples of the number system, and `MIR` (R31) holds of the delay line. -/
structure State.Inv (s : State) : Prop where
  memRe : s.b.dl.re.wf
  memIm : s.b.dl.im.wf
  rangeA : s.st.ovfA = false → s.a.InRange Config.cfg
  rangeB : s.st.ovfB = false → s.b.InRange Config.cfg
  samplesA : s.st.ovfA = false → s.a.InCarrier Config.cfg
  samplesB : s.st.ovfB = false → s.b.InCarrier Config.cfg
  mirror : s.st.ovfB = false → s.b.Mir

/-! ### What a pass computes and when none of its checks fails, in closed form -/

/-- The value `n` of a pass with forcing term `u` (R109). -/
def iirValue (c : Cfg) (u : Int) (a : StateA) : Int :=
  u + asr (c.b1n * a.n1) c.shift - asr (c.b1 * a.n2) c.shift

/-- No check of an IIR pass with forcing term `u` fails: the two products, the partial sum, the value and
the code (R105, R106). -/
abbrev IirFits (c : Cfg) (u : Int) (a : StateA) : Prop :=
  InWidth c.wIir (c.b1n * a.n1) ∧ InWidth c.wIir (c.b1 * a.n2) ∧
    InWidth c.wIir (u + asr (c.b1n * a.n1) c.shift) ∧ InWidth c.wIir (iirValue c u a) ∧
    0 ≤ iirValue c u a + c.dcOffset ∧ iirValue c u a + c.dcOffset ≤ 2 ^ c.wDac - 1

/-- Component A after a pass of value `n` (R105). -/
def StateA.shift (a : StateA) (n : Int) : StateA := { a with n2 := a.n1, n1 := n }

/-- The registers of one rail after a comb pass with input `v`: each stage's input of this pass (R143). -/
def combChain (v : Int) (x : Chain) : Chain where
  r1 := v
  r2 := v - x.r1
  r3 := v - x.r1 - x.r2
  r4 := v - x.r1 - x.r2 - x.r3

/-- The output of a comb pass of one rail. -/
def combOut (v : Int) (x : Chain) : Int := v - x.r1 - x.r2 - x.r3 - x.r4

/-- The registers of one rail after an integrator pass with forcing term `v` (R145). -/
def integratorChain (v : Int) (x : Chain) : Chain where
  r1 := x.r1 + v
  r2 := x.r2 + (x.r1 + v)
  r3 := x.r3 + (x.r2 + (x.r1 + v))
  r4 := x.r4 + (x.r3 + (x.r2 + (x.r1 + v)))

/-- The checks of a comb pass of one rail: every stage's output is in range. -/
abbrev CombFits (w : Nat) (v : Int) (x : Chain) : Prop :=
  InWidth w (v - x.r1) ∧ InWidth w (v - x.r1 - x.r2) ∧ InWidth w (v - x.r1 - x.r2 - x.r3) ∧
    InWidth w (combOut v x)

/-- The checks of an integrator pass of one rail: every new register value is in range. -/
abbrev IntegratorFits (w : Nat) (v : Int) (x : Chain) : Prop :=
  InWidth w (integratorChain v x).r1 ∧ InWidth w (integratorChain v x).r2 ∧
    InWidth w (integratorChain v x).r3 ∧ InWidth w (integratorChain v x).r4

/-- The integer `m` a `MIX` forms (R161). -/
def mixValue (p : Fin 4) (a : Rails Int) : Int := -cosTable p * a.re + sinTable p * a.im

/-! ### Launch and end -/

/-- The reset state with a list of inputs put to the block. -/
def State.present (inputs : List HostInput) : State := { State.reset with input := inputs }

/-- `k` steps. -/
def stepsTo (k : Nat) (s t : State) : Prop := Sys2Proof.core.run k s = .next t

/-- The launch premise: the state is the reset state, or was reached from it by commands without a flag
set (R212, R192, R193; assumption 11). -/
def State.Launched (s : State) : Prop := ∃ inputs k, stepsTo k (State.present inputs) s ∧ s.st.clear = true

/-- A state a run may end in: nothing is left to do and no flag is set. A state in which a flag is set is
never final (R192, R213). -/
def State.final (s : State) : Bool := s.input.isEmpty && s.st.clear

/-! ### Several commands, one after another (R60, R177) -/

/-- Perform commands in order. -/
def execAll : List Instr → State → Host.Outcome State Fault Refusal
  | [], s => .next s
  | i :: is, s =>
    match exec i s with
    | .next t => execAll is t
    | .fault r => .fault r
    | .refused r => .refused r

/-- The command `i` takes `s` to `t`, puts `vs` on the result port and sets no flag. -/
def RunsUnit (i : Instr) (s : State) (vs : List Result) (t : State) : Prop :=
  exec i s = .next t ∧ t.st = s.st ∧ t.output = s.output ++ vs

/-- An integrator command and the `MIX` of what it emits, as two commands (R174). -/
def PassByUnits (i : Instr) (s : State) (o : Sample) (t : State) : Prop :=
  ∃ a s', RunsUnit i s (railsResult .intB (intsOfWords a)) s' ∧ RunsUnit (.mix a) s' [.sample o] t

/-- As many `CIC.INTZ` and `MIX` pairs as there are outputs (R174). -/
def ZeroPassesByUnits : State → List Sample → State → Prop
  | s, [], t => s = t
  | s, o :: os, t => ∃ s', PassByUnits .cicIntz s o s' ∧ ZeroPassesByUnits s' os t

/-- One zero-stuffed sample through the unit commands, each given the result of the one before (R174,
R215). -/
def StuffedByUnits (z : Rails Sample) (s : State) (os : List Sample) (t : State) : Prop :=
  ∃ y q d s1 s2 s3 s4 o os',
    RunsUnit (.firPush z) s (railsResult .sample y) s1 ∧
    RunsUnit (.cicQnt y) s1 (railsResult .intB (intsOfWords q)) s2 ∧
    RunsUnit (.cicComb q) s2 (railsResult .intB (intsOfWords d)) s3 ∧
    PassByUnits (.cicInt d) s3 o s4 ∧ ZeroPassesByUnits s4 os' t ∧ os'.length = 4 ∧ os = o :: os'

/-! ### Where the expansion of a command of Component B overflows (R174, R191) -/

/-- The command runs and sets `ST.ovf_b`. -/
def OverflowsB (i : Instr) (s : State) : Prop := ∃ t, exec i s = .next t ∧ t.st.ovfB = true

/-- An integrator command, or the `MIX` of what it emits, overflows. -/
def PassOverflows (i : Instr) (s : State) : Prop :=
  OverflowsB i s ∨
    ∃ a s', RunsUnit i s (railsResult .intB (intsOfWords a)) s' ∧ OverflowsB (.mix a) s'

/-- One of the next `n` `CIC.INTZ` and `MIX` pairs overflows, after those before it have emitted `os`. -/
def ZeroPassesOverflow : Nat → State → List Sample → Prop
  | 0, _, _ => False
  | n + 1, s, os =>
    (PassOverflows .cicIntz s ∧ os = []) ∨
      ∃ o os' s', PassByUnits .cicIntz s o s' ∧ ZeroPassesOverflow n s' os' ∧ os = o :: os'

/-- One zero-stuffed sample through the unit commands, one of which overflows after the `MIX` before it
have emitted `os` (R174). -/
def StuffedOverflows (z : Rails Sample) (s : State) (os : List Sample) : Prop :=
  ∃ y s1, RunsUnit (.firPush z) s (railsResult .sample y) s1 ∧
    ((OverflowsB (.cicQnt y) s1 ∧ os = []) ∨
      ∃ q s2, RunsUnit (.cicQnt y) s1 (railsResult .intB (intsOfWords q)) s2 ∧
        ((OverflowsB (.cicComb q) s2 ∧ os = []) ∨
          ∃ d s3, RunsUnit (.cicComb q) s2 (railsResult .intB (intsOfWords d)) s3 ∧
            ((PassOverflows (.cicInt d) s3 ∧ os = []) ∨
              ∃ o os' s4, PassByUnits (.cicInt d) s3 o s4 ∧ ZeroPassesOverflow 4 s4 os' ∧ os = o :: os')))

/-- The expansion of `B.PUSH z`, one unit command of which overflows after the `MIX` before it have emitted
`os` (R83, R174). -/
def PushBOverflows (z : Rails Sample) (s : State) (os : List Sample) : Prop :=
  ∃ s1, RunsUnit (.zs2 z) s [.sample z.re, .sample z.im, .sample 0, .sample 0] s1 ∧
    (StuffedOverflows z s1 os ∨
      ∃ os1 os2 s2, StuffedByUnits z s1 os1 s2 ∧ StuffedOverflows ⟨0, 0⟩ s2 os2 ∧ os = os1 ++ os2)

/-- How many `MIX` operations a command performs (R164). -/
def mixCount : Instr → Nat
  | .mix _ => 1
  | .bPush _ => 10
  | .bBlock _ zs => 10 * zs.length
  | .aPre _ | .aQnt _ | .aIirx _ | .aIirf | .aPush _ | .aBlock _ | .zs2 _ | .firPush _ | .cicQnt _
  | .cicComb _ | .cicInt _ | .cicIntz => 0

/-- How many `FIR.PUSH` operations a command performs (R174). -/
def firCount : Instr → Nat
  | .firPush _ => 1
  | .bPush _ => 2
  | .bBlock _ zs => 2 * zs.length
  | .aPre _ | .aQnt _ | .aIirx _ | .aIirf | .aPush _ | .aBlock _ | .zs2 _ | .cicQnt _ | .cicComb _
  | .cicInt _ | .cicIntz | .mix _ => 0

/-! ### The CIC in the pipeline's pattern (R149) -/

/-- `n` integrator passes with forcing term zero and what they emit. -/
def zeroPasses (c : Cfg) : Nat → StateB → Option (StateB × List (Rails Int))
  | 0, b => some (b, [])
  | n + 1, b => do
    let (b, a) ← integratorZero c b
    let (b, as) ← zeroPasses c n b
    return (b, a :: as)

/-- One quantised sample through the CIC: the comb once, then five integrator passes, the first fed the
comb output (R149). -/
def cicSample (c : Cfg) (q : Rails Int) (b : StateB) : Option (StateB × List (Rails Int)) := do
  let (b, d) ← combPass c q b
  let (b, a) ← integratorPass c d b
  let (b, as) ← zeroPasses c 4 b
  return (b, a :: as)

/-- A stream of quantised samples through the CIC; `none` where a check fails. -/
def cicRun (c : Cfg) : List (Rails Int) → StateB → Option (StateB × List (Rails Int))
  | [], b => some (b, [])
  | q :: qs, b => do
    let (b, as) ← cicSample c q b
    let (b, bs) ← cicRun c qs b
    return (b, as ++ bs)

/-- The stream the zero-stuffer makes of a stream of samples (R122). -/
def stuffedStream (zs : List (Rails Sample)) : List (Rails Sample) := zs.flatMap fun z => [z, ⟨0, 0⟩]

/-- What the FIR emits for the `n`-th of a stream of pushes that starts from an all-zero delay line: the
convolution, with no sample before the first (R127). -/
def firResponse (c : Cfg) (ss : List (Rails Sample)) (n : Nat) : Rails Sample :=
  let sum := fun (rail : Rails Sample → Sample) => (List.finRange 21).foldl (fun y k => c.num.radd y
    (c.num.rmul (c.h k) (if k.val ≤ n then rail (ss.getD (n - k.val) ⟨0, 0⟩) else 0))) 0
  ⟨sum Rails.re, sum Rails.im⟩

/-- The integers that enter the CIC when a stream of samples enters Component B with an all-zero delay
line: zero-stuffed, filtered, quantised (R121, R127, R141). -/
def quantisedStream (c : Cfg) (zs : List (Rails Sample)) : List (Rails Int) :=
  (List.range (2 * zs.length)).map fun n =>
    (firResponse c (stuffedStream zs) n).map fun y => c.quantB (c.num.rmul y c.fixScale)

/-- The phase after `k` more `MIX` (R164). -/
def phaseAfter (p : Fin 4) (k : Nat) : Fin 4 := ⟨(p.val + k) % 4, Nat.mod_lt _ (by omega)⟩

/-- Every comb and integrator register is 0, as after reset (R34). -/
def StateB.CicZero (b : StateB) : Prop :=
  b.cb = ⟨Chain.zero, Chain.zero⟩ ∧ b.it = ⟨Chain.zero, Chain.zero⟩

/-- Every element of Component B but the cursor and the phase is as after reset (R178). -/
def StateB.Quiet (b : StateB) : Prop :=
  b.dl = ⟨Memory.empty, Memory.empty⟩ ∧ b.CicZero

end Sys2Proof.Machine
end

