-- ==== Sys2Proof/Certificates/Slice0/Obligations.lean ====
section
/-! DEFINITION. The statements for the provers. Each docstring names the rules of spec/ it rests on. A
statement about an operation takes "the component's overflow flag is clear" as a premise, as R192 asks,
and says in an `if` what the operation does when its checks pass and when one fails. -/

open Sys2Proof Sys2Proof.Machine

/-! ### Reset -/

/-- R34: after reset every element of state is zero. -/
def Obligations.ResetStateIsAllZero : Prop :=
  State.reset.a.f1 = 0 ∧ State.reset.a.f2 = 0 ∧ State.reset.a.n1 = 0 ∧ State.reset.a.n2 = 0 ∧
  (∀ i, State.reset.b.dl.re.read i = 0 ∧ State.reset.b.dl.im.read i = 0) ∧
  State.reset.b.cur = 0 ∧ State.reset.b.ph = 0 ∧
  State.reset.b.cb.re = ⟨0, 0, 0, 0⟩ ∧ State.reset.b.cb.im = ⟨0, 0, 0, 0⟩ ∧
  State.reset.b.it.re = ⟨0, 0, 0, 0⟩ ∧ State.reset.b.it.im = ⟨0, 0, 0, 0⟩ ∧
  State.reset.st.ovfA = false ∧ State.reset.st.ovfB = false ∧ State.reset.st.ill = false

/-- R210: the reset event puts every element of the block's state at its reset value; nothing is emitted.
That the beats of a partly arrived command are what it abandons is the model's reading (assumption 14,
DEDUCED). -/
def Obligations.ResetEventAbandonsAndZeroes : Prop :=
  ∀ (s : State) (beats : List Beat) (rest : List HostInput),
    decode beats = .incomplete → s.input = beats.map .beat ++ .reset :: rest →
    step s = .next { s with a := State.reset.a, b := State.reset.b, st := State.reset.st, input := rest }

/-! ### The invariant -/

/-- The invariant holds after reset (R31: `MIR` "holds at reset"). -/
def Obligations.InvariantHoldsAtReset : Prop := State.reset.Inv

/-- Every step keeps the invariant: the memories' canonical form, the registers' widths (R20) and `MIR`
(R31), and that the sample registers and entries hold samples of the number system (R10), all but the first
as long as the component's overflow flag is clear (R192). -/
def Obligations.EveryStepKeepsTheInvariant : Prop :=
  ∀ s t : State, s.Inv → step s = .next t → t.Inv

/-! ### Encoding and the command port -/

/-- Decoding the beats of a well-formed command gives it back, with every operand at every value the port
carries, and leaves what follows (R71 to R75, R77). -/
def Obligations.DecodeGivesBackEncode : Prop :=
  ∀ (i : Instr) (rest : List Beat), i.WellFormed → i.InCarrier → decode (encode i ++ rest) = .command i rest

/-- A few command words written out from R73 and R80. -/
def Obligations.SampleWordsDecode : Prop :=
  decodeWord 0x00000010 = .ok ⟨.aPre, 0⟩ ∧ decodeWord 0x00000019 = .ok ⟨.aBlock, 0⟩ ∧
  decodeWord 0x00000021 = .ok ⟨.firPush, 0⟩ ∧ decodeWord 0x00000031 = .ok ⟨.cicComb, 0⟩ ∧
  decodeWord 0x00000040 = .ok ⟨.mix, 0⟩ ∧ decodeWord 0x00000A59 = .ok ⟨.bBlock, 10⟩ ∧
  decodeWord 0x00000000 = .error (.noSuchOpcode 0) ∧
  decodeWord 0x00000110 = .error (.countInFormatN .aPre 1)

/-- R74: a word decodes to a row exactly when `cw[7:0]` is the row's `op` and, in format N, `cw[31:8]` is
zero; the row is unique and the count is `cw[31:8]`. -/
def Obligations.EachCommandWordHasOneMeaning : Prop :=
  ∀ (cw : CommandWord) (h : Header),
    decodeWord cw = .ok h ↔
      cw.extractLsb' 0 8 = h.row.opcode ∧ cw.extractLsb' 8 24 = h.cnt ∧ (h.row.format = .n → h.cnt = 0)

/-- R79: a command is well formed exactly when its operand stream has the length its row asks for; the
port takes exactly that many beats and leaves the next, so a command it forms is well formed; an ill-formed
command is refused. -/
def Obligations.PortFormsOnlyWellFormedCommands : Prop :=
  (∀ i : Instr, i.WellFormed ↔ i.operandStream.length = i.header.operandBeats) ∧
  (∀ (beats : List Beat) (i : Instr) (rest : List Beat), decode beats = .command i rest →
    i.WellFormed ∧ ∃ taken, beats = taken ++ rest ∧ taken.length = 1 + i.header.operandBeats) ∧
  ∀ (i : Instr) (s : State), ¬i.WellFormed → exec i s = .refused .malformedCommand

/-- When the beats at the port decode to a command, the step is `exec` of it, with the command's beats
taken from the port. -/
def Obligations.StepRunsTheDecodedCommand : Prop :=
  ∀ (s : State) (i : Instr) (rest : List Beat), decode (leadingBeats s.input).1 = .command i rest →
    step s = exec i { s with input := rest.map .beat ++ (leadingBeats s.input).2 }

/-- A well-formed command put to the port is run, whatever the host has put after it (R60, R70). -/
def Obligations.StepRunsTheCommandPutToThePort : Prop :=
  ∀ (s : State) (i : Instr) (rest : List HostInput), i.WellFormed → i.InCarrier →
    s.input = (encode i).map .beat ++ rest → step s = exec i { s with input := rest }

/-- R80, R193: a reserved word sets `ST.ill` and changes nothing else; nothing is emitted, the word is
consumed and no operand beat is. That the refusal of the program is a state that is not final is the
model's choice (assumption 11). -/
def Obligations.ReservedWordSetsIllOnly : Prop :=
  ∀ (s : State) (w : Beat) (rest : List HostInput),
    (∀ h, decodeWord (BitVec.ofNat 32 w) ≠ .ok h) → s.input = .beat w :: rest →
    step s = .next { s with st := { s.st with ill := true }, input := rest } ∧
    ({ s with st := { s.st with ill := true }, input := rest } : State).final = false

/-- With no whole command and no reset event at the port the block stays as it is (the model's choice:
assumption 5). -/
def Obligations.BlockWaitsForAWholeCommand : Prop :=
  ∀ (s : State) (beats : List Beat), s.input = beats.map .beat → decode beats = .incomplete →
    step s = .next s

/-- No step stops the block: there is no trap, and after every event it is ready for the next command
(R197, R198). -/
def Obligations.EveryStepAnswersANextState : Prop := ∀ s : State, ∃ t, step s = .next t

/-- R77: a result on the port is a word of `W_S`, `W_IIR`, `W_CIC` or `W_DAC` bits, and given back as an
operand it is the value it was: a sample of the number system, and an integer of either domain that is in
the domain's range; a code is its own word. -/
def Obligations.ResultBeatsReadBack : Prop :=
  (∀ v, beatOfResult Config.cfg (.sample v) < 2 ^ Config.cfg.wS) ∧
  (∀ v, beatOfResult Config.cfg (.intA v) < 2 ^ Config.cfg.wIir) ∧
  (∀ v, beatOfResult Config.cfg (.intB v) < 2 ^ Config.cfg.wCic) ∧
  (∀ v, Config.cfg.num.carrier v → sampleOfBeat (beatOfResult Config.cfg (.sample v)) = v) ∧
  (∀ v, InWidth Config.cfg.wIir v → (wordAOfBeat (beatOfResult Config.cfg (.intA v))).toInt = v) ∧
  (∀ v, InWidth Config.cfg.wCic v → (wordBOfBeat (beatOfResult Config.cfg (.intB v))).toInt = v) ∧
  ∀ n, n < 2 ^ Config.cfg.wDac → beatOfResult Config.cfg (.code n) = n

/-- R10, R73, R77: every operand the port takes is a sample or a word of its domain, and every value a step
emits, without `Overflow`, is one its port can carry: a sample of the number system, an integer in its
domain's range, an unsigned `W_DAC`-bit code. -/
def Obligations.ValuesOnThePortsFit : Prop :=
  (∀ (beats : List Beat) (i : Instr) (rest : List Beat), decode beats = .command i rest → i.InCarrier) ∧
  ∀ s t : State, s.Inv → step s = .next t → t.st.ovfA = false → t.st.ovfB = false →
    ∃ rs, t.output = s.output ++ rs ∧ ∀ r ∈ rs, Result.Fits Config.cfg r

/-! ### Component A -/

/-- R101: the encoding, and the step with its registers. -/
def Obligations.PreFilterStep : Prop :=
  ∀ x : Sample, (Instr.aPre x).header.word = 0x00000010 ∧ ∀ s : State, s.st.ovfA = false →
    exec (.aPre x) s = .next { s with
      a := { f1 := x, f2 := s.a.f1, n1 := s.a.n1, n2 := s.a.n2 }
      output := s.output ++
        [.sample (Config.cfg.num.radd x (Config.cfg.num.rmul s.a.f2 Config.cfg.beta2))] }

/-- R102: over a stream the `n`-th `A.PRE` emits `x[n] + BETA2·x[n-2]`, with `x[-1] = x[-2] = rzero`. -/
def Obligations.PreFilterOverAStream : Prop :=
  ∀ (xs : List Sample) (s : State), s.st.ovfA = false → s.a.f1 = 0 → s.a.f2 = 0 →
    ∃ t, execAll (xs.map .aPre) s = .next t ∧
      t.output = s.output ++ (List.range xs.length).map fun n =>
        .sample (Config.cfg.num.radd (xs.getD n 0)
          (Config.cfg.num.rmul (if n < 2 then 0 else xs.getD (n - 2) 0) Config.cfg.beta2))

/-- R103: the encoding, the result, and `Overflow` when the rounded value does not fit. What raising
`Overflow` does is the model's form of R192 (assumption 3). -/
def Obligations.QuantiserOfAStep : Prop :=
  ∀ f : Sample, (Instr.aQnt f).header.word = 0x00000011 ∧ ∀ s : State, s.st.ovfA = false →
    exec (.aQnt f) s = .next
      (if InWidth Config.cfg.wIir (Config.cfg.quantA (Config.cfg.num.rmul f Config.cfg.aScale)) then
        { s with output := s.output ++
            [.intA (Config.cfg.quantA (Config.cfg.num.rmul f Config.cfg.aScale))] }
      else s.overflowA [])

/-- R105: the encoding, and with `n = u + asr(B1N·n1, SHIFT) - asr(B1·n2, SHIFT)`, from the old registers.
What raising `Overflow` does is the model's form of R192 (assumption 3). -/
def Obligations.ExcitedIirPass : Prop :=
  ∀ u : WordA, (Instr.aIirx u).header.word = 0x00000012 ∧ ∀ (s : State) (n : Int), s.st.ovfA = false →
    n = u.toInt + asr (Config.cfg.b1n * s.a.n1) Config.cfg.shift
      - asr (Config.cfg.b1 * s.a.n2) Config.cfg.shift →
    exec (.aIirx u) s = .next
      (if IirFits Config.cfg u.toInt s.a then
        { s with
          a := { f1 := s.a.f1, f2 := s.a.f2, n1 := n, n2 := s.a.n1 }
          output := s.output ++ [.code (n + Config.cfg.dcOffset).toNat] }
      else s.overflowA [])

/-- R107: the encoding, and the same recursion with no forcing term. What raising `Overflow` does is the
model's form of R192 (assumption 3). -/
def Obligations.FreeIirPass : Prop :=
  Instr.aIirf.header.word = 0x00000013 ∧ ∀ (s : State) (n : Int), s.st.ovfA = false →
    n = asr (Config.cfg.b1n * s.a.n1) Config.cfg.shift - asr (Config.cfg.b1 * s.a.n2) Config.cfg.shift →
    exec .aIirf s = .next
      (if IirFits Config.cfg 0 s.a then
        { s with
          a := { f1 := s.a.f1, f2 := s.a.f2, n1 := n, n2 := s.a.n1 }
          output := s.output ++ [.code (n + Config.cfg.dcOffset).toNat] }
      else s.overflowA [])

/-- R108: `A.IIRF` is `A.IIRX 0`: same state change, same code, same overflow behaviour, in every
state. That the values that are free after `Overflow` are the same too is the model's choice
(assumption 3). -/
def Obligations.FreePassIsExcitedPassOfZero : Prop :=
  ∀ s : State, exec .aIirf s = exec (.aIirx 0) s

/-- R109, R171, R191: `A.PUSH` emits `n[j] + DC_OFFSET` for the `M` values of the recursion excited by the
quantised pre-filter output at `j = 0` alone; `n 0` and `n 1` stand for the old `A.n2` and `A.n1`. It
completes when the quantiser and every pass pass their checks. When slot `k` is the first with a failing
check (the quantiser's belongs to slot 0), `ST.ovf_a` is set, the `k` codes before it stand, and Component
B is as it was; that this is a next state is the model's choice (assumption 3). -/
def Obligations.PushAFollowsTheRecursion : Prop :=
  ∀ (x : Sample) (s : State) (u : Int) (n : Nat → Int) (k : Nat), s.st.ovfA = false →
    u = Config.cfg.quantA (Config.cfg.num.rmul
      (Config.cfg.num.radd x (Config.cfg.num.rmul s.a.f2 Config.cfg.beta2)) Config.cfg.aScale) →
    n 0 = s.a.n2 → n 1 = s.a.n1 →
    (∀ j, j < Config.cfg.m →
      n (j + 2) = (if j = 0 then u else 0) + asr (Config.cfg.b1n * n (j + 1)) Config.cfg.shift
        - asr (Config.cfg.b1 * n j) Config.cfg.shift) →
    (∀ j, j < k → (j = 0 → InWidth Config.cfg.wIir u) ∧
      IirFits Config.cfg (if j = 0 then u else 0) ⟨0, 0, n (j + 1), n j⟩) →
    (k = Config.cfg.m → exec (.aPush x) s = .next { s with
      a := { f1 := x, f2 := s.a.f1, n1 := n (Config.cfg.m + 1), n2 := n Config.cfg.m }
      output := s.output ++ (List.range Config.cfg.m).map fun j =>
        .code (n (j + 2) + Config.cfg.dcOffset).toNat }) ∧
    (k < Config.cfg.m →
      ¬((k = 0 → InWidth Config.cfg.wIir u) ∧
        IirFits Config.cfg (if k = 0 then u else 0) ⟨0, 0, n (k + 1), n k⟩) →
      ∃ t rest, exec (.aPush x) s = .next t ∧ t.st.ovfA = true ∧ t.b = s.b ∧ t.st.ovfB = s.st.ovfB ∧
        t.output = s.output ++ ((List.range k).map fun j =>
          .code (n (j + 2) + Config.cfg.dcOffset).toNat) ++ rest)

/-- R83, R177 (a): `A.PUSH x` leaves the state and produces the codes that the unit commands of its
expansion do, each given the result of the one before. -/
def Obligations.PushAEqualsItsUnits : Prop :=
  ∀ (x f : Sample) (u : WordA) (s s1 s2 t : State) (codes : List Nat), s.st.ovfA = false →
    RunsUnit (.aPre x) s [.sample f] s1 → RunsUnit (.aQnt f) s1 [.intA u.toInt] s2 →
    execAll (.aIirx u :: List.replicate (Config.cfg.m - 1) .aIirf) s2 = .next t → t.st.ovfA = false →
    t.output = s2.output ++ codes.map .code →
    exec (.aPush x) s = .next { t with output := s.output ++ codes.map .code }

/-- R172, R177 (b): `A.BLOCK` is `A.PUSH` for each of its samples in order. -/
def Obligations.BlockAEqualsItsPushes : Prop :=
  ∀ (xs : List Sample) (s t : State), xs.length = Config.cfg.ducN → s.st.ovfA = false →
    execAll (xs.map .aPush) s = .next t → t.st.ovfA = false → exec (.aBlock xs) s = .next t

/-- R109, R172: `A.BLOCK` as one recursion over the whole block: `x` is the input stream with the two
samples before the block in front of it, `u j` the quantised pre-filter output of its sample `j`, and the
`DUC_N × M` values `n` follow the recursion, excited by `u j` at the first of every `M` and free in
between. It completes when every quantiser and every pass pass their checks (R191). When slot `k` is the
first with a failing check (the quantiser's belongs to the first slot of its sample), `ST.ovf_a` is set,
the `k` codes before it stand, and Component B is as it was; that this is a next state is the model's
choice (assumption 3). -/
def Obligations.BlockAFollowsTheRecursion : Prop :=
  ∀ (xs : List Sample) (s : State) (x : Nat → Sample) (u n : Nat → Int) (k : Nat),
    s.st.ovfA = false → xs.length = Config.cfg.ducN →
    x 0 = s.a.f2 → x 1 = s.a.f1 → (∀ j, j < Config.cfg.ducN → x (j + 2) = xs.getD j 0) →
    n 0 = s.a.n2 → n 1 = s.a.n1 →
    (∀ j, j < Config.cfg.ducN →
      u j = Config.cfg.quantA (Config.cfg.num.rmul (Config.cfg.num.radd (x (j + 2))
        (Config.cfg.num.rmul (x j) Config.cfg.beta2)) Config.cfg.aScale)) →
    (∀ j, j < Config.cfg.ducN * Config.cfg.m →
      n (j + 2) = (if j % Config.cfg.m = 0 then u (j / Config.cfg.m) else 0)
        + asr (Config.cfg.b1n * n (j + 1)) Config.cfg.shift - asr (Config.cfg.b1 * n j) Config.cfg.shift) →
    (∀ j, j < k → (j % Config.cfg.m = 0 → InWidth Config.cfg.wIir (u (j / Config.cfg.m))) ∧
      IirFits Config.cfg (if j % Config.cfg.m = 0 then u (j / Config.cfg.m) else 0) ⟨0, 0, n (j + 1), n j⟩) →
    (k = Config.cfg.ducN * Config.cfg.m → exec (.aBlock xs) s = .next { s with
      a := { f1 := x (Config.cfg.ducN + 1), f2 := x Config.cfg.ducN
             n1 := n (Config.cfg.ducN * Config.cfg.m + 1), n2 := n (Config.cfg.ducN * Config.cfg.m) }
      output := s.output ++ (List.range (Config.cfg.ducN * Config.cfg.m)).map fun j =>
        .code (n (j + 2) + Config.cfg.dcOffset).toNat }) ∧
    (k < Config.cfg.ducN * Config.cfg.m →
      ¬((k % Config.cfg.m = 0 → InWidth Config.cfg.wIir (u (k / Config.cfg.m))) ∧
        IirFits Config.cfg (if k % Config.cfg.m = 0 then u (k / Config.cfg.m) else 0)
          ⟨0, 0, n (k + 1), n k⟩) →
      ∃ t rest, exec (.aBlock xs) s = .next t ∧ t.st.ovfA = true ∧ t.b = s.b ∧ t.st.ovfB = s.st.ovfB ∧
        t.output = s.output ++ ((List.range k).map fun j =>
          .code (n (j + 2) + Config.cfg.dcOffset).toNat) ++ rest)

/-- R173: `A.PUSH` emits exactly `M` codes and `A.BLOCK` exactly `DUC_N × M` when no `Overflow` is
raised. -/
def Obligations.CountOfCodesOfA : Prop :=
  (∀ (x : Sample) (s t : State), exec (.aPush x) s = .next t → t.st.ovfA = false →
    ∃ codes : List Nat, codes.length = Config.cfg.m ∧ t.output = s.output ++ codes.map .code) ∧
  ∀ (xs : List Sample) (s t : State), exec (.aBlock xs) s = .next t → t.st.ovfA = false →
    ∃ codes : List Nat, codes.length = Config.cfg.ducN * Config.cfg.m ∧
      t.output = s.output ++ codes.map .code

/-! ### Component B: zero-stuffer and FIR -/

/-- R121: the encoding; the sample unchanged, then the zero; no state. -/
def Obligations.ZeroStuffStep : Prop :=
  ∀ z : Rails Sample, (Instr.zs2 z).header.word = 0x00000020 ∧ ∀ s : State, s.st.ovfB = false →
    exec (.zs2 z) s = .next { s with
      output := s.output ++ [.sample z.re, .sample z.im, .sample 0, .sample 0] }

/-- R123: the encoding; write at the cursor and at the mirror, advance modulo 21, convolve; everything else is
unchanged. The premise that the memories are in canonical form is part of the invariant. -/
def Obligations.FirPushStep : Prop :=
  ∀ z : Rails Sample, (Instr.firPush z).header.word = 0x00000021 ∧
    ∀ s : State, s.st.ovfB = false → s.b.dl.re.wf → s.b.dl.im.wf → ∃ t, exec (.firPush z) s = .next t ∧
      (∀ j : Addr, t.b.dl.re.read j =
        if j.val = s.b.cur.val ∨ j.val = s.b.cur.val + 21 then z.re else s.b.dl.re.read j) ∧
      (∀ j : Addr, t.b.dl.im.read j =
        if j.val = s.b.cur.val ∨ j.val = s.b.cur.val + 21 then z.im else s.b.dl.im.read j) ∧
      t.b.cur.val = (s.b.cur.val + 1) % 21 ∧
      t.output = s.output ++
        [.sample ((List.finRange 21).foldl (fun y k => Config.cfg.num.radd y (Config.cfg.num.rmul
            (Config.cfg.h k) (t.b.dl.re.read ⟨t.b.cur.val + 20 - k.val, by omega⟩))) 0),
         .sample ((List.finRange 21).foldl (fun y k => Config.cfg.num.radd y (Config.cfg.num.rmul
            (Config.cfg.h k) (t.b.dl.im.read ⟨t.b.cur.val + 20 - k.val, by omega⟩))) 0)] ∧
      t.b.cb = s.b.cb ∧ t.b.it = s.b.it ∧ t.b.ph = s.b.ph ∧ t.a = s.a ∧ t.st = s.st ∧
      t.input = s.input ∧ t.freeA = s.freeA ∧ t.freeB = s.freeB

/-- R35, R124, R126: a push makes its sample the newest of the history, moves every other one place back,
and emits the sum of `H[k]` times the `k`-th newest sample. -/
def Obligations.FirPushShiftsTheHistory : Prop :=
  ∀ (z : Rails Sample) (s t : State), s.st.ovfB = false → s.b.dl.re.wf → s.b.dl.im.wf → s.b.Mir →
    exec (.firPush z) s = .next t →
      t.b.hist 0 = z ∧ (∀ k : Fin 20, t.b.hist k.succ = s.b.hist k.castSucc) ∧
      t.output = s.output ++
        [.sample ((List.finRange 21).foldl (fun y k => Config.cfg.num.radd y
            (Config.cfg.num.rmul (Config.cfg.h k) (t.b.hist k).re)) 0),
         .sample ((List.finRange 21).foldl (fun y k => Config.cfg.num.radd y
            (Config.cfg.num.rmul (Config.cfg.h k) (t.b.hist k).im)) 0)]

/-- R127: from an all-zero delay line, at any cursor, the `n`-th of a stream of pushes emits
`y[n] = sum of H[k]·s[n-k]` on each rail, with `s[m] = rzero` for `m < 0`: the ring of 42 entries and one
cursor is a filter over the stream. -/
def Obligations.FirOverAStreamIsTheConvolution : Prop :=
  ∀ (ss : List (Rails Sample)) (s : State), s.st.ovfB = false →
    s.b.dl.re = Memory.empty → s.b.dl.im = Memory.empty →
    ∃ t, execAll (ss.map .firPush) s = .next t ∧
      t.output = s.output ++ (List.range ss.length).flatMap fun n =>
        [.sample ((List.finRange 21).foldl (fun y k => Config.cfg.num.radd y (Config.cfg.num.rmul
            (Config.cfg.h k) (if k.val ≤ n then (ss.getD (n - k.val) ⟨0, 0⟩).re else 0))) 0),
         .sample ((List.finRange 21).foldl (fun y k => Config.cfg.num.radd y (Config.cfg.num.rmul
            (Config.cfg.h k) (if k.val ≤ n then (ss.getD (n - k.val) ⟨0, 0⟩).im else 0))) 0)]

/-- R128: the rails are two lanes of one operation. No term of `y_re` depends on the imaginary operand or
memory, nor the reverse, and from equal rails the two lanes compute equal values. -/
def Obligations.FirRailsAreIndependent : Prop :=
  ∀ (z z' : Rails Sample) (s s' t t' : State), s.st.ovfB = false → s'.st.ovfB = false →
    s.b.cur = s'.b.cur → exec (.firPush z) s = .next t → exec (.firPush z') s' = .next t' →
    ∃ re im re' im', t.output = s.output ++ [.sample re, .sample im] ∧
      t'.output = s'.output ++ [.sample re', .sample im'] ∧
      (s.b.dl.re = s'.b.dl.re → z.re = z'.re → re = re' ∧ t.b.dl.re = t'.b.dl.re) ∧
      (s.b.dl.im = s'.b.dl.im → z.im = z'.im → im = im' ∧ t.b.dl.im = t'.b.dl.im) ∧
      (s.b.dl.re = s'.b.dl.im → z.re = z'.im → re = im' ∧ t.b.dl.re = t'.b.dl.im)

/-! ### Component B: CIC and mixer -/

/-- R141: the encoding, the results, and `Overflow` when one of them does not fit. What raising `Overflow`
does is the model's form of R192 (assumption 3). -/
def Obligations.QuantiserOfBStep : Prop :=
  ∀ y : Rails Sample, (Instr.cicQnt y).header.word = 0x00000030 ∧
    ∀ (s : State) (re im : Int), s.st.ovfB = false →
    re = Config.cfg.quantB (Config.cfg.num.rmul y.re Config.cfg.fixScale) →
    im = Config.cfg.quantB (Config.cfg.num.rmul y.im Config.cfg.fixScale) →
    exec (.cicQnt y) s = .next
      (if InWidth Config.cfg.wCic re ∧ InWidth Config.cfg.wCic im then
        { s with output := s.output ++ [.intB re, .intB im] }
      else s.overflowB [])

/-- R143, the encoding and in closed form per rail: each register takes its stage's input of this pass.
What raising `Overflow` does is the model's form of R192 (assumption 3). -/
def Obligations.CombStep : Prop :=
  ∀ q : Rails WordB, (Instr.cicComb q).header.word = 0x00000031 ∧ ∀ s : State, s.st.ovfB = false →
    exec (.cicComb q) s = .next
      (if CombFits Config.cfg.wCic q.re.toInt s.b.cb.re ∧ CombFits Config.cfg.wCic q.im.toInt s.b.cb.im then
        { s with
          b := { s.b with cb := ⟨combChain q.re.toInt s.b.cb.re, combChain q.im.toInt s.b.cb.im⟩ }
          output := s.output ++
            [.intB (combOut q.re.toInt s.b.cb.re), .intB (combOut q.im.toInt s.b.cb.im)] }
      else s.overflowB [])

/-- R144: over a stream of combs that starts with the comb registers at 0 and raises no `Overflow`, the
`n`-th emits the fourth difference of the inputs, which are 0 before the first (`q 0` to `q 3`). -/
def Obligations.CombIsTheFourthDifference : Prop :=
  ∀ (qs : List (Rails WordB)) (s t : State) (q : Nat → Rails Int),
    s.b.cb = ⟨Chain.zero, Chain.zero⟩ → (∀ j, j < 4 → q j = ⟨0, 0⟩) →
    (∀ j, j < qs.length → q (j + 4) = intsOfWords (qs.getD j ⟨0, 0⟩)) →
    execAll (qs.map .cicComb) s = .next t → t.st.ovfB = false →
    t.output = s.output ++ (List.range qs.length).flatMap fun n =>
      [.intB ((q (n + 4)).re - 4 * (q (n + 3)).re + 6 * (q (n + 2)).re - 4 * (q (n + 1)).re + (q n).re),
       .intB ((q (n + 4)).im - 4 * (q (n + 3)).im + 6 * (q (n + 2)).im - 4 * (q (n + 1)).im + (q n).im)]

/-- R145, the encoding and in closed form per rail: each stage adds the new value of the stage before it,
and the fourth is emitted. What raising `Overflow` does is the model's form of R192 (assumption 3). -/
def Obligations.IntegratorStep : Prop :=
  ∀ u : Rails WordB, (Instr.cicInt u).header.word = 0x00000032 ∧ ∀ s : State, s.st.ovfB = false →
    exec (.cicInt u) s = .next
      (if IntegratorFits Config.cfg.wCic u.re.toInt s.b.it.re ∧
          IntegratorFits Config.cfg.wCic u.im.toInt s.b.it.im then
        { s with
          b := { s.b with it := ⟨integratorChain u.re.toInt s.b.it.re, integratorChain u.im.toInt s.b.it.im⟩ }
          output := s.output ++ [.intB (integratorChain u.re.toInt s.b.it.re).r4,
            .intB (integratorChain u.im.toInt s.b.it.im).r4] }
      else s.overflowB [])

/-- R147: the encoding, and the same pass with forcing term zero, which is `CIC.INT (0, 0)` exactly.
What raising `Overflow` does is the model's form of R192 (assumption 3). -/
def Obligations.ZeroIntegratorStep : Prop :=
  Instr.cicIntz.header.word = 0x00000033 ∧
  (∀ s : State, s.st.ovfB = false →
    exec .cicIntz s = .next
      (if IntegratorFits Config.cfg.wCic 0 s.b.it.re ∧ IntegratorFits Config.cfg.wCic 0 s.b.it.im then
        { s with
          b := { s.b with it := ⟨integratorChain 0 s.b.it.re, integratorChain 0 s.b.it.im⟩ }
          output := s.output ++
            [.intB (integratorChain 0 s.b.it.re).r4, .intB (integratorChain 0 s.b.it.im).r4] }
      else s.overflowB [])) ∧
  ∀ s : State, exec .cicIntz s = exec (.cicInt ⟨0, 0⟩) s

/-- R150 (a): the impulse response of the CIC in the pipeline's pattern, for an impulse of any size the
widths admit (R151): 17 non-zero outputs, and every register back at 0 after the fifth comb and its
first integrator pass, so after five samples. -/
def Obligations.CicImpulseResponse : Prop :=
  ∀ (c : Cfg) (q : Rails Int) (b : StateB), b.CicZero →
    125 * |q.re| ≤ 2 ^ (c.wCic - 1) - 1 → 125 * |q.im| ≤ 2 ^ (c.wCic - 1) - 1 →
    ∃ b', cicRun c [q, ⟨0, 0⟩, ⟨0, 0⟩, ⟨0, 0⟩, ⟨0, 0⟩] b = some (b',
      [1, 4, 10, 20, 35, 52, 68, 80, 85, 80, 68, 52, 35, 20, 10, 4, 1, 0, 0, 0, 0, 0, 0, 0, 0].map
        fun k => ⟨k * q.re, k * q.im⟩) ∧ b'.CicZero

/-- R150 (b): a constant input reaches the level `125·q` on the 13th pass and stays there with no
drift. -/
def Obligations.CicSettlesAtGain125 : Prop :=
  ∀ (c : Cfg) (q : Rails Int) (b : StateB) (n : Nat), b.CicZero →
    125 * |q.re| ≤ 2 ^ (c.wCic - 1) - 1 → 125 * |q.im| ≤ 2 ^ (c.wCic - 1) - 1 →
    ∃ b' outs, cicRun c (List.replicate n q) b = some (b', outs) ∧ outs.length = 5 * n ∧
      ∀ p o, 12 ≤ p → outs[p]? = some o → o = ⟨125 * q.re, 125 * q.im⟩

/-- R151: if every quantised input is at most `Q` in magnitude and `125·Q` fits, no check of the CIC
fails on any stream, every output is at most `125·Q` in magnitude, and so no `MIX` of it fails either. -/
def Obligations.CicSizedNeverOverflows : Prop :=
  ∀ (c : Cfg) (bound : Int) (qs : List (Rails Int)) (b : StateB), b.CicZero →
    125 * bound ≤ 2 ^ (c.wCic - 1) - 1 → (∀ q ∈ qs, |q.re| ≤ bound ∧ |q.im| ≤ bound) →
    ∃ b' outs, cicRun c qs b = some (b', outs) ∧ outs.length = 5 * qs.length ∧
      ∀ o ∈ outs, |o.re| ≤ 125 * bound ∧ |o.im| ≤ 125 * bound ∧
        ∀ b'' : StateB, (mixSample c o b'').isSome = true

/-- R161: the encoding; the mixer's table, its one check, the scaling by `OUT_DIV` and the phase's
advance; and the check fails only on the negation of the most negative value. What raising `Overflow` does
is the model's form of R192 (assumption 3). -/
def Obligations.MixStep : Prop :=
  ∀ a : Rails WordB, (Instr.mix a).header.word = 0x00000040 ∧
    ∀ (s : State) (m : Int), s.st.ovfB = false →
      m = (if s.b.ph = 0 then -a.re.toInt else if s.b.ph = 1 then a.im.toInt
        else if s.b.ph = 2 then a.re.toInt else -a.im.toInt) →
      exec (.mix a) s = .next
        (if InWidth Config.cfg.wCic m then
          { s with
            b := { s.b with ph := s.b.ph + 1 }
            output := s.output ++
              [.sample (Config.cfg.num.rdiv (Config.cfg.num.rofint m) Config.cfg.outDiv)] }
        else s.overflowB []) ∧
      (¬InWidth Config.cfg.wCic m ↔
        (s.b.ph = 0 ∧ a.re.toInt = -2 ^ (Config.cfg.wCic - 1)) ∨
        (s.b.ph = 3 ∧ a.im.toInt = -2 ^ (Config.cfg.wCic - 1)))

/-- R150 (b), R163: in exact arithmetic and with `CIC_GAIN = 125`, a steady level `y` that the quantiser
takes to the integer `q` without loss, through the CIC from zero registers, comes out of `MIX` from the 13th
pass on at the same level in magnitude, the real rail at phases 0 and 2 and the imaginary rail at phases 1
and 3. That `OUT_DIV` is `FIX_SCALE × CIC_GAIN` is assumption 4. -/
def Obligations.SteadyLevelPassesWithUnitGain : Prop :=
  ∀ (c : Cfg) (y : Rails Sample) (q : Rails Int) (b : StateB) (n : Nat), c.Wf → c.num = Num.exact →
    c.cicGain = 125 → y.re * c.fixScale = (q.re : Rat) → y.im * c.fixScale = (q.im : Rat) →
    125 * |q.re| ≤ 2 ^ (c.wCic - 1) - 1 → 125 * |q.im| ≤ 2 ^ (c.wCic - 1) - 1 → b.CicZero →
    quantiseB c y = some q ∧
    ∃ b' outs, cicRun c (List.replicate n q) b = some (b', outs) ∧ outs.length = 5 * n ∧
      ∀ p o, 12 ≤ p → outs[p]? = some o → ∀ m : StateB, ∃ m', mixSample c o m = some (m',
        if m.ph = 0 then -y.re else if m.ph = 1 then y.im else if m.ph = 2 then y.re else -y.im)

/-- R24, R164: without `Overflow` the phase advances by one modulo 4 for each `MIX` and the cursor by one
modulo 21 for each `FIR.PUSH` a command performs, and by nothing else. -/
def Obligations.PhaseAndCursorCountOperations : Prop :=
  ∀ (i : Instr) (s t : State), exec i s = .next t → t.st.ovfB = false →
    t.b.ph.val = (s.b.ph.val + mixCount i) % 4 ∧ t.b.cur.val = (s.b.cur.val + firCount i) % 21

/-! ### Pipelines of Component B -/

/-- R83, R174, R177 (a): `B.PUSH z` leaves the state and produces the ten samples that the unit commands
of its expansion do, each given the result of the one before. -/
def Obligations.PushBEqualsItsUnits : Prop :=
  ∀ (z : Rails Sample) (s s1 s2 t : State) (os os' : List Sample), s.st.ovfB = false →
    RunsUnit (.zs2 z) s [.sample z.re, .sample z.im, .sample 0, .sample 0] s1 →
    StuffedByUnits z s1 os s2 → StuffedByUnits ⟨0, 0⟩ s2 os' t →
    exec (.bPush z) s = .next { t with output := s.output ++ (os ++ os').map .sample }

/-- R151, R174, R176: Component B from the zero state, on a stream whose quantised values are at most
`bound` in magnitude, where `125·bound` fits: every `B.PUSH`, and every `B.BLOCK`, completes without
`Overflow`, and what it emits is the stream zero-stuffed, filtered, quantised, interpolated by the CIC
(`outs`) and mixed, the phase advancing by one from sample to sample. -/
def Obligations.SizedStreamsThroughBComplete : Prop :=
  ∀ (zs : List (Rails Sample)) (s : State) (bound : Int), s.st.ovfB = false → s.b.Quiet →
    125 * bound ≤ 2 ^ (Config.cfg.wCic - 1) - 1 →
    (∀ q ∈ quantisedStream Config.cfg zs, |q.re| ≤ bound ∧ |q.im| ≤ bound) →
    ∃ t b' outs, execAll (zs.map .bPush) s = .next t ∧
      (∀ z, zs = [z] → exec (.bPush z) s = .next t) ∧
      (∀ cnt : Count, zs.length = cnt.toNat * (Config.cfg.ducN / 10) → exec (.bBlock cnt zs) s = .next t) ∧
      t.st = s.st ∧ t.a = s.a ∧
      cicRun Config.cfg (quantisedStream Config.cfg zs) s.b = some (b', outs) ∧
      outs.length = 10 * zs.length ∧ t.b.cb = b'.cb ∧ t.b.it = b'.it ∧
      t.output = s.output ++ (List.range (10 * zs.length)).map fun p =>
        .sample (Config.cfg.num.rdiv
          (Config.cfg.num.rofint (mixValue (phaseAfter s.b.ph p) (outs.getD p ⟨0, 0⟩))) Config.cfg.outDiv)

/-- R176, R177 (b): `B.BLOCK` is `B.PUSH` for each of its samples in order. -/
def Obligations.BlockBEqualsItsPushes : Prop :=
  ∀ (cnt : Count) (zs : List (Rails Sample)) (s t : State),
    zs.length = cnt.toNat * (Config.cfg.ducN / 10) → s.st.ovfB = false →
    execAll (zs.map .bPush) s = .next t → t.st.ovfB = false → exec (.bBlock cnt zs) s = .next t

/-- R174, R191, R76: when a unit command of the expansion of `B.PUSH z` overflows, `B.PUSH z` sets
`ST.ovf_b`, what the `MIX` before the failing check emitted stands, and Component A is as it was; that this
is a next state is the model's choice (assumption 3). -/
def Obligations.PushBStopsAtAFailingUnit : Prop :=
  ∀ (z : Rails Sample) (s : State) (os : List Sample), s.st.ovfB = false → PushBOverflows z s os →
    ∃ t rest, exec (.bPush z) s = .next t ∧ t.st.ovfB = true ∧ t.a = s.a ∧ t.st.ovfA = s.st.ovfA ∧
      t.output = s.output ++ os.map .sample ++ rest

/-- R176, R191, R76: when, after the samples `zs` have gone through, a unit command of the expansion of the
next sample's `B.PUSH` overflows, `B.BLOCK` sets `ST.ovf_b`, everything emitted before the failing check
stands, and Component A is as it was; that this is a next state is the model's choice (assumption 3). -/
def Obligations.BlockBStopsAtAFailingUnit : Prop :=
  ∀ (cnt : Count) (zs zs' : List (Rails Sample)) (z : Rails Sample) (s s' : State) (os : List Sample),
    (zs ++ z :: zs').length = cnt.toNat * (Config.cfg.ducN / 10) → s.st.ovfB = false →
    execAll (zs.map .bPush) s = .next s' → s'.st.ovfB = false → PushBOverflows z s' os →
    ∃ t rest, exec (.bBlock cnt (zs ++ z :: zs')) s = .next t ∧ t.st.ovfB = true ∧ t.a = s.a ∧
      t.st.ovfA = s.st.ovfA ∧ t.output = s'.output ++ os.map .sample ++ rest

/-- R176: with `cnt = 0` the command takes no operand, emits nothing and changes no state. -/
def Obligations.EmptyBlockChangesNothing : Prop :=
  ∀ s : State, s.st.ovfB = false → exec (.bBlock 0 []) s = .next s

/-- R67, R177 (c): two `B.BLOCK` commands one after the other are one block of both: a cut between chunks
does not matter. -/
def Obligations.ConsecutiveBlocksAreOneBlock : Prop :=
  ∀ (c1 c2 : Count) (zs1 zs2 : List (Rails Sample)) (s t : State),
    c1.toNat + c2.toNat < 2 ^ 24 → s.st.ovfB = false →
    execAll [.bBlock c1 zs1, .bBlock c2 zs2] s = .next t → t.st.ovfB = false →
    exec (.bBlock (c1 + c2) (zs1 ++ zs2)) s = .next t

/-- R76, R176: without `Overflow` `B.PUSH` emits exactly 10 samples and `B.BLOCK` exactly
`cnt × DUC_N`. -/
def Obligations.CountOfSamplesOfB : Prop :=
  (∀ (z : Rails Sample) (s t : State), exec (.bPush z) s = .next t → t.st.ovfB = false →
    ∃ os : List Sample, os.length = 10 ∧ t.output = s.output ++ os.map .sample) ∧
  ∀ (cnt : Count) (zs : List (Rails Sample)) (s t : State),
    exec (.bBlock cnt zs) s = .next t → t.st.ovfB = false →
    ∃ os : List Sample, os.length = cnt.toNat * Config.cfg.ducN ∧ t.output = s.output ++ os.map .sample

/-- R178: zero input from the zero state gives `DC_OFFSET` (A) or `rzero` (B) for ever, and leaves
everything at its reset value but the cursor and the phase. -/
def Obligations.ZeroInputQuiescence : Prop :=
  (∀ (k : Nat) (s : State), s.st.ovfA = false → s.a = StateA.zero →
    execAll (List.replicate k (.aPush 0)) s = .next { s with
      output := s.output ++ List.replicate (k * Config.cfg.m) (.code Config.cfg.dcOffset.toNat) }) ∧
  ∀ (k : Nat) (s : State), s.st.ovfB = false → s.b.Quiet →
    ∃ t, execAll (List.replicate k (.bPush ⟨0, 0⟩)) s = .next t ∧
      t.output = s.output ++ List.replicate (k * 10) (.sample 0) ∧ t.b.Quiet ∧ t.st = s.st ∧ t.a = s.a ∧
      t.b.cur.val = (s.b.cur.val + 2 * k) % 21 ∧ t.b.ph.val = (s.b.ph.val + 2 * k) % 4

/-- R172, R176, R178: a block of zeros from the zero state runs, for every count. -/
def Obligations.ZeroBlocksRun : Prop :=
  (∀ s : State, s.st.ovfA = false → s.a = StateA.zero →
    exec (.aBlock (List.replicate Config.cfg.ducN 0)) s = .next { s with
      output := s.output ++
        List.replicate (Config.cfg.ducN * Config.cfg.m) (.code Config.cfg.dcOffset.toNat) }) ∧
  ∀ (cnt : Count) (s : State), s.st.ovfB = false → s.b.Quiet →
    ∃ t, exec (.bBlock cnt (List.replicate (cnt.toNat * (Config.cfg.ducN / 10)) ⟨0, 0⟩)) s = .next t ∧
      t.output = s.output ++ List.replicate (cnt.toNat * Config.cfg.ducN) (.sample 0) ∧ t.b.Quiet ∧
      t.st = s.st ∧ t.a = s.a

/-! ### Flags, frames and the two components -/

/-- R20, R33, R192: a command of one component leaves the other component, its flag, `ST.ill` and the
port's input as they were, whether or not it overflows; what it emits is appended. -/
def Obligations.CommandsLeaveTheOtherComponent : Prop :=
  ∀ (i : Instr) (s t : State), exec i s = .next t →
    (i.component = .a → t.b = s.b ∧ t.st.ovfB = s.st.ovfB ∧ t.freeB = s.freeB) ∧
    (i.component = .b → t.a = s.a ∧ t.st.ovfA = s.st.ovfA ∧ t.freeA = s.freeA) ∧
    t.st.ill = s.st.ill ∧ t.input = s.input ∧ ∃ rs, t.output = s.output ++ rs

/-- R33, R51: without `Overflow` a unit command writes only the state its row of the access matrix
marks, of either component; every entry of both memories reads as before but where `FIR.PUSH` writes. -/
def Obligations.AccessMatrix : Prop :=
  ∀ (s t : State),
    (∀ x, exec (.aPre x) s = .next t → t.st.ovfA = false →
      t.a.n1 = s.a.n1 ∧ t.a.n2 = s.a.n2 ∧ t.b = s.b) ∧
    (∀ f, exec (.aQnt f) s = .next t → t.st.ovfA = false → t.a = s.a ∧ t.b = s.b) ∧
    (∀ u, exec (.aIirx u) s = .next t → t.st.ovfA = false →
      t.a.f1 = s.a.f1 ∧ t.a.f2 = s.a.f2 ∧ t.b = s.b) ∧
    (exec .aIirf s = .next t → t.st.ovfA = false →
      t.a.f1 = s.a.f1 ∧ t.a.f2 = s.a.f2 ∧ t.b = s.b) ∧
    (∀ z, exec (.zs2 z) s = .next t → t.st.ovfB = false → t.a = s.a ∧ t.b = s.b) ∧
    (∀ z, exec (.firPush z) s = .next t → t.st.ovfB = false →
      t.a = s.a ∧ t.b.cb = s.b.cb ∧ t.b.it = s.b.it ∧ t.b.ph = s.b.ph ∧
      ∀ j : Addr, j.val ≠ s.b.cur.val → j.val ≠ s.b.cur.val + 21 →
        t.b.dl.re.read j = s.b.dl.re.read j ∧ t.b.dl.im.read j = s.b.dl.im.read j) ∧
    (∀ y, exec (.cicQnt y) s = .next t → t.st.ovfB = false → t.a = s.a ∧ t.b = s.b) ∧
    (∀ q, exec (.cicComb q) s = .next t → t.st.ovfB = false →
      t.a = s.a ∧ t.b = { s.b with cb := t.b.cb }) ∧
    (∀ u, exec (.cicInt u) s = .next t → t.st.ovfB = false →
      t.a = s.a ∧ t.b = { s.b with it := t.b.it }) ∧
    (exec .cicIntz s = .next t → t.st.ovfB = false →
      t.a = s.a ∧ t.b = { s.b with it := t.b.it } ∧
        t.b.it.re.r1 = s.b.it.re.r1 ∧ t.b.it.im.r1 = s.b.it.im.r1) ∧
    (∀ a, exec (.mix a) s = .next t → t.st.ovfB = false →
      t.a = s.a ∧ t.b = { s.b with ph := t.b.ph })

/-- R29, R191: a command sets no flag but its own component's overflow flag, `A.PRE`, `ZS2` and
`FIR.PUSH` set none, and no command clears one. -/
def Obligations.FlagsSetOnlyByTheirOperations : Prop :=
  ∀ (i : Instr) (s t : State), exec i s = .next t →
    t.st.ill = s.st.ill ∧
    (i.component = .b → t.st.ovfA = s.st.ovfA) ∧ (i.component = .a → t.st.ovfB = s.st.ovfB) ∧
    (i.row = .aPre ∨ i.row = .zs2 ∨ i.row = .firPush → t.st = s.st) ∧
    (s.st.ovfA = true → t.st.ovfA = true) ∧ (s.st.ovfB = true → t.st.ovfB = true)

/-- R198: the flags are cleared only by the reset event: over any step that does not take one, a set flag
stays set. -/
def Obligations.FlagsAreStickyUntilReset : Prop :=
  ∀ s t : State, step s = .next t → (∀ rest, fetch s.input ≠ .reset rest) →
    (s.st.ovfA = true → t.st.ovfA = true) ∧ (s.st.ovfB = true → t.st.ovfB = true) ∧
    (s.st.ill = true → t.st.ill = true)

/-- R192 as the model has it (assumption 3): once a component's flag is set, a command of it still runs,
and what the component holds and emits is a free value, a new one each time. -/
def Obligations.FlaggedComponentIsFree : Prop :=
  (∀ (i : Instr) (s : State), i.WellFormed → i.component = .a → s.st.ovfA = true →
    exec i s = .next { s with
      a := StateA.free s.freeA, output := s.output ++ Config.freeResults .a s.freeA, freeA := s.freeA + 1 }) ∧
  ∀ (i : Instr) (s : State), i.WellFormed → i.component = .b → s.st.ovfB = true →
    exec i s = .next { s with
      b := StateB.free s.freeB, output := s.output ++ Config.freeResults .b s.freeB, freeB := s.freeB + 1 }

/-- R62: a command of A and a command of B commute: the same final state in either order, and the same
results for each. That this holds of the free values too, when one of them overflows or is flagged, is the
model's choice (assumption 3). -/
def Obligations.ComponentsCommute : Prop :=
  ∀ (i j : Instr) (s s1 s2 : State), i.component = .a → j.component = .b →
    exec i s = .next s1 → exec j s = .next s2 →
    ∃ t ra rb, exec j s1 = .next t ∧ exec i s2 = .next { t with output := s.output ++ rb ++ ra } ∧
      s1.output = s.output ++ ra ∧ s2.output = s.output ++ rb ∧ t.output = s.output ++ ra ++ rb

/-- R192: the results of a component's commands and the state they leave it in depend on nothing of the
other component, its overflow included. That its own free values, when it overflows or is flagged, depend
on its count of free values alone is the model's choice (assumption 3). -/
def Obligations.ComponentsDoNotObserveEachOther : Prop :=
  (∀ (i : Instr) (s s' t : State), i.component = .a → s'.a = s.a → s'.st.ovfA = s.st.ovfA →
    s'.freeA = s.freeA → exec i s = .next t →
    ∃ t' rs, exec i s' = .next t' ∧ t'.a = t.a ∧ t'.st.ovfA = t.st.ovfA ∧ t'.freeA = t.freeA ∧
      t.output = s.output ++ rs ∧ t'.output = s'.output ++ rs) ∧
  ∀ (i : Instr) (s s' t : State), i.component = .b → s'.b = s.b → s'.st.ovfB = s.st.ovfB →
    s'.freeB = s.freeB → exec i s = .next t →
    ∃ t' rs, exec i s' = .next t' ∧ t'.b = t.b ∧ t'.st.ovfB = t.st.ovfB ∧ t'.freeB = t.freeB ∧
      t.output = s.output ++ rs ∧ t'.output = s'.output ++ rs
end

