-- ==== Sys2Proof/Laws/Flags.lean ====
section
/-! SUPPORT. The laws of the range checks and of the arithmetic shift. -/

namespace Sys2Proof.Machine

theorem chk_eq_some {w : Nat} {v u : Int} : chk w v = some u ↔ InWidth w v ∧ u = v := by
  unfold chk
  split_ifs with h
  · simp only [Option.some.injEq]
    exact ⟨fun e => ⟨h, e.symm⟩, fun e => e.2.symm⟩
  · exact ⟨fun e => by simp at e, fun e => absurd e.1 h⟩

theorem chk_eq_none {w : Nat} {v : Int} : chk w v = none ↔ ¬InWidth w v := by
  unfold chk
  split_ifs with h <;> simp [h]

theorem chk_of_inWidth {w : Nat} {v : Int} (h : InWidth w v) : chk w v = some v := if_pos h

theorem chkCode_eq_some {w : Nat} {v : Int} {n : Nat} :
    chkCode w v = some n ↔ (0 ≤ v ∧ v ≤ 2 ^ w - 1) ∧ n = v.toNat := by
  unfold chkCode
  split_ifs with h
  · simp only [Option.some.injEq]
    exact ⟨fun e => ⟨h, e.symm⟩, fun e => e.2.symm⟩
  · exact ⟨fun e => by simp at e, fun e => absurd e.1 h⟩

theorem chkCode_eq_none {w : Nat} {v : Int} : chkCode w v = none ↔ ¬(0 ≤ v ∧ v ≤ 2 ^ w - 1) := by
  unfold chkCode
  split_ifs with h
  · simp only [false_iff, not_not]
    exact h
  · exact ⟨fun _ => h, fun _ => rfl⟩

theorem chkCode_of_range {w : Nat} {v : Int} (h : 0 ≤ v ∧ v ≤ 2 ^ w - 1) : chkCode w v = some v.toNat :=
  if_pos h

theorem two_pow_pos (n : Nat) : (0 : Int) < 2 ^ n := by positivity

theorem InWidth.zero (w : Nat) : InWidth w 0 := by
  have := two_pow_pos (w - 1)
  constructor <;> omega

@[simp] theorem asr_zero (s : Nat) : asr 0 s = 0 := by simp [asr]

/-- The shift of an in-range value is in range: `asr` cannot overflow (R13). -/
theorem InWidth.asr {w : Nat} {v : Int} (h : InWidth w v) (s : Nat) : InWidth w (asr v s) := by
  have hs := two_pow_pos s
  have hw := two_pow_pos (w - 1)
  obtain ⟨h1, h2⟩ := h
  constructor
  · exact (Int.le_ediv_iff_mul_le hs).2 (by nlinarith)
  · have h3 : Machine.asr v s < 2 ^ (w - 1) := Int.ediv_lt_of_lt_mul hs (by nlinarith)
    omega

/-- A `w`-bit word read as a two's-complement integer is in range (R77). -/
theorem inWidth_toInt {w : Nat} (x : BitVec w) : InWidth w x.toInt := by
  refine ⟨BitVec.le_toInt x, ?_⟩
  have := BitVec.toInt_lt (x := x)
  omega

end Sys2Proof.Machine
end

