-- ==== Sys2Proof/Laws/Memory.lean ====
section
/-! SUPPORT. The laws of the delay-line memories: a read after a write, and that every memory operation
keeps the canonical form. -/

namespace Sys2Proof.Machine

/-! ### Lists of cells -/

theorem lookupCell_of_lt (l : List (Nat × Sample)) (a : Nat) (h : ∀ x ∈ l, a < x.1) : lookupCell l a = 0 := by
  induction l with
  | nil => rfl
  | cons x rest ih =>
    obtain ⟨k, v⟩ := x
    have hk : a < k := h (k, v) (by simp)
    rw [lookupCell, if_neg (by omega)]
    exact ih fun y hy => h y (by simp [hy])

theorem lookupCell_storeCell_same (l : List (Nat × Sample)) (a : Nat) (v : Sample)
    (hs : l.Pairwise fun x y => x.1 < y.1) : lookupCell (storeCell l a v) a = v := by
  induction l with
  | nil => by_cases hv : v = 0 <;> simp [storeCell, lookupCell, hv]
  | cons x rest ih =>
    obtain ⟨k, w⟩ := x
    obtain ⟨hk, hrest⟩ := List.pairwise_cons.1 hs
    unfold storeCell
    split_ifs with h1 h2 h3 h4
    · subst h2
      exact lookupCell_of_lt _ _ fun y hy => by
        rcases List.mem_cons.1 hy with rfl | hy
        · exact h1
        · exact lt_trans h1 (hk y hy)
    · simp [lookupCell]
    · subst h3 h4
      exact lookupCell_of_lt _ _ hk
    · simp [lookupCell]
    · rw [lookupCell, if_neg (Ne.symm h3)]
      exact ih hrest

theorem lookupCell_storeCell_ne (l : List (Nat × Sample)) (a b : Nat) (v : Sample) (hab : a ≠ b) :
    lookupCell (storeCell l a v) b = lookupCell l b := by
  induction l with
  | nil => by_cases hv : v = 0 <;> simp [storeCell, lookupCell, hv, hab]
  | cons x rest ih =>
    obtain ⟨k, w⟩ := x
    unfold storeCell
    split_ifs with h1 h2 h3 h4
    · rfl
    · simp [lookupCell, hab]
    · subst h3
      simp [lookupCell, hab]
    · subst h3
      simp [lookupCell, hab]
    · simp only [lookupCell, ih]

theorem storeCell_lower (l : List (Nat × Sample)) (a : Nat) (v : Sample) (n : Nat) (ha : n < a)
    (h : ∀ x ∈ l, n < x.1) : ∀ x ∈ storeCell l a v, n < x.1 := by
  induction l with
  | nil => unfold storeCell; split_ifs <;> simp [ha]
  | cons y rest ih =>
    obtain ⟨k, w⟩ := y
    have hk : n < k := h (k, w) (by simp)
    have hr : ∀ x ∈ rest, n < x.1 := fun x hx => h x (by simp [hx])
    unfold storeCell
    split_ifs with h1 h2 h3 h4 <;> intro x hx
    · exact h x hx
    · rcases List.mem_cons.1 hx with rfl | hx
      · exact ha
      · exact h x hx
    · exact hr x hx
    · rcases List.mem_cons.1 hx with rfl | hx
      · exact ha
      · exact hr x hx
    · rcases List.mem_cons.1 hx with rfl | hx
      · exact hk
      · exact ih hr x hx

theorem storeCell_sorted (l : List (Nat × Sample)) (a : Nat) (v : Sample)
    (hs : l.Pairwise fun x y => x.1 < y.1) : (storeCell l a v).Pairwise fun x y => x.1 < y.1 := by
  induction l with
  | nil => unfold storeCell; split_ifs <;> simp
  | cons x rest ih =>
    obtain ⟨k, w⟩ := x
    obtain ⟨hk, hrest⟩ := List.pairwise_cons.1 hs
    unfold storeCell
    split_ifs with h1 h2 h3 h4
    · exact hs
    · refine List.pairwise_cons.2 ⟨fun y hy => ?_, hs⟩
      rcases List.mem_cons.1 hy with rfl | hy
      · exact h1
      · exact lt_trans h1 (hk y hy)
    · exact hrest
    · exact List.pairwise_cons.2 ⟨by rw [h3]; exact hk, hrest⟩
    · exact List.pairwise_cons.2 ⟨storeCell_lower _ _ _ _ (by omega) hk, ih hrest⟩

theorem storeCell_mem (l : List (Nat × Sample)) (a : Nat) (v : Sample) :
    ∀ x ∈ storeCell l a v, x ∈ l ∨ (x = (a, v) ∧ v ≠ 0) := by
  induction l with
  | nil => unfold storeCell; split_ifs with h <;> simp [h]
  | cons y rest ih =>
    obtain ⟨k, w⟩ := y
    unfold storeCell
    split_ifs with h1 h2 h3 h4 <;> intro x hx
    · exact .inl hx
    · rcases List.mem_cons.1 hx with rfl | hx
      · exact .inr ⟨rfl, h2⟩
      · exact .inl hx
    · exact .inl (List.mem_cons_of_mem _ hx)
    · rcases List.mem_cons.1 hx with rfl | hx
      · exact .inr ⟨rfl, h4⟩
      · exact .inl (List.mem_cons_of_mem _ hx)
    · rcases List.mem_cons.1 hx with rfl | hx
      · exact .inl (by simp)
      · rcases ih x hx with h | h
        · exact .inl (List.mem_cons_of_mem _ h)
        · exact .inr h

/-! ### Memories -/

@[simp] theorem Memory.read_empty (i : Addr) : Memory.empty.read i = 0 := rfl

theorem Memory.wf_empty : Memory.empty.wf := ⟨List.Pairwise.nil, by simp [Memory.empty]⟩

theorem Memory.wf_write {m : Memory} (h : m.wf) (i : Addr) (v : Sample) : (m.write i v).wf := by
  refine ⟨storeCell_sorted _ _ _ h.1, fun x hx => ?_⟩
  rcases storeCell_mem _ _ _ x hx with hx | ⟨rfl, hv⟩
  · exact h.2 x hx
  · exact ⟨i.isLt, hv⟩

theorem Memory.read_write_same {m : Memory} (h : m.wf) (i : Addr) (v : Sample) : (m.write i v).read i = v :=
  lookupCell_storeCell_same _ _ _ h.1

theorem Memory.read_write_ne (m : Memory) {i j : Addr} (hij : i ≠ j) (v : Sample) :
    (m.write i v).read j = m.read j :=
  lookupCell_storeCell_ne _ _ _ _ fun h => hij (Fin.ext h)

theorem Memory.read_write {m : Memory} (h : m.wf) (i j : Addr) (v : Sample) :
    (m.write i v).read j = if j = i then v else m.read j := by
  split_ifs with hji
  · rw [hji, Memory.read_write_same h]
  · rw [Memory.read_write_ne m (Ne.symm hji)]

theorem Memory.wf_ofEntries (f : Addr → Sample) : (Memory.ofEntries f).wf := by
  have key : ∀ (l : List Addr) (m : Memory), m.wf → (l.foldl (fun m i => m.write i (f i)) m).wf := by
    intro l
    induction l with
    | nil => exact fun _ h => h
    | cons i l ih => exact fun m h => ih _ (Memory.wf_write h i (f i))
  rw [Memory.ofEntries]
  exact key _ _ Memory.wf_empty

/-- Every content of the 42 entries is the content of a memory in canonical form. -/
theorem Memory.read_ofEntries (f : Addr → Sample) (i : Addr) : (Memory.ofEntries f).read i = f i := by
  have key : ∀ (l : List Addr) (m : Memory), m.wf →
      (l.foldl (fun m i => m.write i (f i)) m).read i = if i ∈ l then f i else m.read i := by
    intro l
    induction l with
    | nil => simp
    | cons j l ih =>
      intro m h
      rw [List.foldl_cons, ih _ (Memory.wf_write h j (f j)), Memory.read_write h]
      by_cases hl : i ∈ l
      · simp [hl]
      · by_cases hj : i = j
        · simp [hj]
        · simp [hl, hj]
  rw [Memory.ofEntries, key _ _ Memory.wf_empty, if_pos (List.mem_finRange i)]

/-! ### The delay line -/

theorem wf_doubleWrite {m : Memory} (h : m.wf) (c : Fin 21) (v : Sample) : (doubleWrite m c v).wf :=
  Memory.wf_write (Memory.wf_write h _ _) _ _

/-- A push writes entries `c` and `c + T` of a rail and no other (R123, R218). -/
theorem read_doubleWrite {m : Memory} (h : m.wf) (c : Fin 21) (v : Sample) (j : Addr) :
    (doubleWrite m c v).read j = if j.val % 21 = c.val then v else m.read j := by
  rw [doubleWrite, Memory.read_write (Memory.wf_write h _ _), Memory.read_write h]
  have h1 : j = mirrorAddr c ↔ j.val = c.val + 21 := by simp [mirrorAddr, Fin.ext_iff]
  have h2 : j = primaryAddr c ↔ j.val = c.val := by simp [primaryAddr, Fin.ext_iff]
  have hj := j.isLt
  have hc := c.isLt
  simp only [h1, h2]
  split_ifs <;> first | rfl | omega

/-- A push keeps a rail mirrored (R31). -/
theorem mirrored_doubleWrite {m : Memory} (h : m.wf) (hm : Mirrored m) (c : Fin 21) (v : Sample) :
    Mirrored (doubleWrite m c v) := by
  intro i
  have hv : (mirrorAddr i).val % 21 = (primaryAddr i).val % 21 := by simp [mirrorAddr, primaryAddr]
  rw [read_doubleWrite h, read_doubleWrite h, hm i, hv]

/-- In a mirrored rail an address reads as its primary address. -/
theorem Mirrored.read_mod {m : Memory} (hm : Mirrored m) (j : Addr) :
    m.read j = m.read ⟨j.val % 21, by omega⟩ := by
  have hj := j.isLt
  by_cases h : j.val < 21
  · congr 1
    exact Fin.ext (by simp [Nat.mod_eq_of_lt h])
  · have := hm ⟨j.val - 21, by omega⟩
    have h1 : mirrorAddr ⟨j.val - 21, by omega⟩ = j := Fin.ext (by simp [mirrorAddr]; omega)
    have h2 : primaryAddr ⟨j.val - 21, by omega⟩ = ⟨j.val % 21, by omega⟩ :=
      Fin.ext (by simp [primaryAddr]; omega)
    rw [h1, h2] at this
    exact this

/-- The read window at `k` is the history at `k` (R124, R126). -/
theorem Mirrored.read_window {m : Memory} (hm : Mirrored m) (cur k : Fin 21) :
    m.read (windowAddr cur k) = m.read (histAddr cur k) := hm.read_mod (windowAddr cur k)

theorem Memory.read_zero_mirrored : Mirrored Memory.empty := fun _ => rfl

end Sys2Proof.Machine
end

