-- ==== Sys2Proof/Laws/State.lean ====
section
/-! SUPPORT. The state's updates, field by field, so that no later proof unfolds a record update. -/

namespace Sys2Proof.Machine

/-! ### Flags -/

@[simp] theorem Status.setOvfA_ovfA (st : Status) : st.setOvfA.ovfA = true := rfl
@[simp] theorem Status.setOvfA_ovfB (st : Status) : st.setOvfA.ovfB = st.ovfB := rfl
@[simp] theorem Status.setOvfA_ill (st : Status) : st.setOvfA.ill = st.ill := rfl
@[simp] theorem Status.setOvfB_ovfA (st : Status) : st.setOvfB.ovfA = st.ovfA := rfl
@[simp] theorem Status.setOvfB_ovfB (st : Status) : st.setOvfB.ovfB = true := rfl
@[simp] theorem Status.setOvfB_ill (st : Status) : st.setOvfB.ill = st.ill := rfl
@[simp] theorem Status.setIll_ovfA (st : Status) : st.setIll.ovfA = st.ovfA := rfl
@[simp] theorem Status.setIll_ovfB (st : Status) : st.setIll.ovfB = st.ovfB := rfl
@[simp] theorem Status.setIll_ill (st : Status) : st.setIll.ill = true := rfl
@[simp] theorem Status.zero_ovfA : Status.zero.ovfA = false := rfl
@[simp] theorem Status.zero_ovfB : Status.zero.ovfB = false := rfl
@[simp] theorem Status.zero_ill : Status.zero.ill = false := rfl

theorem Status.clear_iff (st : Status) :
    st.clear = true ↔ st.ovfA = false ∧ st.ovfB = false ∧ st.ill = false := by
  simp [Status.clear, and_assoc]

/-! ### `Overflow` in Component A -/

@[simp] theorem State.overflowA_a (s : State) (e : List Result) : (s.overflowA e).a = StateA.free s.freeA := rfl
@[simp] theorem State.overflowA_b (s : State) (e : List Result) : (s.overflowA e).b = s.b := rfl
@[simp] theorem State.overflowA_st (s : State) (e : List Result) : (s.overflowA e).st = s.st.setOvfA := rfl
@[simp] theorem State.overflowA_input (s : State) (e : List Result) : (s.overflowA e).input = s.input := rfl
@[simp] theorem State.overflowA_output (s : State) (e : List Result) :
    (s.overflowA e).output = s.output ++ e ++ Config.freeResults .a s.freeA := rfl
@[simp] theorem State.overflowA_freeA (s : State) (e : List Result) : (s.overflowA e).freeA = s.freeA + 1 := rfl
@[simp] theorem State.overflowA_freeB (s : State) (e : List Result) : (s.overflowA e).freeB = s.freeB := rfl

/-! ### `Overflow` in Component B -/

@[simp] theorem State.overflowB_a (s : State) (e : List Result) : (s.overflowB e).a = s.a := rfl
@[simp] theorem State.overflowB_b (s : State) (e : List Result) : (s.overflowB e).b = StateB.free s.freeB := rfl
@[simp] theorem State.overflowB_st (s : State) (e : List Result) : (s.overflowB e).st = s.st.setOvfB := rfl
@[simp] theorem State.overflowB_input (s : State) (e : List Result) : (s.overflowB e).input = s.input := rfl
@[simp] theorem State.overflowB_output (s : State) (e : List Result) :
    (s.overflowB e).output = s.output ++ e ++ Config.freeResults .b s.freeB := rfl
@[simp] theorem State.overflowB_freeA (s : State) (e : List Result) : (s.overflowB e).freeA = s.freeA := rfl
@[simp] theorem State.overflowB_freeB (s : State) (e : List Result) : (s.overflowB e).freeB = s.freeB + 1 := rfl

/-! ### `Illegal` and the reset event -/

@[simp] theorem State.illegal_a (s : State) : s.illegal.a = s.a := rfl
@[simp] theorem State.illegal_b (s : State) : s.illegal.b = s.b := rfl
@[simp] theorem State.illegal_st (s : State) : s.illegal.st = s.st.setIll := rfl
@[simp] theorem State.illegal_input (s : State) : s.illegal.input = s.input := rfl
@[simp] theorem State.illegal_output (s : State) : s.illegal.output = s.output := rfl
@[simp] theorem State.illegal_freeA (s : State) : s.illegal.freeA = s.freeA := rfl
@[simp] theorem State.illegal_freeB (s : State) : s.illegal.freeB = s.freeB := rfl

@[simp] theorem State.resetEvent_a (s : State) : s.resetEvent.a = StateA.zero := rfl
@[simp] theorem State.resetEvent_b (s : State) : s.resetEvent.b = StateB.zero := rfl
@[simp] theorem State.resetEvent_st (s : State) : s.resetEvent.st = Status.zero := rfl
@[simp] theorem State.resetEvent_input (s : State) : s.resetEvent.input = s.input := rfl
@[simp] theorem State.resetEvent_output (s : State) : s.resetEvent.output = s.output := rfl
@[simp] theorem State.resetEvent_freeA (s : State) : s.resetEvent.freeA = s.freeA := rfl
@[simp] theorem State.resetEvent_freeB (s : State) : s.resetEvent.freeB = s.freeB := rfl

end Sys2Proof.Machine
end

