-- ==== Sys2Proof/Laws/Run.lean ====
section
/-! SUPPORT. The laws of runs, and what performing a component's operation can do to the state: one lemma
per shared operation, which later proofs cite instead of unfolding it. -/

namespace Sys2Proof.Machine

variable {α σ ρ : Type}

/-! ### Runs -/

@[simp] theorem Run.ofOption_none : Run.ofOption (none : Option (σ × ρ)) = Run.overflow := rfl
@[simp] theorem Run.ofOption_some (s : σ) (v : ρ) : Run.ofOption (some (s, v)) = ⟨[v], some s⟩ := rfl

theorem Run.andThen_none {r : Run σ ρ} (h : r.final = none) (k : σ → Run σ ρ) : r.andThen k = r := by
  simp [Run.andThen, h]

theorem Run.andThen_some {r : Run σ ρ} {s : σ} (h : r.final = some s) (k : σ → Run σ ρ) :
    r.andThen k = ⟨r.emitted ++ (k s).emitted, (k s).final⟩ := by
  simp [Run.andThen, h]

@[simp] theorem Run.andThen_mk_some (e : List ρ) (s : σ) (k : σ → Run σ ρ) :
    Run.andThen ⟨e, some s⟩ k = ⟨e ++ (k s).emitted, (k s).final⟩ := rfl

@[simp] theorem Run.andThen_mk_none (e : List ρ) (k : σ → Run σ ρ) : Run.andThen ⟨e, none⟩ k = ⟨e, none⟩ := rfl

/-- A sequence of two runs that ends well is two runs that end well. -/
theorem Run.andThen_final {r : Run σ ρ} {k : σ → Run σ ρ} {t : σ} :
    (r.andThen k).final = some t ↔ ∃ s, r.final = some s ∧ (k s).final = some t := by
  cases h : r.final <;> simp [Run.andThen, h]

theorem Run.andThen_assoc (r : Run σ ρ) (k l : σ → Run σ ρ) :
    (r.andThen k).andThen l = r.andThen fun s => (k s).andThen l := by
  cases h : r.final with
  | none => simp [Run.andThen, h]
  | some s => cases h' : (k s).final <;> simp [Run.andThen, h, h']

@[simp] theorem Run.forEach_nil (op : α → σ → Run σ ρ) (s : σ) : Run.forEach op [] s = ⟨[], some s⟩ := rfl

theorem Run.forEach_cons (op : α → σ → Run σ ρ) (x : α) (xs : List α) (s : σ) :
    Run.forEach op (x :: xs) s = (op x s).andThen (Run.forEach op xs) := rfl

/-- A loop over two lists is a loop over the first and then one over the second (R67, R177). -/
theorem Run.forEach_append (op : α → σ → Run σ ρ) (xs ys : List α) (s : σ) :
    Run.forEach op (xs ++ ys) s = (Run.forEach op xs s).andThen (Run.forEach op ys) := by
  induction xs generalizing s with
  | nil => simp
  | cons x xs ih =>
    rw [List.cons_append, Run.forEach_cons, Run.forEach_cons, Run.andThen_assoc]
    exact congrArg _ (funext ih)

@[simp] theorem Run.results_final (f : ρ → List Result) (r : Run σ ρ) : (r.results f).final = r.final := rfl
@[simp] theorem Run.results_emitted (f : ρ → List Result) (r : Run σ ρ) :
    (r.results f).emitted = r.emitted.flatMap f := rfl

theorem Run.results_andThen (f : ρ → List Result) (r : Run σ ρ) (k : σ → Run σ ρ) :
    (r.andThen k).results f = (r.results f).andThen fun s => (k s).results f := by
  cases h : r.final <;> simp [Run.andThen, Run.results, h]

/-! ### Performing a component's operation -/

/-- An operation of Component A that ends well. -/
theorem State.runA_some {s : State} {op : StateA → Run StateA Result} {a : StateA}
    (hf : s.st.ovfA = false) (h : (op s.a).final = some a) :
    s.runA op = { s with a := a, output := s.output ++ (op s.a).emitted } := by
  simp [State.runA, hf, h]

/-- An operation of Component A that raises `Overflow`. -/
theorem State.runA_none {s : State} {op : StateA → Run StateA Result}
    (hf : s.st.ovfA = false) (h : (op s.a).final = none) : s.runA op = s.overflowA (op s.a).emitted := by
  simp [State.runA, hf, h]

/-- An operation of Component A once its flag is set. -/
theorem State.runA_flagged {s : State} (op : StateA → Run StateA Result) (hf : s.st.ovfA = true) :
    s.runA op = s.overflowA [] := by
  simp [State.runA, hf]

/-- Everything an operation of Component A can do. -/
theorem State.runA_cases (s : State) (op : StateA → Run StateA Result) :
    (∃ a, s.st.ovfA = false ∧ (op s.a).final = some a ∧
      s.runA op = { s with a := a, output := s.output ++ (op s.a).emitted }) ∨
    ∃ e, s.runA op = s.overflowA e := by
  cases hf : s.st.ovfA with
  | true => exact .inr ⟨[], State.runA_flagged op hf⟩
  | false =>
    cases h : (op s.a).final with
    | none => exact .inr ⟨_, State.runA_none hf h⟩
    | some a => exact .inl ⟨a, rfl, rfl, State.runA_some hf h⟩

/-- An operation of Component B that ends well. -/
theorem State.runB_some {s : State} {op : StateB → Run StateB Result} {b : StateB}
    (hf : s.st.ovfB = false) (h : (op s.b).final = some b) :
    s.runB op = { s with b := b, output := s.output ++ (op s.b).emitted } := by
  simp [State.runB, hf, h]

/-- An operation of Component B that raises `Overflow`. -/
theorem State.runB_none {s : State} {op : StateB → Run StateB Result}
    (hf : s.st.ovfB = false) (h : (op s.b).final = none) : s.runB op = s.overflowB (op s.b).emitted := by
  simp [State.runB, hf, h]

/-- An operation of Component B once its flag is set. -/
theorem State.runB_flagged {s : State} (op : StateB → Run StateB Result) (hf : s.st.ovfB = true) :
    s.runB op = s.overflowB [] := by
  simp [State.runB, hf]

/-- Everything an operation of Component B can do. -/
theorem State.runB_cases (s : State) (op : StateB → Run StateB Result) :
    (∃ b, s.st.ovfB = false ∧ (op s.b).final = some b ∧
      s.runB op = { s with b := b, output := s.output ++ (op s.b).emitted }) ∨
    ∃ e, s.runB op = s.overflowB e := by
  cases hf : s.st.ovfB with
  | true => exact .inr ⟨[], State.runB_flagged op hf⟩
  | false =>
    cases h : (op s.b).final with
    | none => exact .inr ⟨_, State.runB_none hf h⟩
    | some b => exact .inl ⟨b, rfl, rfl, State.runB_some hf h⟩

end Sys2Proof.Machine
end

