-- ==== Sys2Proof/Laws/Units.lean ====
section
/-! SUPPORT. One lemma per unit operation that says when it ends well and with what, and that each keeps
its registers in range. -/

namespace Sys2Proof.Machine

/-! ### Component A -/

theorem quantiseA_eq_some {c : Cfg} {f : Sample} {u : Int} :
    quantiseA c f = some u ↔
      InWidth c.wIir (c.quantA (c.num.rmul f c.aScale)) ∧ u = c.quantA (c.num.rmul f c.aScale) :=
  chk_eq_some

theorem iirFeedback_eq_some {c : Cfg} {a : StateA} {t : Int × Int} :
    iirFeedback c a = some t ↔
      InWidth c.wIir (c.b1n * a.n1) ∧ InWidth c.wIir (c.b1 * a.n2) ∧
        t = (asr (c.b1n * a.n1) c.shift, asr (c.b1 * a.n2) c.shift) := by
  simp only [iirFeedback, Option.bind_eq_bind, Option.bind_eq_some_iff, chk_eq_some, Option.pure_def,
    Option.some.injEq]
  constructor
  · rintro ⟨_, ⟨h1, rfl⟩, _, ⟨h2, rfl⟩, rfl⟩
    exact ⟨h1, h2, rfl⟩
  · rintro ⟨h1, h2, rfl⟩
    exact ⟨_, ⟨h1, rfl⟩, _, ⟨h2, rfl⟩, rfl⟩

theorem iirEmit_eq_some {c : Cfg} {n : Int} {a : StateA} {r : StateA × Nat} :
    iirEmit c n a = some r ↔
      (0 ≤ n + c.dcOffset ∧ n + c.dcOffset ≤ 2 ^ c.wDac - 1) ∧
        r = ({ a with n2 := a.n1, n1 := n }, (n + c.dcOffset).toNat) := by
  simp only [iirEmit, Option.bind_eq_bind, Option.bind_eq_some_iff, chkCode_eq_some, Option.pure_def,
    Option.some.injEq]
  constructor
  · rintro ⟨_, ⟨h1, rfl⟩, rfl⟩
    exact ⟨h1, rfl⟩
  · rintro ⟨h1, rfl⟩
    exact ⟨_, ⟨h1, rfl⟩, rfl⟩

theorem iirExcited_eq_some {c : Cfg} {u : Int} {a : StateA} {r : StateA × Nat} :
    iirExcited c u a = some r ↔
      IirFits c u a ∧ r = (a.shift (iirValue c u a), (iirValue c u a + c.dcOffset).toNat) := by
  simp only [iirExcited, Option.bind_eq_bind, Option.bind_eq_some_iff, iirFeedback_eq_some, chk_eq_some,
    iirEmit_eq_some, iirValue, StateA.shift, IirFits]
  constructor
  · rintro ⟨_, ⟨h1, h2, rfl⟩, _, ⟨h3, rfl⟩, _, ⟨h4, rfl⟩, h5, rfl⟩
    exact ⟨⟨h1, h2, h3, h4, h5⟩, rfl⟩
  · rintro ⟨⟨h1, h2, h3, h4, h5⟩, rfl⟩
    exact ⟨_, ⟨h1, h2, rfl⟩, _, ⟨h3, rfl⟩, _, ⟨h4, rfl⟩, h5, rfl⟩

/-- A free-running pass needs no check of a partial sum: the shifted product is in range (R108). -/
theorem iirFree_eq_some {c : Cfg} {a : StateA} {r : StateA × Nat} :
    iirFree c a = some r ↔
      IirFits c 0 a ∧ r = (a.shift (iirValue c 0 a), (iirValue c 0 a + c.dcOffset).toNat) := by
  simp only [iirFree, Option.bind_eq_bind, Option.bind_eq_some_iff, iirFeedback_eq_some, chk_eq_some,
    iirEmit_eq_some, iirValue, StateA.shift, IirFits, zero_add]
  constructor
  · rintro ⟨_, ⟨h1, h2, rfl⟩, _, ⟨h4, rfl⟩, h5, rfl⟩
    exact ⟨⟨h1, h2, InWidth.asr h1 _, h4, h5⟩, rfl⟩
  · rintro ⟨⟨h1, h2, _, h4, h5⟩, rfl⟩
    exact ⟨_, ⟨h1, h2, rfl⟩, _, ⟨h4, rfl⟩, h5, rfl⟩

/-! ### Component B -/

theorem quantiseB_eq_some {c : Cfg} {y : Rails Sample} {q : Rails Int} :
    quantiseB c y = some q ↔
      InWidth c.wCic (c.quantB (c.num.rmul y.re c.fixScale)) ∧
      InWidth c.wCic (c.quantB (c.num.rmul y.im c.fixScale)) ∧
      q = ⟨c.quantB (c.num.rmul y.re c.fixScale), c.quantB (c.num.rmul y.im c.fixScale)⟩ := by
  simp only [quantiseB, Option.bind_eq_bind, Option.bind_eq_some_iff, chk_eq_some, Option.pure_def,
    Option.some.injEq]
  constructor
  · rintro ⟨_, ⟨h1, rfl⟩, _, ⟨h2, rfl⟩, rfl⟩
    exact ⟨h1, h2, rfl⟩
  · rintro ⟨h1, h2, rfl⟩
    exact ⟨_, ⟨h1, rfl⟩, _, ⟨h2, rfl⟩, rfl⟩

theorem combStage_eq_some {c : Cfg} {v reg d : Rails Int} :
    combStage c v reg = some d ↔
      InWidth c.wCic (v.re - reg.re) ∧ InWidth c.wCic (v.im - reg.im) ∧
        d = ⟨v.re - reg.re, v.im - reg.im⟩ := by
  simp only [combStage, Option.bind_eq_bind, Option.bind_eq_some_iff, chk_eq_some, Option.pure_def,
    Option.some.injEq]
  constructor
  · rintro ⟨_, ⟨h1, rfl⟩, _, ⟨h2, rfl⟩, rfl⟩
    exact ⟨h1, h2, rfl⟩
  · rintro ⟨h1, h2, rfl⟩
    exact ⟨_, ⟨h1, rfl⟩, _, ⟨h2, rfl⟩, rfl⟩

theorem integratorStage_eq_some {c : Cfg} {v reg d : Rails Int} :
    integratorStage c v reg = some d ↔
      InWidth c.wCic (reg.re + v.re) ∧ InWidth c.wCic (reg.im + v.im) ∧
        d = ⟨reg.re + v.re, reg.im + v.im⟩ := by
  simp only [integratorStage, Option.bind_eq_bind, Option.bind_eq_some_iff, chk_eq_some, Option.pure_def,
    Option.some.injEq]
  constructor
  · rintro ⟨_, ⟨h1, rfl⟩, _, ⟨h2, rfl⟩, rfl⟩
    exact ⟨h1, h2, rfl⟩
  · rintro ⟨h1, h2, rfl⟩
    exact ⟨_, ⟨h1, rfl⟩, _, ⟨h2, rfl⟩, rfl⟩

theorem combPass_eq_some {c : Cfg} {q : Rails Int} {b : StateB} {r : StateB × Rails Int} :
    combPass c q b = some r ↔
      CombFits c.wCic q.re b.cb.re ∧ CombFits c.wCic q.im b.cb.im ∧
      r = ({ b with cb := ⟨combChain q.re b.cb.re, combChain q.im b.cb.im⟩ },
        ⟨combOut q.re b.cb.re, combOut q.im b.cb.im⟩) := by
  simp only [combPass, Option.bind_eq_bind, Option.bind_eq_some_iff, combStage_eq_some, Option.pure_def,
    Option.some.injEq, CombFits, combChain, combOut]
  constructor
  · rintro ⟨_, ⟨h1, k1, rfl⟩, _, ⟨h2, k2, rfl⟩, _, ⟨h3, k3, rfl⟩, _, ⟨h4, k4, rfl⟩, rfl⟩
    exact ⟨⟨h1, h2, h3, h4⟩, ⟨k1, k2, k3, k4⟩, rfl⟩
  · rintro ⟨⟨h1, h2, h3, h4⟩, ⟨k1, k2, k3, k4⟩, rfl⟩
    exact ⟨_, ⟨h1, k1, rfl⟩, _, ⟨h2, k2, rfl⟩, _, ⟨h3, k3, rfl⟩, _, ⟨h4, k4, rfl⟩, rfl⟩

theorem integratorPass_eq_some {c : Cfg} {u : Rails Int} {b : StateB} {r : StateB × Rails Int} :
    integratorPass c u b = some r ↔
      IntegratorFits c.wCic u.re b.it.re ∧ IntegratorFits c.wCic u.im b.it.im ∧
      r = ({ b with it := ⟨integratorChain u.re b.it.re, integratorChain u.im b.it.im⟩ },
        ⟨(integratorChain u.re b.it.re).r4, (integratorChain u.im b.it.im).r4⟩) := by
  simp only [integratorPass, Option.bind_eq_bind, Option.bind_eq_some_iff, integratorStage_eq_some,
    Option.pure_def, Option.some.injEq, IntegratorFits, integratorChain]
  constructor
  · rintro ⟨_, ⟨h1, k1, rfl⟩, _, ⟨h2, k2, rfl⟩, _, ⟨h3, k3, rfl⟩, _, ⟨h4, k4, rfl⟩, rfl⟩
    exact ⟨⟨h1, h2, h3, h4⟩, ⟨k1, k2, k3, k4⟩, rfl⟩
  · rintro ⟨⟨h1, h2, h3, h4⟩, ⟨k1, k2, k3, k4⟩, rfl⟩
    exact ⟨_, ⟨h1, k1, rfl⟩, _, ⟨h2, k2, rfl⟩, _, ⟨h3, k3, rfl⟩, _, ⟨h4, k4, rfl⟩, rfl⟩

theorem mixSample_eq_some {c : Cfg} {a : Rails Int} {b : StateB} {r : StateB × Sample} :
    mixSample c a b = some r ↔
      InWidth c.wCic (mixValue b.ph a) ∧
      r = ({ b with ph := nextPhase b.ph }, c.num.rdiv (c.num.rofint (mixValue b.ph a)) c.outDiv) := by
  simp only [mixSample, Option.bind_eq_bind, Option.bind_eq_some_iff, chk_eq_some, Option.pure_def,
    Option.some.injEq, mixValue]
  constructor
  · rintro ⟨_, ⟨h1, rfl⟩, rfl⟩
    exact ⟨h1, rfl⟩
  · rintro ⟨h1, rfl⟩
    exact ⟨_, ⟨h1, rfl⟩, rfl⟩

/-! ### Pipelines that end well -/

theorem Run.ofOption_final {σ ρ : Type} {o : Option (σ × ρ)} {s : σ} :
    (Run.ofOption o).final = some s ↔ ∃ v, o = some (s, v) := by
  match o with
  | none => simp [Run.overflow]
  | some (t, v) => simp

theorem passAndMix_final {c : Cfg} {pass : StateB → Option (StateB × Rails Int)} {b b' : StateB} :
    (passAndMix c pass b).final = some b' ↔
      ∃ b1 a o, pass b = some (b1, a) ∧ mixSample c a b1 = some (b', o) := by
  unfold passAndMix
  cases pass b with
  | none => simp [Run.overflow]
  | some r => obtain ⟨b1, a⟩ := r; simp [Run.ofOption_final]

theorem stuffedSample_final {c : Cfg} {z : Rails Sample} {b b' : StateB} :
    (stuffedSample c z b).final = some b' ↔
      ∃ q b1 d b2, quantiseB c (firPush c z b).2 = some q ∧
        combPass c q (firPush c z b).1 = some (b1, d) ∧
        (passAndMix c (integratorPass c d) b1).final = some b2 ∧
        (Run.times (passAndMix c (integratorZero c)) 4 b2).final = some b' := by
  unfold stuffedSample
  cases hq : quantiseB c (firPush c z b).2 with
  | none => simp [Run.overflow, hq]
  | some q =>
    cases hd : combPass c q (firPush c z b).1 with
    | none => simp [Run.overflow, hd, hq]
    | some r =>
      obtain ⟨b1, d⟩ := r
      simp [hd, hq, Run.andThen_final]

end Sys2Proof.Machine
end

