-- ==== Sys2Proof/Laws/Cic.lean ====
section
/-! SUPPORT. The CIC in the pipeline's pattern (R149) is linear in the last inputs: the comb and integrator
registers after any number of samples, and the outputs of the next one, as linear forms of the last four or
five quantised inputs, and the bound of R151 under which no check fails. -/

namespace Sys2Proof.Machine

theorem combPass_eq_ite (c : Cfg) (q : Rails Int) (b : StateB) :
    combPass c q b =
      if CombFits c.wCic q.re b.cb.re ∧ CombFits c.wCic q.im b.cb.im then
        some ({ b with cb := ⟨combChain q.re b.cb.re, combChain q.im b.cb.im⟩ },
          ⟨combOut q.re b.cb.re, combOut q.im b.cb.im⟩)
      else none := by
  split_ifs with h
  · exact combPass_eq_some.2 ⟨h.1, h.2, rfl⟩
  · exact Option.eq_none_iff_forall_ne_some.2 fun r hr =>
      h ⟨(combPass_eq_some.1 hr).1, (combPass_eq_some.1 hr).2.1⟩

theorem integratorPass_eq_ite (c : Cfg) (u : Rails Int) (b : StateB) :
    integratorPass c u b =
      if IntegratorFits c.wCic u.re b.it.re ∧ IntegratorFits c.wCic u.im b.it.im then
        some ({ b with it := ⟨integratorChain u.re b.it.re, integratorChain u.im b.it.im⟩ },
          ⟨(integratorChain u.re b.it.re).r4, (integratorChain u.im b.it.im).r4⟩)
      else none := by
  split_ifs with h
  · exact integratorPass_eq_some.2 ⟨h.1, h.2, rfl⟩
  · exact Option.eq_none_iff_forall_ne_some.2 fun r hr =>
      h ⟨(integratorPass_eq_some.1 hr).1, (integratorPass_eq_some.1 hr).2.1⟩

/-- The comb registers of a rail whose last four inputs are `a` (newest) to `d`. -/
def combOfInputs (a b c d : Int) : Chain := ⟨a, a - b, a - 2 * b + c, a - 3 * b + 3 * c - d⟩

/-- The integrator registers of a rail after the five passes of a sample, `a` (newest) to `d` the last four
inputs. -/
def integratorOfInputs (a b c d : Int) : Chain :=
  ⟨a - 3 * b + 3 * c - d, 5 * a - 10 * b + 5 * c, 15 * a - 5 * b - 10 * c, 35 * a + 80 * b + 10 * c⟩

/-- The five outputs of a rail on the sample `a`. -/
def outputsOfInputs (a b c d : Int) : List Int :=
  [a + 52 * b + 68 * c + 4 * d, 4 * a + 68 * b + 52 * c + d, 10 * a + 80 * b + 35 * c,
    20 * a + 85 * b + 20 * c, 35 * a + 80 * b + 10 * c]

/-- The five outputs of both rails. -/
def outputRails (a b c d : Rails Int) : List (Rails Int) :=
  List.zipWith (fun x y => ⟨x, y⟩) (outputsOfInputs a.re b.re c.re d.re) (outputsOfInputs a.im b.im c.im d.im)

/-- The CIC registers of Component B are those of the last four inputs `q1` (newest) to `q4`. -/
def CicOfInputs (b : StateB) (q1 q2 q3 q4 : Rails Int) : Prop :=
  b.cb = ⟨combOfInputs q1.re q2.re q3.re q4.re, combOfInputs q1.im q2.im q3.im q4.im⟩ ∧
  b.it = ⟨integratorOfInputs q1.re q2.re q3.re q4.re, integratorOfInputs q1.im q2.im q3.im q4.im⟩

/-- Both rails of a value are at most `Q` in magnitude. -/
abbrev Bounded (q : Rails Int) (Q : Int) : Prop := |q.re| ≤ Q ∧ |q.im| ≤ Q

theorem combFits_of_bound {w : Nat} {Q q0 q1 q2 q3 q4 : Int} (hQ : 125 * Q ≤ 2 ^ (w - 1) - 1)
    (h0 : |q0| ≤ Q) (h1 : |q1| ≤ Q) (h2 : |q2| ≤ Q) (h3 : |q3| ≤ Q) (h4 : |q4| ≤ Q) :
    CombFits w q0 (combOfInputs q1 q2 q3 q4) := by
  rw [abs_le] at *
  simp only [CombFits, InWidth, combOut, combOfInputs]
  generalize (2 : Int) ^ (w - 1) = P at *
  refine ⟨⟨?_, ?_⟩, ⟨?_, ?_⟩, ⟨?_, ?_⟩, ⟨?_, ?_⟩⟩ <;> linarith

/-- The integrator registers of a rail after `j` passes of a sample `q0`. -/
def integratorAfter (q0 q1 q2 q3 q4 : Int) : Nat → Chain
  | 0 => integratorOfInputs q1 q2 q3 q4
  | n + 1 => integratorChain (if n = 0 then combOut q0 (combOfInputs q1 q2 q3 q4) else 0)
      (integratorAfter q0 q1 q2 q3 q4 n)

theorem integratorAfter_five (q0 q1 q2 q3 q4 : Int) :
    integratorAfter q0 q1 q2 q3 q4 5 = integratorOfInputs q0 q1 q2 q3 := by
  simp only [integratorAfter, integratorChain, integratorOfInputs, combOut, combOfInputs, Chain.mk.injEq]
  refine ⟨?_, ?_, ?_, ?_⟩ <;> norm_num <;> ring

theorem integratorFits_of_bound {w : Nat} {Q q0 q1 q2 q3 q4 : Int} (hQ : 125 * Q ≤ 2 ^ (w - 1) - 1)
    (h0 : |q0| ≤ Q) (h1 : |q1| ≤ Q) (h2 : |q2| ≤ Q) (h3 : |q3| ≤ Q) (h4 : |q4| ≤ Q) (j : Nat) (hj : j < 5) :
    IntegratorFits w (if j = 0 then combOut q0 (combOfInputs q1 q2 q3 q4) else 0)
      (integratorAfter q0 q1 q2 q3 q4 j) := by
  rw [abs_le] at *
  have := h4.1
  simp only [IntegratorFits, InWidth]
  generalize (2 : Int) ^ (w - 1) = P at *
  have : j = 0 ∨ j = 1 ∨ j = 2 ∨ j = 3 ∨ j = 4 := by omega
  rcases this with rfl | rfl | rfl | rfl | rfl <;>
    simp only [integratorAfter, integratorChain, integratorOfInputs, combOut, combOfInputs] <;> norm_num <;>
    refine ⟨⟨?_, ?_⟩, ⟨?_, ?_⟩, ⟨?_, ?_⟩, ⟨?_, ?_⟩⟩ <;> linarith

theorem outputsOfInputs_eq (q0 q1 q2 q3 q4 : Int) :
    (List.range 5).map (fun j => (integratorAfter q0 q1 q2 q3 q4 (j + 1)).r4) =
      outputsOfInputs q0 q1 q2 q3 := by
  simp only [List.range, List.range.loop, List.map, outputsOfInputs, integratorAfter, integratorChain,
    integratorOfInputs, combOut, combOfInputs]
  norm_num
  refine ⟨?_, ?_, ?_, ?_, ?_⟩ <;> ring

/-- One sample through the CIC, in linear form: under the bound of R151 no check fails. -/
theorem cicSample_of_inputs {c : Cfg} {Q : Int} {b : StateB} {q0 q1 q2 q3 q4 : Rails Int}
    (hs : CicOfInputs b q1 q2 q3 q4) (hQ : 125 * Q ≤ 2 ^ (c.wCic - 1) - 1) (h0 : Bounded q0 Q)
    (h1 : Bounded q1 Q) (h2 : Bounded q2 Q) (h3 : Bounded q3 Q) (h4 : Bounded q4 Q) :
    ∃ b', cicSample c q0 b = some (b', outputRails q0 q1 q2 q3) ∧ CicOfInputs b' q0 q1 q2 q3 := by
  obtain ⟨dl, cur, cb, it, ph⟩ := b
  obtain ⟨rfl, rfl⟩ := hs
  have hf : ∀ j, j < 5 → ∀ cb : Rails Chain,
      integratorPass c
        (if j = 0 then ⟨combOut q0.re (combOfInputs q1.re q2.re q3.re q4.re),
          combOut q0.im (combOfInputs q1.im q2.im q3.im q4.im)⟩ else ⟨0, 0⟩)
        ⟨dl, cur, cb, ⟨integratorAfter q0.re q1.re q2.re q3.re q4.re j,
          integratorAfter q0.im q1.im q2.im q3.im q4.im j⟩, ph⟩ =
      some (⟨dl, cur, cb, ⟨integratorAfter q0.re q1.re q2.re q3.re q4.re (j + 1),
          integratorAfter q0.im q1.im q2.im q3.im q4.im (j + 1)⟩, ph⟩,
        ⟨(integratorAfter q0.re q1.re q2.re q3.re q4.re (j + 1)).r4,
          (integratorAfter q0.im q1.im q2.im q3.im q4.im (j + 1)).r4⟩) := by
    intro j hj cb
    have f1 := integratorFits_of_bound hQ h0.1 h1.1 h2.1 h3.1 h4.1 j hj
    have f2 := integratorFits_of_bound hQ h0.2 h1.2 h2.2 h3.2 h4.2 j hj
    rw [integratorPass_eq_ite, if_pos]
    · split_ifs <;> simp [integratorAfter, *]
    · split_ifs at * <;> exact ⟨f1, f2⟩
  simp only [cicSample, combPass_eq_ite]
  rw [if_pos ⟨combFits_of_bound hQ h0.1 h1.1 h2.1 h3.1 h4.1, combFits_of_bound hQ h0.2 h1.2 h2.2 h3.2 h4.2⟩]
  simp only [Option.bind_eq_bind, Option.bind_some]
  have g0 := hf 0 (by omega)
  have g1 := hf 1 (by omega)
  have g2 := hf 2 (by omega)
  have g3 := hf 3 (by omega)
  have g4 := hf 4 (by omega)
  simp only [if_true, one_ne_zero, if_false, OfNat.ofNat_ne_zero] at g0 g1 g2 g3 g4
  rw [show integratorAfter q0.re q1.re q2.re q3.re q4.re 0 = integratorOfInputs q1.re q2.re q3.re q4.re from rfl,
    show integratorAfter q0.im q1.im q2.im q3.im q4.im 0 = integratorOfInputs q1.im q2.im q3.im q4.im from rfl]
    at g0
  rw [g0]
  simp only [Option.bind_some, zeroPasses, integratorZero, Nat.zero_add, Nat.reduceAdd, Option.bind_eq_bind,
    g1, g2, g3, g4, Option.pure_def]
  have ho : outputRails q0 q1 q2 q3 = (List.range 5).map fun j =>
      ⟨(integratorAfter q0.re q1.re q2.re q3.re q4.re (j + 1)).r4,
        (integratorAfter q0.im q1.im q2.im q3.im q4.im (j + 1)).r4⟩ := by
    rw [outputRails, ← outputsOfInputs_eq q0.re q1.re q2.re q3.re q4.re,
      ← outputsOfInputs_eq q0.im q1.im q2.im q3.im q4.im]
    rfl
  rw [ho]
  refine ⟨_, rfl, ?_, ?_⟩
  · simp only [combChain, combOfInputs, Rails.mk.injEq, Chain.mk.injEq]
    refine ⟨⟨?_, ?_, ?_, ?_⟩, ⟨?_, ?_, ?_, ?_⟩⟩ <;> first | rfl | trivial | linarith
  · simp only [integratorAfter_five]

theorem cicOfInputs_zero {b : StateB} : CicOfInputs b ⟨0, 0⟩ ⟨0, 0⟩ ⟨0, 0⟩ ⟨0, 0⟩ ↔ b.CicZero := by
  simp only [CicOfInputs, StateB.CicZero, combOfInputs, integratorOfInputs, Chain.zero]
  norm_num

theorem cicRun_cons {c : Cfg} {q : Rails Int} {qs : List (Rails Int)} {b b1 : StateB} {o : List (Rails Int)}
    (h : cicSample c q b = some (b1, o)) :
    cicRun c (q :: qs) b = (cicRun c qs b1).map fun r => (r.1, o ++ r.2) := by
  simp only [cicRun, h, Option.bind_eq_bind, Option.bind_some]
  cases cicRun c qs b1 <;> rfl

end Sys2Proof.Machine
end

