-- ==== Sys2Proof/Laws/Decode.lean ====
section
/-! SUPPORT. The laws of the command word and of the decoder's entry point for table words. -/

namespace Sys2Proof

theorem Row.ofOpcode_opcode (r : Row) : Row.ofOpcode r.opcode = some r := by cases r <;> rfl

theorem Row.opcode_of_ofOpcode {op : Opcode} {r : Row} (h : Row.ofOpcode op = some r) : r.opcode = op := by
  unfold Row.ofOpcode at h
  split at h <;> first
    | (cases h; exact BitVec.eq_of_toNat_eq (by simp_all [Row.opcode]))
    | cases h

/-- The low field of a word is its opcode (R71). -/
theorem Header.word_op (h : Header) : h.word.extractLsb' 0 8 = h.row.opcode := by
  unfold Header.word
  ext i hi
  simp only [BitVec.getElem_extractLsb', BitVec.getLsbD_append, Nat.zero_add]
  rw [if_pos hi, BitVec.getLsbD_eq_getElem]

/-- The high field of a word is its count (R71). -/
theorem Header.word_cnt (h : Header) : h.word.extractLsb' 8 24 = h.cnt := by
  unfold Header.word
  ext i hi
  simp only [BitVec.getElem_extractLsb', BitVec.getLsbD_append]
  rw [if_neg (by omega), Nat.add_sub_cancel_left, BitVec.getLsbD_eq_getElem]

/-- A word is the word of its two fields (R71). -/
theorem word_of_fields (cw : CommandWord) (row : Row) (h : row.opcode = cw.extractLsb' 0 8) :
    Header.word ⟨row, cw.extractLsb' 8 24⟩ = cw := by
  unfold Header.word
  simp only [h]
  ext i hi
  rw [BitVec.getElem_append]
  split_ifs with h8 <;> simp only [BitVec.getElem_extractLsb'] <;>
    rw [← BitVec.getLsbD_eq_getElem] <;> congr 1 <;> omega

/-- Everything a successful decoding of a word says. -/
theorem decodeWord_ok {cw : CommandWord} {h : Header} (hd : decodeWord cw = .ok h) :
    h.word = cw ∧ (h.row.format = .n → h.cnt = 0) := by
  simp only [decodeWord] at hd
  split at hd
  · cases hd
  · rename_i row hrow
    have hop := Row.opcode_of_ofOpcode hrow
    split at hd
    · cases hd
      rename_i hf
      exact ⟨word_of_fields cw row hop, fun hn => by simp [hf] at hn⟩
    · split_ifs at hd with hc
      cases hd
      exact ⟨word_of_fields cw row hop, fun _ => hc⟩

/-- The word of a header decodes to it. -/
theorem decodeWord_word (h : Header) (hf : h.row.format = .n → h.cnt = 0) : decodeWord h.word = .ok h := by
  simp only [decodeWord, Header.word_op, Header.word_cnt, Row.ofOpcode_opcode]
  cases hfm : h.row.format with
  | c => rfl
  | n => exact if_pos (hf hfm)

theorem Instr.count_of_formatN (i : Instr) (h : i.header.row.format = .n) : i.header.cnt = 0 := by
  cases i <;> first | rfl | cases h

/-- The word of a command decodes to its header. -/
theorem decodeWord_header (i : Instr) : decodeWord i.header.word = .ok i.header :=
  decodeWord_word _ i.count_of_formatN

/-- A well-formed command has the operand beats its row asks for (R73, R79). -/
theorem operandStream_length (i : Instr) (h : i.WellFormed) :
    i.operandStream.length = i.header.operandBeats := by
  cases i <;>
    simp_all [Instr.WellFormed, Instr.wellFormed, Instr.operandStream, Instr.header, Instr.row, Instr.count,
      Header.operandBeats, beatsOfRails, Nat.mul_comm]

/-- A command depends on no operand beat after its own. -/
theorem assemble_congr (h : Header) {f g : Nat → Beat} (hfg : ∀ k, k < h.operandBeats → f k = g k) :
    assemble h f = assemble h g := by
  obtain ⟨row, cnt⟩ := h
  have key : ∀ n, (∀ k, k < n → f k = g k) → ∀ k ∈ List.range n, f k = g k :=
    fun n hn k hk => hn k (List.mem_range.1 hk)
  cases row with
  | aBlock => exact congrArg Instr.aBlock (List.map_congr_left fun k hk => by rw [key _ hfg k hk])
  | bBlock =>
    refine congrArg (Instr.bBlock cnt) (List.map_congr_left fun k hk => ?_)
    have hb : k < chunkLength Config.cfg * cnt.toNat := List.mem_range.1 hk
    simp only [Header.operandBeats] at hfg
    rw [railsAt, railsAt, hfg (2 * k) (by omega), hfg (2 * k + 1) (by omega)]
  | aIirf | cicIntz => rfl
  | aPre | aQnt | aIirx | aPush => simp only [assemble, hfg 0 Nat.one_pos]
  | zs2 | firPush | cicQnt | cicComb | cicInt | mix | bPush =>
    simp only [assemble, railsAt, Nat.zero_add, hfg 0 Nat.two_pos, hfg 1 Nat.one_lt_two]

/-- The command read from a word with zero operand beats is the command the decoder reads from them. -/
theorem decode_tableBeats {nbits w : Nat} {i : Instr} (h : decodeTableWord nbits w = some i) :
    decode (tableBeats nbits w) = .command i [] := by
  unfold decodeTableWord at h
  unfold tableBeats
  cases hd : decodeWord (BitVec.ofNat 32 (w % 2 ^ nbits)) with
  | error e => simp [hd] at h
  | ok hdr =>
    simp only [hd, Option.some.injEq] at h
    have hw : BitVec.ofNat 32 (BitVec.ofNat 32 (w % 2 ^ nbits)).toNat = BitVec.ofNat 32 (w % 2 ^ nbits) :=
      BitVec.ofNat_toNat _ _ |>.trans (BitVec.setWidth_eq _)
    have hz : (fun k => (List.replicate hdr.operandBeats 0).getD k 0) = fun _ => 0 := by
      funext k
      rw [List.getD_eq_getElem?_getD, List.getElem?_replicate]
      split_ifs <;> rfl
    simp only [decode, hw, hd, List.length_replicate, Nat.le_refl, if_true, hz, h, List.drop_replicate,
      Nat.sub_self, List.replicate_zero]

end Sys2Proof
end

