-- ==== Sys2Proof/Laws/Exec.lean ====
section
/-! SUPPORT. What `exec` can do: a command answers a next state exactly when it is well formed, and that
state is an operation of its own component performed on the old one. -/

namespace Sys2Proof.Machine

/-- The operation on Component A a command performs; of a command of Component B, none. -/
def operationA : Instr → StateA → Run StateA Result
  | .aPre x => fun a => ⟨[.sample (preFilter Config.cfg x a).2], some (preFilter Config.cfg x a).1⟩
  | .aQnt f => fun a => Run.ofOption ((quantiseA Config.cfg f).map fun u => (a, .intA u))
  | .aIirx u => fun a => (Run.ofOption (iirExcited Config.cfg u.toInt a)).results fun n => [.code n]
  | .aIirf => fun a => (Run.ofOption (iirFree Config.cfg a)).results fun n => [.code n]
  | .aPush x => fun a => (pushA Config.cfg x a).results fun n => [.code n]
  | .aBlock xs => fun a => (blockA Config.cfg xs a).results fun n => [.code n]
  | .zs2 _ | .firPush _ | .cicQnt _ | .cicComb _ | .cicInt _ | .cicIntz | .mix _ | .bPush _ | .bBlock _ _ =>
    fun a => ⟨[], some a⟩

/-- The operation on Component B a command performs; of a command of Component A, none. -/
def operationB : Instr → StateB → Run StateB Result
  | .zs2 z => fun b => ⟨railsResult .sample (zeroStuff z).1 ++ railsResult .sample (zeroStuff z).2, some b⟩
  | .firPush z => fun b => ⟨railsResult .sample (firPush Config.cfg z b).2, some (firPush Config.cfg z b).1⟩
  | .cicQnt y => fun b =>
    (Run.ofOption ((quantiseB Config.cfg y).map fun q => (b, q))).results (railsResult .intB)
  | .cicComb q => fun b => (Run.ofOption (combPass Config.cfg (intsOfWords q) b)).results (railsResult .intB)
  | .cicInt u => fun b =>
    (Run.ofOption (integratorPass Config.cfg (intsOfWords u) b)).results (railsResult .intB)
  | .cicIntz => fun b => (Run.ofOption (integratorZero Config.cfg b)).results (railsResult .intB)
  | .mix a => fun b => (Run.ofOption (mixSample Config.cfg (intsOfWords a) b)).results fun o => [.sample o]
  | .bPush z => fun b => (pushB Config.cfg z b).results fun o => [.sample o]
  | .bBlock _ zs => fun b => (blockB Config.cfg zs b).results fun o => [.sample o]
  | .aPre _ | .aQnt _ | .aIirx _ | .aIirf | .aPush _ | .aBlock _ => fun b => ⟨[], some b⟩

/-- A well-formed command of Component A performs its operation. -/
theorem exec_componentA {i : Instr} (hc : i.component = .a) (hw : i.WellFormed) (s : State) :
    exec i s = .next (s.runA (operationA i)) := by
  cases i <;> first
    | rfl
    | (simp [Instr.component, Instr.row, Row.component] at hc; done)
    | (simp only [exec, execABlock]
       exact if_pos (by simpa [Instr.WellFormed, Instr.wellFormed] using hw))

/-- A well-formed command of Component B performs its operation. -/
theorem exec_componentB {i : Instr} (hc : i.component = .b) (hw : i.WellFormed) (s : State) :
    exec i s = .next (s.runB (operationB i)) := by
  cases i <;> first
    | rfl
    | (simp [Instr.component, Instr.row, Row.component] at hc; done)
    | (simp only [exec, execBBlock]
       exact if_pos (by simpa [Instr.WellFormed, Instr.wellFormed] using hw))

/-- An ill-formed command answers no next state. -/
theorem wellFormed_of_exec {i : Instr} {s t : State} (h : exec i s = .next t) : i.WellFormed := by
  cases i <;> first
    | rfl
    | (simp only [exec, execABlock, execBBlock] at h
       split_ifs at h with hw
       simpa [Instr.WellFormed, Instr.wellFormed] using hw)

/-- Everything a command of Component A can do. -/
theorem exec_next_componentA {i : Instr} {s t : State} (hc : i.component = .a) (h : exec i s = .next t) :
    t = s.runA (operationA i) := by
  rw [exec_componentA hc (wellFormed_of_exec h)] at h
  cases h
  rfl

/-- Everything a command of Component B can do. -/
theorem exec_next_componentB {i : Instr} {s t : State} (hc : i.component = .b) (h : exec i s = .next t) :
    t = s.runB (operationB i) := by
  rw [exec_componentB hc (wellFormed_of_exec h)] at h
  cases h
  rfl

/-- A command of Component A that leaves the flag clear found it clear and did its operation. -/
theorem exec_clearA {i : Instr} {s t : State} (hc : i.component = .a) (h : exec i s = .next t)
    (ht : t.st.ovfA = false) :
    s.st.ovfA = false ∧ ∃ a, (operationA i s.a).final = some a ∧
      t = { s with a := a, output := s.output ++ (operationA i s.a).emitted } := by
  rw [exec_next_componentA hc h] at ht ⊢
  rcases s.runA_cases (operationA i) with ⟨a, hf, hop, e⟩ | ⟨l, e⟩
  · exact ⟨hf, a, hop, e⟩
  · rw [e] at ht
    simp at ht

/-- A command of Component B that leaves the flag clear found it clear and did its operation. -/
theorem exec_clearB {i : Instr} {s t : State} (hc : i.component = .b) (h : exec i s = .next t)
    (ht : t.st.ovfB = false) :
    s.st.ovfB = false ∧ ∃ b, (operationB i s.b).final = some b ∧
      t = { s with b := b, output := s.output ++ (operationB i s.b).emitted } := by
  rw [exec_next_componentB hc h] at ht ⊢
  rcases s.runB_cases (operationB i) with ⟨b, hf, hop, e⟩ | ⟨l, e⟩
  · exact ⟨hf, b, hop, e⟩
  · rw [e] at ht
    simp at ht

/-- A command of Component A whose operation is known to end well. -/
theorem exec_of_operationA {i : Instr} (hc : i.component = .a) (hw : i.WellFormed) {s : State} {a : StateA}
    {vs : List Result} (hf : s.st.ovfA = false) (h : operationA i s.a = ⟨vs, some a⟩) :
    exec i s = .next { s with a := a, output := s.output ++ vs } := by
  rw [exec_componentA hc hw, State.runA_some (a := a) hf (by rw [h]), h]

/-- A command of Component B whose operation is known to end well. -/
theorem exec_of_operationB {i : Instr} (hc : i.component = .b) (hw : i.WellFormed) {s : State} {b : StateB}
    {vs : List Result} (hf : s.st.ovfB = false) (h : operationB i s.b = ⟨vs, some b⟩) :
    exec i s = .next { s with b := b, output := s.output ++ vs } := by
  rw [exec_componentB hc hw, State.runB_some (b := b) hf (by rw [h]), h]

/-! ### Several commands -/

theorem execAll_cons {i : Instr} {is : List Instr} {s t : State} (h : exec i s = .next t) :
    execAll (i :: is) s = execAll is t := by simp [execAll, h]

theorem execAll_append {is js : List Instr} {s t : State} (h : execAll is s = .next t) :
    execAll (is ++ js) s = execAll js t := by
  induction is generalizing s with
  | nil => cases h; rfl
  | cons i is ih =>
    simp only [execAll, List.cons_append] at h ⊢
    cases he : exec i s <;> simp only [he] at h ⊢ <;> first | exact ih h | cases h

theorem execAll_cons_inv {i : Instr} {is : List Instr} {s t : State} (h : execAll (i :: is) s = .next t) :
    ∃ u, exec i s = .next u ∧ execAll is u = .next t := by
  simp only [execAll] at h
  cases e : exec i s <;> simp only [e] at h <;> first | exact ⟨_, rfl, h⟩ | cases h

/-- A list of commands of Component A that leaves the flag clear did its operations one after another. -/
theorem execAll_clearA {is : List Instr} (hc : ∀ i ∈ is, i.component = .a) {s t : State}
    (h : execAll is s = .next t) (ht : t.st.ovfA = false) :
    s.st.ovfA = false ∧ ∃ a, (Run.forEach operationA is s.a).final = some a ∧
      t = { s with a := a, output := s.output ++ (Run.forEach operationA is s.a).emitted } := by
  induction is generalizing s with
  | nil => cases h; exact ⟨ht, _, rfl, by simp⟩
  | cons i is ih =>
    obtain ⟨u, h1, h2⟩ := execAll_cons_inv h
    obtain ⟨hu, a, ha, e⟩ := ih (fun j hj => hc j (by simp [hj])) h2
    obtain ⟨hs, a1, ha1, e1⟩ := exec_clearA (hc i (by simp)) h1 hu
    refine ⟨hs, a, ?_, ?_⟩
    · rw [Run.forEach_cons, Run.andThen_some ha1]; simpa [e1] using ha
    · rw [e, Run.forEach_cons, Run.andThen_some ha1, e1]; simp

/-- A list of commands of Component B that leaves the flag clear did its operations one after another. -/
theorem execAll_clearB {is : List Instr} (hc : ∀ i ∈ is, i.component = .b) {s t : State}
    (h : execAll is s = .next t) (ht : t.st.ovfB = false) :
    s.st.ovfB = false ∧ ∃ b, (Run.forEach operationB is s.b).final = some b ∧
      t = { s with b := b, output := s.output ++ (Run.forEach operationB is s.b).emitted } := by
  induction is generalizing s with
  | nil => cases h; exact ⟨ht, _, rfl, by simp⟩
  | cons i is ih =>
    obtain ⟨u, h1, h2⟩ := execAll_cons_inv h
    obtain ⟨hu, b, hb, e⟩ := ih (fun j hj => hc j (by simp [hj])) h2
    obtain ⟨hs, b1, hb1, e1⟩ := exec_clearB (hc i (by simp)) h1 hu
    refine ⟨hs, b, ?_, ?_⟩
    · rw [Run.forEach_cons, Run.andThen_some hb1]; simpa [e1] using hb
    · rw [e, Run.forEach_cons, Run.andThen_some hb1, e1]; simp

/-- Commands of Component B whose operations all end well, from a clear flag, all complete. -/
theorem execAll_of_forEachB {is : List Instr} (hc : ∀ i ∈ is, i.component = .b ∧ i.WellFormed) {s : State}
    {b : StateB} (hf : s.st.ovfB = false) (h : (Run.forEach operationB is s.b).final = some b) :
    execAll is s =
      .next { s with b := b, output := s.output ++ (Run.forEach operationB is s.b).emitted } := by
  induction is generalizing s with
  | nil => cases h; simp [execAll]
  | cons i is ih =>
    rw [Run.forEach_cons, Run.andThen_final] at h
    obtain ⟨b1, h1, h2⟩ := h
    have hi := hc i (by simp)
    have e : exec i s = .next { s with b := b1, output := s.output ++ (operationB i s.b).emitted } := by
      rw [exec_componentB hi.1 hi.2, State.runB_some hf h1]
    rw [execAll_cons e, ih (fun j hj => hc j (by simp [hj])) (by exact hf) h2, Run.forEach_cons,
      Run.andThen_some h1]
    simp

end Sys2Proof.Machine
end

