-- ==== Sys2Proof/Laws/History.lean ====
section
/-! SUPPORT. The delay line as a history of samples (R35, R124, R126): what a push does to it and what the
convolution reads of it. -/

namespace Sys2Proof.Machine

/-- A push makes its sample the newest and moves every other one place back. -/
theorem hist_pushSample {z : Rails Sample} {b : StateB} (w1 : b.dl.re.wf) (w2 : b.dl.im.wf) :
    (pushSample z b).hist 0 = z ∧ ∀ k : Fin 20, (pushSample z b).hist k.succ = b.hist k.castSucc := by
  have aux : ∀ k : Fin 21, (histAddr (advance b.cur) k).val = (b.cur.val + 21 - k.val) % 21 := by
    intro k
    have := k.isLt
    have := b.cur.isLt
    simp only [histAddr, advance]
    omega
  constructor
  · simp only [StateB.hist, pushSample, read_doubleWrite w1, read_doubleWrite w2, aux]
    have := b.cur.isLt
    simp [Nat.mod_eq_of_lt this]
  · intro k
    have := k.isLt
    have := b.cur.isLt
    have h2 : histAddr (advance b.cur) k.succ = histAddr b.cur k.castSucc := by
      apply Fin.ext
      rw [aux]
      simp [histAddr]
    have h3 : ¬((histAddr (advance b.cur) k.succ).val % 21 = b.cur.val) := by
      rw [aux]
      simp
      omega
    simp only [StateB.hist, pushSample, read_doubleWrite w1, read_doubleWrite w2, if_neg h3]
    rw [h2]

/-- Where `MIR` holds, the convolution is over the history (R126). -/
theorem convolve_hist {c : Cfg} {m : Memory} (hm : Mirrored m) (cur : Fin 21) :
    convolve c m cur = (List.finRange 21).foldl
      (fun y k => c.num.radd y (c.num.rmul (c.h k) (m.read (histAddr cur k)))) 0 := by
  unfold convolve
  congr 1
  funext y k
  rw [hm.read_window]

/-- The memories are in canonical form, `MIR` holds, and the history is that of the pushes `ss`, oldest
first, made onto an all-zero delay line. -/
def HistoryIs (ss : List (Rails Sample)) (b : StateB) : Prop :=
  b.dl.re.wf ∧ b.dl.im.wf ∧ b.Mir ∧ ∀ k : Fin 21,
    b.hist k = if k.val < ss.length then ss.getD (ss.length - 1 - k.val) ⟨0, 0⟩ else ⟨0, 0⟩

theorem HistoryIs.empty {b : StateB} (h : b.dl = ⟨Memory.empty, Memory.empty⟩) : HistoryIs [] b := by
  rw [HistoryIs, StateB.Mir, h]
  exact ⟨Memory.wf_empty, Memory.wf_empty, ⟨fun _ => rfl, fun _ => rfl⟩, fun k => by simp [StateB.hist, h]⟩

/-- A push appends to the history and emits the response of the filter to it (R127). -/
theorem HistoryIs.push {c : Cfg} {ss : List (Rails Sample)} {z : Rails Sample} {b : StateB}
    (h : HistoryIs ss b) :
    HistoryIs (ss ++ [z]) (pushSample z b) ∧ (firPush c z b).2 = firResponse c (ss ++ [z]) ss.length := by
  obtain ⟨w1, w2, hm, hh⟩ := h
  obtain ⟨g0, g1⟩ := hist_pushSample (z := z) w1 w2
  have hlt : ∀ k, k < ss.length → (ss ++ [z]).getD k ⟨0, 0⟩ = ss.getD k ⟨0, 0⟩ := by
    intro k hk
    simp [List.getD_eq_getElem?_getD, List.getElem?_append_left hk]
  have hlast : (ss ++ [z]).getD ss.length ⟨0, 0⟩ = z := by simp [List.getD_eq_getElem?_getD]
  have H : HistoryIs (ss ++ [z]) (pushSample z b) := by
    refine ⟨wf_doubleWrite w1 _ _, wf_doubleWrite w2 _ _,
      ⟨mirrored_doubleWrite w1 hm.1 _ _, mirrored_doubleWrite w2 hm.2 _ _⟩, fun k => ?_⟩
    refine Fin.cases ?_ (fun k => ?_) k
    · rw [if_pos (by simp), g0]
      simp
    · rw [g1, hh]
      simp only [Fin.val_succ, Fin.val_castSucc, List.length_append, List.length_singleton,
        Nat.add_lt_add_iff_right]
      split_ifs with hk
      · rw [show ss.length + 1 - 1 - (k.val + 1) = ss.length - 1 - k.val by omega, hlt _ (by omega)]
      · rfl
  refine ⟨H, ?_⟩
  have hr : ∀ k : Fin 21, (pushSample z b).hist k =
      if k.val ≤ ss.length then (ss ++ [z]).getD (ss.length - k.val) ⟨0, 0⟩ else ⟨0, 0⟩ := by
    intro k
    rw [H.2.2.2 k]
    simp only [List.length_append, List.length_singleton, Nat.lt_succ_iff, Nat.add_sub_cancel]
  simp only [firPush, firResponse]
  rw [convolve_hist H.2.2.1.1, convolve_hist H.2.2.1.2]
  congr 1 <;> congr 1 <;> funext y k <;> congr 2
  · have := congrArg Rails.re (hr k)
    simp only [StateB.hist] at this
    rw [this]
    split_ifs <;> rfl
  · have := congrArg Rails.im (hr k)
    simp only [StateB.hist] at this
    rw [this]
    split_ifs <;> rfl

end Sys2Proof.Machine
end

