-- ==== Sys2Proof/Laws/PerInstr.lean ====
section
/-! SUPPORT. Statements made of every command as syntax, one lemma per constructor of `Instr`. -/

namespace Sys2Proof.Laws.Header

/-- The command word of a command decodes to its row and count, and a well-formed command is followed by
as many operand beats as its row asks for (R73, R74, R79). -/
def Statement (i : Sys2Proof.Instr) : Prop :=
  decodeWord i.header.word = .ok i.header ∧ (i.WellFormed → i.operandStream.length = i.header.operandBeats)

theorem of_any (i : Sys2Proof.Instr) : Statement i := ⟨decodeWord_header i, operandStream_length i⟩

theorem aPre (x : Sample) : Statement (.aPre x) := of_any _
theorem aQnt (f : Sample) : Statement (.aQnt f) := of_any _
theorem aIirx (u : WordA) : Statement (.aIirx u) := of_any _
theorem aIirf : Statement .aIirf := of_any _
theorem aPush (x : Sample) : Statement (.aPush x) := of_any _
theorem aBlock (xs : List Sample) : Statement (.aBlock xs) := of_any _
theorem zs2 (z : Rails Sample) : Statement (.zs2 z) := of_any _
theorem firPush (z : Rails Sample) : Statement (.firPush z) := of_any _
theorem cicQnt (y : Rails Sample) : Statement (.cicQnt y) := of_any _
theorem cicComb (q : Rails WordB) : Statement (.cicComb q) := of_any _
theorem cicInt (u : Rails WordB) : Statement (.cicInt u) := of_any _
theorem cicIntz : Statement .cicIntz := of_any _
theorem mix (a : Rails WordB) : Statement (.mix a) := of_any _
theorem bPush (z : Rails Sample) : Statement (.bPush z) := of_any _
theorem bBlock (cnt : Count) (zs : List (Rails Sample)) : Statement (.bBlock cnt zs) := of_any _

end Sys2Proof.Laws.Header
end

