-- ==== Sys2Proof/Laws/Port.lean ====
section
/-! SUPPORT. The laws of the ports and of the step. -/

namespace Sys2Proof.Machine

/-- Beats put before an input are the first of its leading beats. -/
theorem leadingBeats_map_append (bs : List Beat) (rest : List HostInput) :
    leadingBeats (bs.map .beat ++ rest) = (bs ++ (leadingBeats rest).1, (leadingBeats rest).2) := by
  induction bs with
  | nil => rfl
  | cons n bs ih => simp [leadingBeats, ih]

@[simp] theorem leadingBeats_reset (rest : List HostInput) :
    leadingBeats (.reset :: rest) = ([], .reset :: rest) := rfl

/-- The leading beats and what follows them are the input. -/
theorem leadingBeats_append (input : List HostInput) :
    (leadingBeats input).1.map .beat ++ (leadingBeats input).2 = input := by
  induction input with
  | nil => rfl
  | cons x rest ih => cases x <;> simp [leadingBeats, ih]

/-- More beats after a whole command do not change it. -/
theorem decode_append {bs rest : List Beat} {i : Instr} (h : decode bs = .command i rest) (more : List Beat) :
    decode (bs ++ more) = .command i (rest ++ more) := by
  cases bs with
  | nil => cases h
  | cons w ops =>
    simp only [decode, List.cons_append] at h ⊢
    cases hd : decodeWord (BitVec.ofNat 32 w) with
    | error e => simp [hd] at h
    | ok hdr =>
      simp only [hd] at h ⊢
      split_ifs at h with hn
      cases h
      rw [if_pos (by simp; omega), List.drop_append_of_le_length hn]
      congr 1
      refine assemble_congr hdr fun k hk => ?_
      simp [List.getD_eq_getElem?_getD, List.getElem?_append_left (show k < ops.length by omega)]

/-- The command of a table word put first on the port is what the next step runs. -/
theorem step_withFetchWord {s : State} {nbits w : Nat} {i : Instr} (h : decodeTableWord nbits w = some i) :
    step (s.withFetchWord nbits w) = exec i s := by
  have hd := decode_append (decode_tableBeats h) (leadingBeats s.input).1
  have hf : fetch (s.withFetchWord nbits w).input = .command i s.input := by
    simp only [fetch, State.withFetchWord, leadingBeats_map_append, hd, List.nil_append,
      leadingBeats_append]
  simp only [step, hf]
  rfl

end Sys2Proof.Machine
end

