-- ==== Sys2Proof/Laws/Zero.lean ====
section
/-! SUPPORT. Zero input from zero state (R178), unit by unit: every operation emits zero, passes every
check, and leaves the zero state. -/

namespace Sys2Proof.Machine

variable {c : Cfg}

theorem preFilter_zero (hc : c.Wf) : preFilter c 0 StateA.zero = (StateA.zero, 0) := by
  simp only [preFilter, StateA.zero, hc.num_lawful.zero_mul _ hc.beta2_mem,
    hc.num_lawful.add_zero_zero]

theorem quantiseA_zero (hc : c.Wf) : quantiseA c 0 = some 0 := by
  have h : c.quantA (c.num.rmul 0 c.aScale) = 0 := by
    rw [hc.num_lawful.zero_mul _ hc.aScale_mem]; exact hc.quantA_law.zero
  exact quantiseA_eq_some.2 ⟨by rw [h]; exact InWidth.zero _, h.symm⟩

theorem iirFits_zero (hc : c.Wf) : IirFits c 0 StateA.zero := by
  have h0 := InWidth.zero c.wIir
  have := hc.dcOffset_nonneg
  have := hc.dcOffset_lt
  simp only [IirFits, iirValue, StateA.zero, mul_zero, asr_zero, add_zero, sub_zero, zero_add]
  exact ⟨h0, h0, h0, h0, by omega, by omega⟩

theorem iirExcited_zero (hc : c.Wf) : iirExcited c 0 StateA.zero = some (StateA.zero, c.dcOffset.toNat) :=
  iirExcited_eq_some.2 ⟨iirFits_zero hc, by simp [iirValue, StateA.zero, StateA.shift]⟩

theorem iirFree_zero (hc : c.Wf) : iirFree c StateA.zero = some (StateA.zero, c.dcOffset.toNat) :=
  iirFree_eq_some.2 ⟨iirFits_zero hc, by simp [iirValue, StateA.zero, StateA.shift]⟩

theorem pushA_zero (hc : c.Wf) :
    pushA c 0 StateA.zero = ⟨List.replicate c.m c.dcOffset.toNat, some StateA.zero⟩ := by
  have times : ∀ n, Run.times (fun a => Run.ofOption (iirFree c a)) n StateA.zero =
      ⟨List.replicate n c.dcOffset.toNat, some StateA.zero⟩ := by
    intro n
    induction n with
    | zero => rfl
    | succ n ih =>
      rw [Run.times, iirFree_zero hc, Run.ofOption_some, Run.andThen_mk_some, ih]
      rfl
  obtain ⟨m, hm⟩ : ∃ m, c.m = m + 1 := ⟨c.m - 1, by have := hc.m_pos; omega⟩
  simp only [pushA, preFilter_zero hc, quantiseA_zero hc, iirExcited_zero hc, Run.ofOption_some,
    Run.andThen_mk_some, times, hm, Nat.add_sub_cancel]
  rfl

theorem convolve_zero (hc : c.Wf) (cur : Fin 21) : convolve c Memory.empty cur = 0 := by
  unfold convolve
  generalize List.finRange 21 = l
  have h : ∀ k, c.num.rmul (c.h k) (Memory.empty.read (windowAddr cur k)) = 0 :=
    fun k => hc.num_lawful.mul_zero _ (hc.h_mem k)
  induction l with
  | nil => rfl
  | cons k l ih =>
    rw [List.foldl_cons, h, hc.num_lawful.add_zero_zero]
    exact ih

theorem doubleWrite_empty (cur : Fin 21) : doubleWrite Memory.empty cur 0 = Memory.empty := rfl

/-- A push of zero onto an empty delay line moves the cursor only. -/
theorem firPush_zero (hc : c.Wf) {b : StateB} (hb : b.dl = ⟨Memory.empty, Memory.empty⟩) :
    firPush c ⟨0, 0⟩ b = ({ b with cur := advance b.cur }, ⟨0, 0⟩) := by
  simp only [firPush, pushSample, hb, doubleWrite_empty, convolve_zero hc]

theorem quantiseB_zero (hc : c.Wf) : quantiseB c ⟨0, 0⟩ = some ⟨0, 0⟩ := by
  have h : c.quantB (c.num.rmul 0 c.fixScale) = 0 := by
    rw [hc.num_lawful.zero_mul _ hc.fixScale_mem]; exact hc.quantB_law.zero
  exact quantiseB_eq_some.2 ⟨by rw [h]; exact InWidth.zero _, by rw [h]; exact InWidth.zero _, by simp [h]⟩

theorem combPass_zero {b : StateB} (hb : b.cb = ⟨Chain.zero, Chain.zero⟩) :
    combPass c ⟨0, 0⟩ b = some (b, ⟨0, 0⟩) := by
  obtain ⟨dl, cur, cb, it, ph⟩ := b
  obtain rfl := hb
  refine combPass_eq_some.2 ⟨?_, ?_, rfl⟩ <;> simp [CombFits, combOut, Chain.zero] <;> exact InWidth.zero _

theorem integratorPass_zero {b : StateB} (hb : b.it = ⟨Chain.zero, Chain.zero⟩) :
    integratorPass c ⟨0, 0⟩ b = some (b, ⟨0, 0⟩) := by
  obtain ⟨dl, cur, cb, it, ph⟩ := b
  obtain rfl := hb
  refine integratorPass_eq_some.2 ⟨?_, ?_, rfl⟩ <;> simp [IntegratorFits, integratorChain, Chain.zero] <;>
    exact InWidth.zero _

theorem mixSample_zero (hc : c.Wf) (b : StateB) :
    mixSample c ⟨0, 0⟩ b = some ({ b with ph := nextPhase b.ph }, 0) := by
  have h : mixValue b.ph ⟨0, 0⟩ = 0 := by simp [mixValue]
  exact mixSample_eq_some.2 ⟨by rw [h]; exact InWidth.zero _,
    by rw [h, hc.num_lawful.rofint_zero, hc.zero_div]⟩

theorem stuffedSample_zero (hc : c.Wf) {b : StateB} (hb : b.Quiet) :
    ∃ b', stuffedSample c ⟨0, 0⟩ b = ⟨List.replicate 5 0, some b'⟩ ∧ b'.Quiet := by
  obtain ⟨dl, cur, cb, it, ph⟩ := b
  obtain ⟨rfl, rfl, rfl⟩ := hb
  have hz : ∀ cur ph, (⟨⟨Memory.empty, Memory.empty⟩, cur, ⟨Chain.zero, Chain.zero⟩,
      ⟨Chain.zero, Chain.zero⟩, ph⟩ : StateB).CicZero := fun _ _ => ⟨rfl, rfl⟩
  simp only [stuffedSample, firPush_zero hc, quantiseB_zero hc, combPass_zero (hz _ _).1, passAndMix,
    integratorPass_zero (hz _ _).2, mixSample_zero hc, Run.ofOption_some, Run.andThen_mk_some, integratorZero,
    Run.times]
  exact ⟨_, rfl, rfl, rfl, rfl⟩

theorem pushB_zero (hc : c.Wf) {b : StateB} (hb : b.Quiet) :
    ∃ b', pushB c ⟨0, 0⟩ b = ⟨List.replicate 10 0, some b'⟩ ∧ b'.Quiet := by
  obtain ⟨b1, e1, h1⟩ := stuffedSample_zero hc hb
  obtain ⟨b2, e2, h2⟩ := stuffedSample_zero hc h1
  exact ⟨b2, by simp only [pushB, zeroStuff, e1, Run.andThen_mk_some, e2]; rfl, h2⟩

end Sys2Proof.Machine
end

