-- ==== Sys2Proof/Machine/Listing.lean ====
section
/-! DEFINITION. The textual form of commands and results (R82; assumption 16, DEDUCED, safe). -/

namespace Sys2Proof.Machine

/-- The mnemonic of a row (R73). -/
def mnemonic : Row → String
  | .aPre => "A.PRE"
  | .aQnt => "A.QNT"
  | .aIirx => "A.IIRX"
  | .aIirf => "A.IIRF"
  | .aPush => "A.PUSH"
  | .aBlock => "A.BLOCK"
  | .zs2 => "ZS2"
  | .firPush => "FIR.PUSH"
  | .cicQnt => "CIC.QNT"
  | .cicComb => "CIC.COMB"
  | .cicInt => "CIC.INT"
  | .cicIntz => "CIC.INTZ"
  | .mix => "MIX"
  | .bPush => "B.PUSH"
  | .bBlock => "B.BLOCK"

/-- A sample as a rational literal (R82): `3`, `-1/2`. -/
def sampleText (v : Sample) : String :=
  if v.den = 1 then toString v.num else toString v.num ++ "/" ++ toString v.den

/-- A rail pair as `(re, im)` (R82). -/
def railsText {α : Type} (f : α → String) (z : Rails α) : String :=
  "(" ++ f z.re ++ ", " ++ f z.im ++ ")"

/-- A word of an integer domain as a decimal literal (R82). -/
def wordText {w : Nat} (v : BitVec w) : String := toString v.toInt

/-- The operands of a command, without its count (R82). -/
def operandTexts : Instr → List String
  | .aPre x | .aQnt x | .aPush x => [sampleText x]
  | .aIirx u => [wordText u]
  | .aIirf | .cicIntz => []
  | .aBlock xs => xs.map sampleText
  | .zs2 z | .firPush z | .cicQnt z | .bPush z => [railsText sampleText z]
  | .cicComb w | .cicInt w | .mix w => [railsText wordText w]
  | .bBlock _ zs => zs.map (railsText sampleText)

/-- One line of a listing: the mnemonic, for `B.BLOCK` its count and a colon, and the operands separated
by commas (R82). -/
def listingLine (i : Instr) : String :=
  match i with
  | .bBlock cnt _ => mnemonic i.row ++ " " ++ toString cnt.toNat ++ ": " ++ ", ".intercalate (operandTexts i)
  | .aIirf | .cicIntz => mnemonic i.row
  | .aPre _ | .aQnt _ | .aIirx _ | .aPush _ | .aBlock _ | .zs2 _ | .firPush _ | .cicQnt _ | .cicComb _
  | .cicInt _ | .mix _ | .bPush _ => mnemonic i.row ++ " " ++ ", ".intercalate (operandTexts i)

/-- The line that stands for the reset event (R82). -/
def resetLine : String := "RESET"

/-- One value of a result list, as written after `=>` (R82). -/
def resultText : Result → String
  | .sample v => sampleText v
  | .intA v | .intB v => toString v
  | .code n => toString n

end Sys2Proof.Machine
end

