-- ==== Sys2Proof/Tests/Slice0.lean ====
section
/-! SUPPORT. The model's own tests: ill-formed terms that the check refuses, words written out from the
spec's encodings, the unit vectors of spec/95_test_vectors.md (each test names its vector), and for every
obligation with hypotheses a witness that meets them. The expected values are the spec's. -/

namespace Sys2Proof.Tests

open Sys2Proof.Machine

/-! ### Well-formedness (R79) -/

theorem test_aBlock_too_short_is_ill_formed : ¬(Instr.aBlock []).WellFormed := by
  have := Config.cfg_wf.ducN_pos
  simp [Instr.WellFormed, Instr.wellFormed]
  omega

theorem test_bBlock_count_zero_with_an_operand_is_ill_formed : ¬(Instr.bBlock 0 [⟨0, 0⟩]).WellFormed := by
  simp [Instr.WellFormed, Instr.wellFormed]

theorem test_bBlock_count_zero_is_well_formed : (Instr.bBlock 0 []).WellFormed := by
  simp [Instr.WellFormed, Instr.wellFormed]

theorem test_aBlock_is_well_formed : (Instr.aBlock (List.replicate Config.cfg.ducN 0)).WellFormed := by
  simp [Instr.WellFormed, Instr.wellFormed]

/-- A chunk of the smallest `DUC_N` is one complex sample. -/
theorem test_chunk_of_reference : chunkLength Cfg.reference = 1 := by decide

/-! ### Command words, written out from R71 and the table of R73 -/

/-- `cw[7:0]` bit by bit, `cw[31:8]` zero. -/
theorem test_words_of_component_a :
    decodeWord 0b00000000_00000000_00000000_00010000 = .ok ⟨.aPre, 0⟩ ∧
    decodeWord 0b00000000_00000000_00000000_00010001 = .ok ⟨.aQnt, 0⟩ ∧
    decodeWord 0b00000000_00000000_00000000_00010010 = .ok ⟨.aIirx, 0⟩ ∧
    decodeWord 0b00000000_00000000_00000000_00010011 = .ok ⟨.aIirf, 0⟩ ∧
    decodeWord 0b00000000_00000000_00000000_00011000 = .ok ⟨.aPush, 0⟩ ∧
    decodeWord 0b00000000_00000000_00000000_00011001 = .ok ⟨.aBlock, 0⟩ := by decide

theorem test_words_of_component_b :
    decodeWord 0b00000000_00000000_00000000_00100000 = .ok ⟨.zs2, 0⟩ ∧
    decodeWord 0b00000000_00000000_00000000_00100001 = .ok ⟨.firPush, 0⟩ ∧
    decodeWord 0b00000000_00000000_00000000_00110000 = .ok ⟨.cicQnt, 0⟩ ∧
    decodeWord 0b00000000_00000000_00000000_00110001 = .ok ⟨.cicComb, 0⟩ ∧
    decodeWord 0b00000000_00000000_00000000_00110010 = .ok ⟨.cicInt, 0⟩ ∧
    decodeWord 0b00000000_00000000_00000000_00110011 = .ok ⟨.cicIntz, 0⟩ ∧
    decodeWord 0b00000000_00000000_00000000_01000000 = .ok ⟨.mix, 0⟩ ∧
    decodeWord 0b00000000_00000000_00000000_01011000 = .ok ⟨.bPush, 0⟩ ∧
    decodeWord 0b00000000_00000000_00000000_01011001 = .ok ⟨.bBlock, 0⟩ := by decide

/-- V-E2, V-E3: all 24 bits above `op` are the count of `B.BLOCK`. -/
theorem test_count_of_bBlock :
    decodeWord 0x00000A59 = .ok ⟨.bBlock, 10⟩ ∧ decodeWord 0xFFFFFF59 = .ok ⟨.bBlock, 16777215⟩ := by decide

/-- V-E4, V-E5, V-E7: the all-zero word, and counts in format N. -/
theorem test_reserved_words :
    decodeWord 0x00000000 = .error (.noSuchOpcode 0) ∧
    decodeWord 0x00000110 = .error (.countInFormatN .aPre 1) ∧
    decodeWord 0x00000119 = .error (.countInFormatN .aBlock 1) := by decide

/-- V-E6. -/
theorem test_reserved_opcodes :
    decodeWord 0x000000FF = .error (.noSuchOpcode 0xFF) ∧ decodeWord 0x00000014 = .error (.noSuchOpcode 0x14) ∧
    decodeWord 0x00000034 = .error (.noSuchOpcode 0x34) ∧ decodeWord 0x00000041 = .error (.noSuchOpcode 0x41) ∧
    decodeWord 0x0000005A = .error (.noSuchOpcode 0x5A) := by decide

/-- A command with no operand, one operand and a rail pair, real rail first (R75); the beat after it is
left on the port. -/
theorem test_decode_operands (x y z : Beat) :
    decode [0x13, x] = .command .aIirf [x] ∧
    decode [0x10, x, y] = .command (.aPre (sampleOfBeat x)) [y] ∧
    decode [0x21, x, y, z] = .command (.firPush ⟨sampleOfBeat x, sampleOfBeat y⟩) [z] ∧
    decode [0x40, x, y] = .command (.mix ⟨wordBOfBeat x, wordBOfBeat y⟩) [] := ⟨rfl, rfl, rfl, rfl⟩

/-- A reserved word consumes no operand beat (R80). -/
theorem test_decode_reserved (x : Beat) : decode [0x00000110, x] = .reserved (.countInFormatN .aPre 1) [x] := rfl

/-- The beats of `A.IIRX` and of `A.IIRF` (R70, R77). -/
theorem test_encode (u : WordA) : encode (.aIirx u) = [0x12, u.toNat] ∧ encode .aIirf = [0x13] :=
  ⟨congrArg (· :: [u.toNat]) (show (Header.mk .aIirx 0).word.toNat = 0x12 by decide), by decide⟩

/-- The decoder reads a row's word as that row's command, and the first step after reset runs it. -/
theorem test_first_step_runs_component_a :
    step (State.reset.withFetchWord 32 0x10) = exec (.aPre (sampleOfBeat 0)) State.reset ∧
    step (State.reset.withFetchWord 32 0x13) = exec .aIirf State.reset ∧
    step (State.reset.withFetchWord 32 0x18) = exec (.aPush (sampleOfBeat 0)) State.reset :=
  ⟨step_withFetchWord rfl, step_withFetchWord rfl, step_withFetchWord rfl⟩

theorem test_first_step_runs_aBlock :
    step (State.reset.withFetchWord 32 0x19) =
      exec (.aBlock ((List.range Config.cfg.ducN).map fun _ => sampleOfBeat 0)) State.reset :=
  step_withFetchWord rfl

theorem test_first_step_runs_component_b :
    step (State.reset.withFetchWord 32 0x20) = exec (.zs2 ⟨sampleOfBeat 0, sampleOfBeat 0⟩) State.reset ∧
    step (State.reset.withFetchWord 32 0x32) = exec (.cicInt ⟨wordBOfBeat 0, wordBOfBeat 0⟩) State.reset ∧
    step (State.reset.withFetchWord 32 0x59) = exec (.bBlock 0 []) State.reset :=
  ⟨step_withFetchWord rfl, step_withFetchWord rfl,
    step_withFetchWord rfl⟩

/-! ### Arithmetic primitives (section 2.1) -/

/-- V-N1 to V-N6. -/
theorem test_asr :
    asr (-15) 2 = -4 ∧ asr (-16) 2 = -4 ∧ asr (-1) 2 = -1 ∧ asr 15 2 = 3 ∧ asr (-14) 2 = -4 ∧
    asr (-18) 2 = -5 ∧ asr 27 2 = 6 ∧ asr (-27) 2 = -7 ∧ asr (-6) 2 = -2 := by decide

/-- V-N7, V-N8. -/
theorem test_chk : chk 8 127 = some 127 ∧ chk 8 (-128) = some (-128) ∧ chk 8 128 = none ∧ chk 8 (-129) = none := by
  decide

/-- The bounds of an 8-bit code (R105, R110; V-A9). -/
theorem test_chkCode : chkCode 8 0 = some 0 ∧ chkCode 8 255 = some 255 ∧ chkCode 8 256 = none ∧ chkCode 8 (-4) = none := by
  decide

/-- V-N9, V-N10. -/
theorem test_rounding_defaults :
    [3 / 2, -3 / 2, 5 / 2, -5 / 2, 7 / 4, -7 / 4, 1 / 4, -1 / 4].map roundNearest = [2, -2, 3, -3, 2, -2, 0, 0] ∧
    [3 / 2, -3 / 2, 5 / 2, -5 / 2, 7 / 4, -7 / 4, 1 / 4, -1 / 4].map truncate = [1, -1, 2, -2, 1, -1, 0, 0] := by
  decide +kernel

/-! ### Component A (section 2.2), on the reference configuration -/

/-- V-A2. -/
theorem test_aPre : preFilter Cfg.reference 1 ⟨5, 7, 0, 0⟩ = (⟨1, 5, 0, 0⟩, 9 / 2) := by decide +kernel

/-- V-A1, V-A3. -/
theorem test_aQnt : quantiseA Cfg.reference (5 / 2) = some 10 ∧ quantiseA Cfg.reference (3 / 8) = some 2 := by
  decide +kernel

/-- The ends of the `W_IIR` range: `8191 × 4` fits 16 bits, `8192 × 4` does not (R103). -/
theorem test_aQnt_range : quantiseA Cfg.reference (-8192) = some (-32768) ∧ quantiseA Cfg.reference 8192 = none := by
  decide +kernel

/-- V-A1, the first and the third sample. -/
theorem test_aIirx :
    iirExcited Cfg.reference 4 ⟨1, 0, 0, 0⟩ = some (⟨1, 0, 4, 0⟩, 104) ∧
    iirExcited Cfg.reference 10 ⟨2, 0, 0, -2⟩ = some (⟨2, 0, 11, 0⟩, 111) := by decide +kernel

/-- V-A9: with `W_IIR = 8` the product `B1N·A.n1 = -150` overflows before any shift. -/
theorem test_aIirf_overflow :
    iirExcited { Cfg.reference with wIir := 8 } 50 StateA.zero = some (⟨0, 0, 50, 0⟩, 150) ∧
    iirFree { Cfg.reference with wIir := 8 } ⟨0, 0, 50, 0⟩ = none := by decide +kernel

/-- V-A5, V-A7. -/
theorem test_aIirf :
    iirFree Cfg.reference ⟨0, 0, 4, 0⟩ = some (⟨0, 0, -3, 4⟩, 97) ∧
    iirFree Cfg.reference ⟨0, 0, 0, -1⟩ = some (⟨0, 0, 1, 0⟩, 101) := by decide +kernel

/-- V-P1 and V-A9: a push that completes, and one that overflows on its second pass. -/
theorem test_aPush :
    pushA Cfg.reference 1 StateA.zero = ⟨[104, 97, 100], some ⟨1, 0, 0, -3⟩⟩ ∧
    pushA Cfg.reference 38 StateA.zero = ⟨[252], none⟩ := by decide +kernel

/-- V-A9: the lowest legal code, and the excited pass that overflows above. -/
theorem test_aPush_corners :
    pushA Cfg.reference (-25) StateA.zero = ⟨[0, 175, 93], some ⟨-25, 0, -7, 75⟩⟩ ∧
    pushA Cfg.reference 39 StateA.zero = ⟨[], none⟩ := by decide +kernel

/-- P1, the first four samples of the block. -/
theorem test_aBlock :
    blockA Cfg.reference [1, 0, 2, -1] StateA.zero =
      ⟨[104, 97, 100, 102, 98, 100, 111, 91, 101, 100, 100, 100], some ⟨-1, 2, 0, 0⟩⟩ := by decide +kernel

/-! ### Zero-stuffer and FIR (section 2.3) -/

/-- V-F1. -/
theorem test_zs2 : zeroStuff ⟨3 / 4, -1 / 8⟩ = (⟨3 / 4, -1 / 8⟩, ⟨0, 0⟩) := rfl

/-- `REFCFG-B` with `H_ENDS` (R9). -/
def endsCfg : Cfg := { Cfg.reference with h := hEnds, fixScale := 8, outDiv := 1000 }

/-- V-F4: tap 0 meets the sample just pushed, at address `T` of the window, and both entries are
written. -/
theorem test_firPush :
    firPush endsCfg ⟨1, 0⟩ StateB.zero =
      ({ StateB.zero with dl := ⟨⟨[(0, 1), (21, 1)]⟩, ⟨[]⟩⟩, cur := 1 }, ⟨1, 0⟩) := by decide +kernel

/-- V-F4, the twenty-first push: tap 20 meets the oldest of the 21 samples, the `1` at entry 0, and the
cursor wraps to 0 (V-F2). -/
theorem test_firPush_oldest :
    let b := { StateB.zero with dl := ⟨⟨[(0, 1), (21, 1)]⟩, ⟨[]⟩⟩, cur := 20 }
    firPush endsCfg ⟨0, 0⟩ b = ({ b with cur := 0 }, ⟨1, 0⟩) := by decide +kernel

/-! ### CIC (section 2.4) -/

/-- V-C1. -/
theorem test_cicQnt :
    quantiseB Cfg.reference ⟨1 / 8, -1 / 4⟩ = some ⟨128, -256⟩ ∧
    quantiseB Cfg.reference ⟨3 / 2048, -3 / 2048⟩ = some ⟨1, -1⟩ := by decide +kernel

/-- V-C1, the ends of the 8-bit range. -/
theorem test_cicQnt_range :
    quantiseB { endsCfg with wCic := 8 } ⟨127 / 8, -16⟩ = some ⟨127, -128⟩ ∧
    quantiseB { endsCfg with wCic := 8 } ⟨16, 0⟩ = none := by decide +kernel

/-- P3: the second comb. -/
theorem test_cicComb :
    combPass Cfg.reference ⟨0, 0⟩ { StateB.zero with cb := ⟨⟨8, 8, 8, 8⟩, Chain.zero⟩ } =
      some ({ StateB.zero with cb := ⟨⟨0, -8, -16, -24⟩, Chain.zero⟩ }, ⟨-32, 0⟩) := by decide +kernel

/-- V-C5. -/
theorem test_cicComb_overflow :
    combPass { Cfg.reference with wCic := 8 } ⟨-100, 0⟩
      { StateB.zero with cb := ⟨⟨100, 100, 100, 100⟩, Chain.zero⟩ } = none := by decide +kernel

/-- V-C4. -/
theorem test_cicInt :
    integratorPass Cfg.reference ⟨-3, 0⟩ { StateB.zero with it := ⟨⟨1, 5, 15, 35⟩, Chain.zero⟩ } =
      some ({ StateB.zero with it := ⟨⟨-2, 3, 18, 53⟩, Chain.zero⟩ }, ⟨53, 0⟩) := by decide +kernel

/-- P3 and P4: a pass with no forcing term, and one whose fourth stage overflows 8 bits. -/
theorem test_cicIntz :
    integratorZero Cfg.reference { StateB.zero with it := ⟨⟨8, 16, 24, 32⟩, Chain.zero⟩ } =
      some ({ StateB.zero with it := ⟨⟨8, 24, 48, 80⟩, Chain.zero⟩ }, ⟨80, 0⟩) ∧
    integratorZero { Cfg.reference with wCic := 8 }
      { StateB.zero with it := ⟨⟨-6, 4, 34, 104⟩, Chain.zero⟩ } = none := by decide +kernel

/-! ### Mixer (section 2.5) -/

/-- V-M1, the four phases. -/
theorem test_mix :
    (List.finRange 4).map (fun p => mixSample Cfg.reference ⟨1000, -2000⟩ { StateB.zero with ph := p }) =
      [some ({ StateB.zero with ph := 1 }, -1 / 128), some ({ StateB.zero with ph := 2 }, -1 / 64),
       some ({ StateB.zero with ph := 3 }, 1 / 128), some ({ StateB.zero with ph := 0 }, 1 / 64)] := by
  decide +kernel

/-- V-M3. -/
theorem test_mix_overflow :
    mixSample { Cfg.reference with wCic := 8 } ⟨-128, 0⟩ StateB.zero = none ∧
    mixSample { Cfg.reference with wCic := 8 } ⟨127, -128⟩ { StateB.zero with ph := 3 } = none := by
  decide +kernel

/-! ### Pipelines of Component B (section 2.6) -/

/-- V-P4, the first push. -/
theorem test_bPush :
    (pushB endsCfg ⟨1, 0⟩ StateB.zero).emitted =
      [-1 / 125, 0, 2 / 25, 0, -7 / 25, 0, 68 / 125, 0, -17 / 25, 0] := by decide +kernel

/-- P5, the first command of Program Y. -/
theorem test_bBlock :
    (blockB endsCfg [⟨0, 0⟩, ⟨1 / 8, -1 / 4⟩] StateB.zero).emitted =
      [0, 0, 0, 0, 0, 0, 0, 0, 0, 0,
       1 / 1000, 1 / 125, -1 / 100, -1 / 25, 7 / 200, 13 / 125, -17 / 250, -4 / 25, 17 / 200, 4 / 25] := by
  decide +kernel

/-- R82. -/
theorem test_listing :
    listingLine (.bBlock 2 [⟨0, 0⟩, ⟨1 / 8, -1 / 4⟩]) = "B.BLOCK 2: (0, 0), (1/8, -1/4)" ∧
    listingLine .cicIntz = "CIC.INTZ" := by decide +kernel

/-! ### Operations on zero input, which the witnesses below use -/

theorem intsOfWords_zero : intsOfWords ⟨0, 0⟩ = ⟨0, 0⟩ := by simp [intsOfWords, Rails.map]

theorem quiet_reset : State.reset.b.Quiet := ⟨rfl, rfl, rfl⟩

theorem zero_aPre : operationA (.aPre 0) StateA.zero = ⟨[.sample 0], some StateA.zero⟩ := by
  simp [operationA, preFilter_zero Config.cfg_wf]

theorem zero_aQnt : operationA (.aQnt 0) StateA.zero = ⟨[.intA 0], some StateA.zero⟩ := by
  simp [operationA, quantiseA_zero Config.cfg_wf]

theorem zero_aIirx :
    operationA (.aIirx 0) StateA.zero = ⟨[.code Config.cfg.dcOffset.toNat], some StateA.zero⟩ := by
  simp [operationA, iirExcited_zero Config.cfg_wf, Run.results]

theorem zero_aIirf : operationA .aIirf StateA.zero = ⟨[.code Config.cfg.dcOffset.toNat], some StateA.zero⟩ := by
  simp [operationA, iirFree_zero Config.cfg_wf, Run.results]

theorem zero_aPush : operationA (.aPush 0) StateA.zero =
    ⟨List.replicate Config.cfg.m (.code Config.cfg.dcOffset.toNat), some StateA.zero⟩ := by
  simp [operationA, pushA_zero Config.cfg_wf, Run.results, List.flatMap_replicate]

theorem zero_zs2 (b : StateB) :
    operationB (.zs2 ⟨0, 0⟩) b = ⟨[.sample 0, .sample 0, .sample 0, .sample 0], some b⟩ := rfl

theorem zero_firPush {b : StateB} (hb : b.dl = ⟨Memory.empty, Memory.empty⟩) :
    operationB (.firPush ⟨0, 0⟩) b = ⟨[.sample 0, .sample 0], some { b with cur := advance b.cur }⟩ := by
  simp [operationB, firPush_zero Config.cfg_wf hb, railsResult]

theorem zero_cicQnt (b : StateB) : operationB (.cicQnt ⟨0, 0⟩) b = ⟨[.intB 0, .intB 0], some b⟩ := by
  simp [operationB, quantiseB_zero Config.cfg_wf, Run.results, railsResult]

theorem zero_cicComb {b : StateB} (hb : b.cb = ⟨Chain.zero, Chain.zero⟩) :
    operationB (.cicComb ⟨0, 0⟩) b = ⟨[.intB 0, .intB 0], some b⟩ := by
  simp only [operationB, intsOfWords_zero, combPass_zero hb]
  rfl

theorem zero_cicInt {b : StateB} (hb : b.Quiet) :
    operationB (.cicInt ⟨0, 0⟩) b = ⟨[.intB 0, .intB 0], some b⟩ := by
  simp only [operationB, intsOfWords_zero, integratorPass_zero hb.2.2]
  rfl

theorem zero_cicIntz {b : StateB} (hb : b.Quiet) :
    operationB .cicIntz b = ⟨[.intB 0, .intB 0], some b⟩ := by
  simp [operationB, integratorZero, integratorPass_zero hb.2.2, Run.results, railsResult]

theorem zero_mix (b : StateB) :
    operationB (.mix ⟨0, 0⟩) b = ⟨[.sample 0], some { b with ph := nextPhase b.ph }⟩ := by
  simp only [operationB, intsOfWords_zero, mixSample_zero Config.cfg_wf]
  rfl

theorem zero_bPush {b : StateB} (hb : b.Quiet) :
    ∃ b', operationB (.bPush ⟨0, 0⟩) b = ⟨List.replicate 10 (.sample 0), some b'⟩ ∧ b'.Quiet := by
  obtain ⟨b', e, h⟩ := pushB_zero Config.cfg_wf hb
  exact ⟨b', by simp [operationB, e, Run.results], h⟩

theorem zero_blockB (k : Nat) {b : StateB} (hb : b.Quiet) :
    ∃ vs b', Run.forEach operationB (List.replicate k (.bPush ⟨0, 0⟩)) b = ⟨vs, some b'⟩ ∧ b'.Quiet := by
  induction k generalizing b with
  | zero => exact ⟨[], b, rfl, hb⟩
  | succ k ih =>
    obtain ⟨b1, e1, h1⟩ := zero_bPush hb
    obtain ⟨vs, b', e, h⟩ := ih h1
    exact ⟨_, b', by rw [List.replicate_succ, Run.forEach_cons, e1, Run.andThen_mk_some, e], h⟩

theorem operationB_bBlock_zero (cnt : Count) (k : Nat) (b : StateB) :
    operationB (.bBlock cnt (List.replicate k ⟨0, 0⟩)) b =
      Run.forEach operationB (List.replicate k (.bPush ⟨0, 0⟩)) b := by
  show (Run.forEach (pushB Config.cfg) _ b).results _ = _
  induction k generalizing b with
  | zero => rfl
  | succ k ih =>
    rw [List.replicate_succ, List.replicate_succ, Run.forEach_cons, Run.forEach_cons, Run.results_andThen]
    exact congrArg _ (funext ih)

/-- One chunk of zeros from a quiet Component B. -/
theorem exec_zero_chunk {s : State} (hf : s.st.ovfB = false) (hq : s.b.Quiet) :
    ∃ t, exec (.bBlock 1 (List.replicate (Config.cfg.ducN / 10) ⟨0, 0⟩)) s = .next t ∧ t.st.ovfB = false ∧
      t.b.Quiet := by
  obtain ⟨vs, b', e, h⟩ := zero_blockB (Config.cfg.ducN / 10) hq
  exact ⟨_, exec_of_operationB rfl (by simp [Instr.WellFormed, Instr.wellFormed, chunkLength]) hf
    ((operationB_bBlock_zero _ _ _).trans e), hf, h⟩

theorem runsUnitB {i : Instr} (hc : i.component = .b) (hw : i.WellFormed) {s : State} {b : StateB}
    {vs : List Result} (hf : s.st.ovfB = false) (h : operationB i s.b = ⟨vs, some b⟩) :
    RunsUnit i s vs { s with b := b, output := s.output ++ vs } :=
  ⟨exec_of_operationB hc hw hf h, rfl, rfl⟩

theorem zero_passByUnits {i : Instr} (hi : i = .cicIntz ∨ i = .cicInt ⟨0, 0⟩) {s : State}
    (hf : s.st.ovfB = false) (hq : s.b.Quiet) :
    ∃ t, PassByUnits i s 0 t ∧ t.st.ovfB = false ∧ t.b.Quiet := by
  have h1 : RunsUnit i s (railsResult .intB (intsOfWords ⟨0, 0⟩)) { s with output := s.output ++ [.intB 0, .intB 0] } := by
    rw [intsOfWords_zero]
    rcases hi with rfl | rfl
    · exact runsUnitB rfl rfl hf (zero_cicIntz hq)
    · exact runsUnitB rfl rfl hf (zero_cicInt hq)
  exact ⟨_, ⟨⟨0, 0⟩, _, h1, runsUnitB rfl rfl hf (zero_mix _)⟩, hf, hq⟩

theorem zero_zeroPassesByUnits (n : Nat) {s : State} (hf : s.st.ovfB = false) (hq : s.b.Quiet) :
    ∃ t, ZeroPassesByUnits s (List.replicate n 0) t ∧ t.st.ovfB = false ∧ t.b.Quiet := by
  induction n generalizing s with
  | zero => exact ⟨s, rfl, hf, hq⟩
  | succ n ih =>
    obtain ⟨s', h1, f1, q1⟩ := zero_passByUnits (.inl rfl) hf hq
    obtain ⟨t, h2, f2, q2⟩ := ih f1 q1
    exact ⟨t, ⟨s', h1, h2⟩, f2, q2⟩

theorem zero_stuffedByUnits {s : State} (hf : s.st.ovfB = false) (hq : s.b.Quiet) :
    ∃ t, StuffedByUnits ⟨0, 0⟩ s (List.replicate 5 0) t ∧ t.st.ovfB = false ∧ t.b.Quiet := by
  have h1 := runsUnitB (i := .firPush ⟨0, 0⟩) rfl rfl hf (zero_firPush hq.1)
  have h2 := fun (s : State) (hf : s.st.ovfB = false) => runsUnitB (i := .cicQnt ⟨0, 0⟩) rfl rfl hf (zero_cicQnt _)
  have h3 := fun (s : State) (hf : s.st.ovfB = false) (hq : s.b.Quiet) =>
    runsUnitB (i := .cicComb ⟨0, 0⟩) rfl rfl hf (zero_cicComb hq.2.1)
  generalize he : ({ s with b := { s.b with cur := advance s.b.cur },
                            output := s.output ++ [.sample 0, .sample 0] } : State) = s1 at h1
  have f1 : s1.st.ovfB = false := by rw [← he]; exact hf
  have q1 : s1.b.Quiet := by rw [← he]; exact hq
  obtain ⟨s4, h4, f4, q4⟩ := zero_passByUnits (i := .cicInt ⟨0, 0⟩) (.inr rfl)
    (s := { s1 with output := s1.output ++ [.intB 0, .intB 0] ++ [.intB 0, .intB 0] }) f1 q1
  obtain ⟨t, h5, f5, q5⟩ := zero_zeroPassesByUnits 4 f4 q4
  refine ⟨t, ⟨⟨0, 0⟩, ⟨0, 0⟩, ⟨0, 0⟩, s1, { s1 with output := s1.output ++ [.intB 0, .intB 0] }, _, s4, 0,
    List.replicate 4 0, h1, ?_, ?_, h4, h5, rfl, rfl⟩, f5, q5⟩
  · rw [intsOfWords_zero]; exact h2 s1 f1
  · rw [intsOfWords_zero]; exact h3 { s1 with output := s1.output ++ [.intB 0, .intB 0] } f1 q1

/-! ### Witnesses: reset, the port, the step -/

/-- `A.PRE` without its operand has arrived, and then the reset event. -/
theorem test_witness_ResetEventAbandonsAndZeroes :
    decode [0x10] = .incomplete ∧
    ({ State.reset with input := [.beat 0x10, .reset] } : State).input = [0x10].map .beat ++ .reset :: [] :=
  ⟨rfl, rfl⟩

/-- A state with a command to run in which both flags are clear. -/
theorem test_witness_EveryStepKeepsTheInvariant :
    (State.present [.beat 0x13]).Inv ∧ (State.present [.beat 0x13]).st.clear = true ∧
    step (State.present [.beat 0x13]) = .next { State.reset with output := [.code Config.cfg.dcOffset.toNat] } := by
  have h0 := InWidth.zero
  have hz := Config.cfg_wf.num_lawful.zero_mem
  refine ⟨⟨Memory.wf_empty, Memory.wf_empty, fun _ => ⟨h0 _, h0 _⟩, fun _ => ?_, fun _ => ⟨hz, hz⟩,
    fun _ _ => ⟨hz, hz⟩, fun _ => ⟨fun _ => rfl, fun _ => rfl⟩⟩, rfl, ?_⟩
  · exact ⟨⟨h0 _, h0 _, h0 _, h0 _⟩, ⟨h0 _, h0 _, h0 _, h0 _⟩, ⟨h0 _, h0 _, h0 _, h0 _⟩, h0 _, h0 _, h0 _, h0 _⟩
  · show exec .aIirf State.reset = _
    exact exec_of_operationA rfl rfl rfl zero_aIirf

theorem test_witness_DecodeGivesBackEncode :
    (Instr.bBlock 1 (List.replicate (Config.cfg.ducN / 10) ⟨0, 0⟩)).WellFormed ∧
    (Instr.bBlock 1 (List.replicate (Config.cfg.ducN / 10) ⟨0, 0⟩)).InCarrier ∧
    (Instr.aIirx 0).WellFormed ∧ (Instr.aIirx 0).InCarrier := by
  refine ⟨by simp [Instr.WellFormed, Instr.wellFormed, chunkLength], fun v hv => ?_, rfl, by
    simp [Instr.InCarrier, Instr.samples]⟩
  have : v = 0 := by
    simp only [Instr.samples, List.mem_flatMap, List.mem_replicate] at hv
    obtain ⟨z, ⟨-, rfl⟩, hv⟩ := hv
    simpa using hv
  exact this ▸ Config.cfg_wf.num_lawful.zero_mem

/-- A number system with a finite `W_S` (8 bits), and what its port carries: the ends of the range and no
further. -/
theorem test_finite_sample_port :
    Cfg.byte.wS = 8 ∧ Cfg.byte.decS (Cfg.byte.encS (-128)) = -128 ∧ Cfg.byte.decS (Cfg.byte.encS 127) = 127 ∧
    Cfg.byte.decS (Cfg.byte.encS 128) ≠ 128 ∧ Cfg.byte.Wf ∧ Cfg.byte.PortWf :=
  ⟨rfl, by decide +kernel, by decide +kernel, by decide +kernel, Cfg.byte_wf, Cfg.byte_portWf⟩

/-- R77: the port carries `W_S` bits of a sample, so a beat counts modulo `2 ^ W_S`. -/
theorem test_sample_beat_width (n : Beat) : sampleOfBeat (n + 2 ^ Config.cfg.wS) = sampleOfBeat n := by
  simp only [sampleOfBeat, show BitVec.ofNat Config.cfg.wS (n + 2 ^ Config.cfg.wS) = BitVec.ofNat _ n from
    BitVec.eq_of_toNat_eq (by simp)]

theorem test_witness_PortFormsOnlyWellFormedCommands :
    decode [0x13, 7] = .command .aIirf [7] ∧ ¬(Instr.aBlock []).WellFormed :=
  ⟨rfl, test_aBlock_too_short_is_ill_formed⟩

theorem test_witness_StepRunsTheDecodedCommand :
    decode (leadingBeats [.beat 0x13, .beat 7, .reset]).1 = .command .aIirf [7] := rfl

theorem test_witness_StepRunsTheCommandPutToThePort :
    Instr.aIirf.WellFormed ∧ Instr.aIirf.InCarrier ∧
    (State.present [.beat 0x13, .reset]).input = (encode .aIirf).map .beat ++ [.reset] :=
  ⟨rfl, by simp [Instr.InCarrier, Instr.samples], by decide⟩

/-- V-E4: the all-zero word. -/
theorem test_witness_ReservedWordSetsIllOnly :
    (∀ h, decodeWord (BitVec.ofNat 32 0) ≠ .ok h) ∧ (State.present [.beat 0, .beat 7]).input = .beat 0 :: [.beat 7] :=
  ⟨fun h e => by
    rw [show decodeWord (BitVec.ofNat 32 0) = .error (.noSuchOpcode 0) by decide] at e
    exact absurd e (by simp), rfl⟩

/-- Nothing at the port, and a command with an operand missing. -/
theorem test_witness_BlockWaitsForAWholeCommand :
    decode [] = .incomplete ∧ decode [0x21, 5] = .incomplete := ⟨rfl, rfl⟩

/-- A value of each kind, at the ends of its range. -/
theorem test_witness_ResultBeatsReadBack :
    InWidth 16 (-32768) ∧ InWidth 16 32767 ∧ ¬InWidth 16 32768 ∧ InWidth 32 (-2147483648) ∧
    Config.cfg.num.carrier 0 ∧ beatOfResult Cfg.reference (.code 255) = 255 ∧
    beatOfResult Cfg.reference (.intA (-1)) = 65535 :=
  ⟨by decide, by decide, by decide, by decide, Config.cfg_wf.num_lawful.zero_mem, by decide +kernel,
    by decide +kernel⟩

/-- A command the port forms; the other premises are those of `test_witness_EveryStepKeepsTheInvariant`. -/
theorem test_witness_ValuesOnThePortsFit (x : Beat) :
    decode [0x10, x, 7] = .command (.aPre (sampleOfBeat x)) [7] := rfl

/-! ### Witnesses: Component A -/

/-- The premises of `PreFilterStep`, `PreFilterOverAStream`, `QuantiserOfAStep` and `FreeIirPass`. -/
theorem test_witness_componentA_at_reset :
    State.reset.st.ovfA = false ∧ State.reset.a.f1 = 0 ∧ State.reset.a.f2 = 0 ∧ State.reset.a = StateA.zero :=
  ⟨rfl, rfl, rfl, rfl⟩

/-- The check of `QuantiserOfAStep` passes on zero. -/
theorem test_witness_QuantiserOfAStep :
    InWidth Config.cfg.wIir (Config.cfg.quantA (Config.cfg.num.rmul 0 Config.cfg.aScale)) := by
  rw [Config.cfg_wf.num_lawful.zero_mul _ Config.cfg_wf.aScale_mem, Config.cfg_wf.quantA_law.zero]
  exact InWidth.zero _

/-- Both outcomes of an IIR pass: the checks pass at reset, and in the reference configuration the code 156
fails them (V-A9). -/
theorem test_witness_ExcitedIirPass :
    IirFits Config.cfg (0 : WordA).toInt State.reset.a ∧ ¬IirFits Cfg.reference 156 StateA.zero := by
  refine ⟨?_, by decide⟩
  rw [show (0 : WordA).toInt = 0 from BitVec.toInt_zero]
  exact iirFits_zero Config.cfg_wf

theorem test_witness_FreeIirPass :
    IirFits Config.cfg 0 State.reset.a ∧ ¬IirFits { Cfg.reference with wIir := 8 } 0 ⟨0, 0, 50, 0⟩ :=
  ⟨iirFits_zero Config.cfg_wf, by decide⟩

/-- The premises of `PushAFollowsTheRecursion` with `n` all zero: every check passes. A failing quantiser
and a failing code are in `test_pushA_overflow_slots`. -/
theorem test_witness_PushAFollowsTheRecursion :
    0 = Config.cfg.quantA (Config.cfg.num.rmul
      (Config.cfg.num.radd 0 (Config.cfg.num.rmul State.reset.a.f2 Config.cfg.beta2)) Config.cfg.aScale) ∧
    InWidth Config.cfg.wIir 0 ∧
    ∀ k, k < Config.cfg.m →
      (0 : Int) = (if k = 0 then 0 else 0) + asr (Config.cfg.b1n * 0) Config.cfg.shift
        - asr (Config.cfg.b1 * 0) Config.cfg.shift ∧
      IirFits Config.cfg (if k = 0 then 0 else 0) ⟨0, 0, 0, 0⟩ := by
  have hw := Config.cfg_wf
  refine ⟨?_, InWidth.zero _, fun k _ => ⟨by simp, by rw [ite_self]; exact iirFits_zero hw⟩⟩
  rw [show State.reset.a.f2 = 0 from rfl, hw.num_lawful.zero_mul _ hw.beta2_mem, hw.num_lawful.add_zero_zero,
    hw.num_lawful.zero_mul _ hw.aScale_mem, hw.quantA_law.zero]

/-- Where an `A.PUSH` or an `A.BLOCK` of the reference configuration overflows: the quantiser (`4 * 10000`
exceeds 16 bits), the first code (256), the second code (255 and then `-117 + 100`), and the second code of
the second sample; the codes before stand. -/
theorem test_pushA_overflow_slots :
    pushA Cfg.reference 10000 StateA.zero = ⟨[], none⟩ ∧ pushA Cfg.reference 39 StateA.zero = ⟨[], none⟩ ∧
    pushA Cfg.reference (155 / 4) StateA.zero = ⟨[255], none⟩ ∧
    blockA Cfg.reference [0, 155 / 4, 0] StateA.zero = ⟨[100, 100, 100, 255], none⟩ := by decide +kernel

/-- The premises of `BlockAFollowsTheRecursion` on a block of zeros, with `x`, `u` and `n` all zero. -/
theorem test_witness_BlockAFollowsTheRecursion :
    (List.replicate Config.cfg.ducN (0 : Sample)).length = Config.cfg.ducN ∧
    (∀ j, j < Config.cfg.ducN → (0 : Sample) = (List.replicate Config.cfg.ducN (0 : Sample)).getD j 0) ∧
    0 = Config.cfg.quantA (Config.cfg.num.rmul
      (Config.cfg.num.radd 0 (Config.cfg.num.rmul 0 Config.cfg.beta2)) Config.cfg.aScale) ∧
    IirFits Config.cfg 0 ⟨0, 0, 0, 0⟩ :=
  ⟨by simp, fun j hj => by simp [List.getD_eq_getElem?_getD, hj], test_witness_PushAFollowsTheRecursion.1,
    iirFits_zero Config.cfg_wf⟩

/-- The unit commands of `A.PUSH 0`, one by one from reset. -/
theorem test_witness_PushAEqualsItsUnits :
    ∃ (s1 s2 t : State) (codes : List Nat), RunsUnit (.aPre 0) State.reset [.sample 0] s1 ∧
      RunsUnit (.aQnt 0) s1 [.intA (0 : WordA).toInt] s2 ∧
      execAll (.aIirx 0 :: List.replicate (Config.cfg.m - 1) .aIirf) s2 = .next t ∧ t.st.ovfA = false ∧
      t.output = s2.output ++ codes.map .code := by
  have free : ∀ (n : Nat) (s : State), s.st.ovfA = false → s.a = StateA.zero →
      execAll (List.replicate n .aIirf) s = .next { s with
        output := s.output ++ List.replicate n (.code Config.cfg.dcOffset.toNat) } := by
    intro n
    induction n with
    | zero => intro s _ _; simp [execAll]
    | succ n ih =>
      intro s hf ha
      rw [List.replicate_succ, execAll_cons (exec_of_operationA rfl rfl hf (by rw [ha]; exact zero_aIirf))]
      refine (ih _ (by exact hf) rfl).trans ?_
      simp [List.replicate_succ, ← ha]
  refine ⟨{ State.reset with output := [.sample 0] }, { State.reset with output := [.sample 0, .intA 0] },
    { State.reset with
      output := [.sample 0, .intA 0] ++ [.code Config.cfg.dcOffset.toNat] ++
        List.replicate (Config.cfg.m - 1) (.code Config.cfg.dcOffset.toNat) },
    Config.cfg.dcOffset.toNat :: List.replicate (Config.cfg.m - 1) Config.cfg.dcOffset.toNat,
    ⟨exec_of_operationA rfl rfl rfl zero_aPre, rfl, rfl⟩,
    ⟨exec_of_operationA (s := { State.reset with output := [.sample 0] }) rfl rfl rfl zero_aQnt, rfl, ?_⟩, ?_, rfl, ?_⟩
  · rw [show (0 : WordA).toInt = 0 from BitVec.toInt_zero]; rfl
  · exact (execAll_cons (exec_of_operationA (s := { State.reset with output := [.sample 0, .intA 0] }) rfl rfl rfl
      zero_aIirx)).trans (free _ _ rfl rfl)
  · simp

theorem exec_zero_pushes (k : Nat) {s : State} (hf : s.st.ovfA = false) (ha : s.a = StateA.zero) :
    ∃ t, execAll ((List.replicate k 0).map .aPush) s = .next t ∧ t.st.ovfA = false ∧ t.a = StateA.zero := by
  induction k generalizing s with
  | zero => exact ⟨s, rfl, hf, ha⟩
  | succ k ih =>
    obtain ⟨t, h⟩ := ih (s := { s with
      output := s.output ++ List.replicate Config.cfg.m (.code Config.cfg.dcOffset.toNat) }) hf ha
    refine ⟨t, ?_, h.2⟩
    rw [List.replicate_succ, List.map_cons,
      execAll_cons (exec_of_operationA rfl rfl hf (by rw [ha]; exact zero_aPush)), ← ha]
    exact h.1

theorem test_witness_BlockAEqualsItsPushes :
    ∃ t, execAll ((List.replicate Config.cfg.ducN 0).map .aPush) State.reset = .next t ∧ t.st.ovfA = false ∧
      (List.replicate Config.cfg.ducN (0 : Sample)).length = Config.cfg.ducN := by
  obtain ⟨t, h, hf, -⟩ := exec_zero_pushes Config.cfg.ducN (s := State.reset) rfl rfl
  exact ⟨t, h, hf, by simp⟩

theorem test_witness_CountOfCodesOfA_push :
    ∃ t, exec (.aPush 0) State.reset = .next t ∧ t.st.ovfA = false :=
  ⟨_, exec_of_operationA rfl rfl rfl zero_aPush, rfl⟩

theorem test_witness_CountOfCodesOfA_block :
    ∃ t, exec (.aBlock (List.replicate Config.cfg.ducN 0)) State.reset = .next t ∧ t.st.ovfA = false := by
  have h : ∀ k, ∃ vs, (Run.forEach (pushA Config.cfg) (List.replicate k 0) StateA.zero) = ⟨vs, some StateA.zero⟩ := by
    intro k
    induction k with
    | zero => exact ⟨[], rfl⟩
    | succ k ih =>
      obtain ⟨vs, e⟩ := ih
      exact ⟨_, by rw [List.replicate_succ, Run.forEach_cons, pushA_zero Config.cfg_wf, Run.andThen_mk_some, e]⟩
  obtain ⟨vs, e⟩ := h Config.cfg.ducN
  exact ⟨_, exec_of_operationA (a := StateA.zero) rfl test_aBlock_is_well_formed rfl
    (congrArg (Run.results fun n => [.code n]) e), rfl⟩

/-! ### Witnesses: Component B -/

/-- The premises of the statements about one operation of Component B, of `FirOverAStreamIsTheConvolution`
and of `ZeroInputQuiescence`. -/
theorem test_witness_componentB_at_reset :
    State.reset.st.ovfB = false ∧ State.reset.b.Quiet ∧ State.reset.b.dl.re.wf ∧ State.reset.b.dl.im.wf ∧
    State.reset.b.Mir ∧ State.reset.b.dl.re = Memory.empty ∧ State.reset.b.dl.im = Memory.empty :=
  ⟨rfl, quiet_reset, Memory.wf_empty, Memory.wf_empty, ⟨fun _ => rfl, fun _ => rfl⟩, rfl, rfl⟩

theorem test_witness_FirPushShiftsTheHistory : ∃ t, exec (.firPush ⟨1, 2⟩) State.reset = .next t := ⟨_, rfl⟩

/-- Two operands that differ on the imaginary rail only; the second has equal rails. -/
theorem test_witness_FirRailsAreIndependent :
    (⟨1, 2⟩ : Rails Sample).re = (⟨1, 1⟩ : Rails Sample).re ∧ (⟨1, 2⟩ : Rails Sample).re = (⟨1, 1⟩ : Rails Sample).im ∧
    State.reset.b.dl.re = State.reset.b.dl.im ∧
    (∃ t, exec (.firPush ⟨1, 2⟩) State.reset = .next t) ∧ ∃ t, exec (.firPush ⟨1, 1⟩) State.reset = .next t :=
  ⟨rfl, rfl, rfl, ⟨_, rfl⟩, ⟨_, rfl⟩⟩

/-- Both outcomes of the three checked operations of the CIC: at reset on zero the checks pass; V-C1, V-C5
and P4 fail one. -/
theorem test_witness_QuantiserOfBStep :
    InWidth Config.cfg.wCic (Config.cfg.quantB (Config.cfg.num.rmul 0 Config.cfg.fixScale)) ∧ ¬InWidth 8 128 := by
  refine ⟨?_, by decide⟩
  rw [Config.cfg_wf.num_lawful.zero_mul _ Config.cfg_wf.fixScale_mem, Config.cfg_wf.quantB_law.zero]
  exact InWidth.zero _

theorem test_witness_CombStep :
    CombFits Config.cfg.wCic 0 State.reset.b.cb.re ∧ ¬CombFits 8 (-100) ⟨100, 100, 100, 100⟩ := by
  refine ⟨?_, by decide⟩
  have h0 := InWidth.zero Config.cfg.wCic
  exact ⟨h0, h0, h0, h0⟩

theorem test_witness_IntegratorStep :
    IntegratorFits Config.cfg.wCic 0 State.reset.b.it.re ∧ ¬IntegratorFits 8 0 ⟨-6, 4, 34, 104⟩ := by
  refine ⟨?_, by decide⟩
  have h0 := InWidth.zero Config.cfg.wCic
  exact ⟨h0, h0, h0, h0⟩

/-- Four combs of zero from reset, with `q` all zero. -/
theorem test_witness_CombIsTheFourthDifference :
    State.reset.b.cb = ⟨Chain.zero, Chain.zero⟩ ∧ intsOfWords ⟨0, 0⟩ = ⟨0, 0⟩ ∧
    ∃ t, execAll ([⟨0, 0⟩, ⟨0, 0⟩, ⟨0, 0⟩, ⟨0, 0⟩].map .cicComb) State.reset = .next t ∧ t.st.ovfB = false := by
  have h : ∀ s : State, s.st.ovfB = false → s.b.Quiet →
      ∃ t, exec (.cicComb ⟨0, 0⟩) s = .next t ∧ t.st.ovfB = false ∧ t.b.Quiet :=
    fun s hf hq => ⟨_, exec_of_operationB rfl rfl hf (zero_cicComb hq.2.1), hf, hq⟩
  obtain ⟨s1, e1, f1, q1⟩ := h State.reset rfl quiet_reset
  obtain ⟨s2, e2, f2, q2⟩ := h s1 f1 q1
  obtain ⟨s3, e3, f3, q3⟩ := h s2 f2 q2
  obtain ⟨s4, e4, f4, q4⟩ := h s3 f3 q3
  refine ⟨rfl, intsOfWords_zero, s4, ?_, f4⟩
  simp only [List.map_cons, List.map_nil]
  rw [execAll_cons e1, execAll_cons e2, execAll_cons e3, execAll_cons e4]
  rfl

/-- The largest impulse the reference width admits, and one that it does not. -/
theorem test_witness_CicImpulseResponse :
    StateB.zero.CicZero ∧ 125 * |(17179869 : Int)| ≤ 2 ^ (Cfg.reference.wCic - 1) - 1 ∧
    125 * |(-17179869 : Int)| ≤ 2 ^ (Cfg.reference.wCic - 1) - 1 ∧
    ¬(125 * |(17179870 : Int)| ≤ 2 ^ (Cfg.reference.wCic - 1) - 1) :=
  ⟨⟨rfl, rfl⟩, by decide, by decide, by decide⟩

/-- The same level held, read at the 13th pass, position 12. -/
theorem test_witness_CicSettlesAtGain125 :
    ∃ r, cicRun Cfg.reference (List.replicate 3 ⟨1, 0⟩) StateB.zero = some r ∧ r.2[12]? = some ⟨125, 0⟩ ∧
      r.2[11]? = some ⟨124, 0⟩ := by
  refine ⟨_, Option.some_get (by decide +kernel : (cicRun Cfg.reference _ _).isSome = true) |>.symm, ?_, ?_⟩ <;>
    decide +kernel

/-- A stream at the bound on both sides. -/
theorem test_witness_CicSizedNeverOverflows :
    StateB.zero.CicZero ∧ 125 * (17179869 : Int) ≤ 2 ^ (Cfg.reference.wCic - 1) - 1 ∧
    ∀ q ∈ [(⟨17179869, -17179869⟩ : Rails Int), ⟨-17179869, 0⟩], |q.re| ≤ 17179869 ∧ |q.im| ≤ 17179869 :=
  ⟨⟨rfl, rfl⟩, by decide, by decide⟩

/-- The reference configuration with the level `(3, -5)` times `1/1024`, and the CIC's output at the 13th pass
of the settled stream. -/
theorem test_witness_SteadyLevelPassesWithUnitGain :
    Cfg.reference.Wf ∧ Cfg.reference.num = Num.exact ∧ Cfg.reference.cicGain = 125 ∧
    (3 / 1024 : Rat) * Cfg.reference.fixScale = ((3 : Int) : Rat) ∧
    (-5 / 1024 : Rat) * Cfg.reference.fixScale = ((-5 : Int) : Rat) ∧
    125 * |(3 : Int)| ≤ 2 ^ (Cfg.reference.wCic - 1) - 1 ∧ 125 * |(-5 : Int)| ≤ 2 ^ (Cfg.reference.wCic - 1) - 1 ∧
    StateB.zero.CicZero ∧
    (cicRun Cfg.reference (List.replicate 3 ⟨3, -5⟩) StateB.zero).map (fun r => r.2[12]?) = some (some ⟨375, -625⟩) :=
  ⟨Cfg.reference_wf, rfl, rfl, by decide +kernel, by decide +kernel, by decide, by decide, ⟨rfl, rfl⟩,
    by decide +kernel⟩

/-- Each phase's clause of `MixStep`, on the operand `(3, 5)`, and both ways `MIX` overflows: the negation
of the most negative value of 8 bits at phases 0 and 3. -/
theorem test_witness_MixStep :
    (List.finRange 4).map (fun p => mixValue p ⟨3, 5⟩) = [-3, 5, 3, -5] ∧
    (∀ p : Fin 4, ({ State.reset with b := { StateB.zero with ph := p } } : State).st.ovfB = false) ∧
    ¬InWidth 8 (mixValue 0 ⟨-128, 0⟩) ∧ ¬InWidth 8 (mixValue 3 ⟨0, -128⟩) ∧ InWidth 8 (mixValue 2 ⟨-128, -128⟩) := by
  decide

/-- The most negative word is an operand of every width. -/
theorem test_most_negative_word : (BitVec.intMin Config.cfg.wCic).toInt = -2 ^ (Config.cfg.wCic - 1) := by
  have := Config.cfg_wf.wCic_ge
  rw [BitVec.toInt_intMin_of_pos (by omega)]

/-- `PhaseAndCursorCountOperations` on a `MIX`, a `FIR.PUSH` and a `B.PUSH` of zero. -/
theorem test_witness_PhaseAndCursorCountOperations :
    (∃ t, exec (.mix ⟨0, 0⟩) State.reset = .next t ∧ t.st.ovfB = false) ∧
    (∃ t, exec (.firPush ⟨0, 0⟩) State.reset = .next t ∧ t.st.ovfB = false) ∧
    ∃ t, exec (.bPush ⟨0, 0⟩) State.reset = .next t ∧ t.st.ovfB = false := by
  refine ⟨⟨_, exec_of_operationB rfl rfl rfl (zero_mix _), rfl⟩,
    ⟨_, exec_of_operationB rfl rfl rfl (zero_firPush quiet_reset.1), rfl⟩, ?_⟩
  obtain ⟨b', e, -⟩ := zero_bPush quiet_reset
  exact ⟨_, exec_of_operationB rfl rfl rfl e, rfl⟩

/-- The unit commands of `B.PUSH (0, 0)`, one by one from reset. -/
theorem test_witness_PushBEqualsItsUnits :
    ∃ s1 s2 t, RunsUnit (.zs2 ⟨0, 0⟩) State.reset [.sample 0, .sample 0, .sample 0, .sample 0] s1 ∧
      StuffedByUnits ⟨0, 0⟩ s1 (List.replicate 5 0) s2 ∧ StuffedByUnits ⟨0, 0⟩ s2 (List.replicate 5 0) t := by
  have h1 := runsUnitB (i := .zs2 ⟨0, 0⟩) (s := State.reset) rfl rfl rfl (zero_zs2 _)
  obtain ⟨s2, h2, f2, q2⟩ := zero_stuffedByUnits (s := { State.reset with
    output := State.reset.output ++ [.sample 0, .sample 0, .sample 0, .sample 0] }) rfl quiet_reset
  obtain ⟨t, h3, -, -⟩ := zero_stuffedByUnits f2 q2
  exact ⟨_, s2, t, h1, h2, h3⟩

theorem test_witness_BlockBEqualsItsPushes :
    ∃ t, execAll ((List.replicate (Config.cfg.ducN / 10) ⟨0, 0⟩).map .bPush) State.reset = .next t ∧
      t.st.ovfB = false ∧
      (List.replicate (Config.cfg.ducN / 10) (⟨0, 0⟩ : Rails Sample)).length =
        (1 : Count).toNat * (Config.cfg.ducN / 10) := by
  obtain ⟨vs, b', e, -⟩ := zero_blockB (Config.cfg.ducN / 10) quiet_reset
  rw [List.map_replicate]
  refine ⟨_, execAll_of_forEachB (b := b') ?_ rfl (by rw [e]), rfl, by simp⟩
  intro i hi
  obtain ⟨-, rfl⟩ := List.mem_replicate.1 hi
  exact ⟨rfl, rfl⟩

/-! A state in which `B.PUSH (0, 0)` overflows in any configuration, at the `MIX` after its first: the last
real integrator holds the most negative value, and the phase is 3. -/

def lowIntegrator : StateB where
  dl := ⟨Memory.empty, Memory.empty⟩
  cur := 0
  cb := ⟨Chain.zero, Chain.zero⟩
  it := ⟨⟨0, 0, 0, -2 ^ (Config.cfg.wCic - 1)⟩, Chain.zero⟩
  ph := 3

/-- What that integrator emits, as the operand of `MIX`. -/
def lowWord : Rails WordB := ⟨BitVec.intMin _, 0⟩

/-- A state that differs from it in the cursor and the phase alone. -/
def Low (ph : Fin 4) (s : State) : Prop :=
  s.st.ovfB = false ∧ s.b.dl = lowIntegrator.dl ∧ s.b.cb = lowIntegrator.cb ∧ s.b.it = lowIntegrator.it ∧ s.b.ph = ph

theorem intsOfWords_lowWord : intsOfWords lowWord = ⟨-2 ^ (Config.cfg.wCic - 1), 0⟩ := by
  have h := Config.cfg_wf.wCic_ge
  simp only [intsOfWords, Rails.map, lowWord, BitVec.toInt_intMin_of_pos (show 0 < Config.cfg.wCic by omega)]
  rw [show (0 : WordB).toInt = 0 from BitVec.toInt_zero]

theorem integratorPass_low {b : StateB} (hb : b.it = lowIntegrator.it) :
    integratorPass Config.cfg ⟨0, 0⟩ b = some (b, intsOfWords lowWord) := by
  obtain ⟨dl, cur, cb, it, ph⟩ := b
  obtain rfl := hb
  have h0 := InWidth.zero Config.cfg.wCic
  have hp := two_pow_pos (Config.cfg.wCic - 1)
  rw [intsOfWords_lowWord]
  refine integratorPass_eq_some.2 ⟨?_, ?_, ?_⟩ <;>
    simp only [lowIntegrator, IntegratorFits, integratorChain, Chain.zero, add_zero]
  · exact ⟨h0, h0, h0, by omega⟩
  · exact ⟨h0, h0, h0, h0⟩

theorem low_integrator {i : Instr} (hi : i = .cicInt ⟨0, 0⟩ ∨ i = .cicIntz) {ph : Fin 4} {s : State} (h : Low ph s) :
    ∃ t, RunsUnit i s (railsResult .intB (intsOfWords lowWord)) t ∧ Low ph t := by
  rcases hi with rfl | rfl
  · exact ⟨_, runsUnitB (b := s.b) rfl rfl h.1 (by
      simp only [operationB, intsOfWords_zero, integratorPass_low h.2.2.2.1]; rfl), h⟩
  · exact ⟨_, runsUnitB (b := s.b) rfl rfl h.1 (by
      simp only [operationB, integratorZero, integratorPass_low h.2.2.2.1]; rfl), h⟩

theorem low_mix {s : State} (h : Low 3 s) : ∃ t, RunsUnit (.mix lowWord) s [.sample 0] t ∧ Low 0 t := by
  have hm : mixValue s.b.ph (intsOfWords lowWord) = 0 := by
    rw [h.2.2.2.2, intsOfWords_lowWord]
    simp [mixValue, cosTable, sinTable]
  have hr : mixSample Config.cfg (intsOfWords lowWord) s.b = some ({ s.b with ph := nextPhase s.b.ph }, 0) :=
    mixSample_eq_some.2 ⟨by rw [hm]; exact InWidth.zero _,
      by rw [hm, Config.cfg_wf.num_lawful.rofint_zero, Config.cfg_wf.zero_div]⟩
  refine ⟨_, runsUnitB (b := { s.b with ph := nextPhase s.b.ph }) rfl rfl h.1 (by simp only [operationB, hr]; rfl),
    h.1, h.2.1, h.2.2.1, h.2.2.2.1, ?_⟩
  show nextPhase s.b.ph = 0
  rw [h.2.2.2.2]
  rfl

theorem low_mix_overflows {s : State} (h : Low 0 s) : OverflowsB (.mix lowWord) s := by
  have hp := two_pow_pos (Config.cfg.wCic - 1)
  have hn : mixSample Config.cfg (intsOfWords lowWord) s.b = none := by
    rw [Option.eq_none_iff_forall_ne_some]
    intro r hr
    have hm := (mixSample_eq_some.1 hr).1
    rw [h.2.2.2.2, intsOfWords_lowWord] at hm
    simp only [mixValue, cosTable, sinTable] at hm
    omega
  refine ⟨_, rfl, ?_⟩
  rw [State.runB_none h.1 (by rw [hn]; rfl)]
  rfl

theorem low_zs2 {s : State} (h : Low 3 s) :
    ∃ t, RunsUnit (.zs2 ⟨0, 0⟩) s [.sample 0, .sample 0, .sample 0, .sample 0] t ∧ Low 3 t :=
  ⟨_, runsUnitB rfl rfl h.1 (zero_zs2 _), h⟩

theorem low_firPush {s : State} (h : Low 3 s) :
    ∃ t, RunsUnit (.firPush ⟨0, 0⟩) s (railsResult .sample ⟨0, 0⟩) t ∧ Low 3 t :=
  ⟨_, runsUnitB rfl rfl h.1 (zero_firPush h.2.1), h⟩

theorem low_cicQnt {s : State} (h : Low 3 s) :
    ∃ t, RunsUnit (.cicQnt ⟨0, 0⟩) s (railsResult .intB (intsOfWords ⟨0, 0⟩)) t ∧ Low 3 t := by
  rw [intsOfWords_zero]
  exact ⟨_, runsUnitB rfl rfl h.1 (zero_cicQnt _), h⟩

theorem low_cicComb {s : State} (h : Low 3 s) :
    ∃ t, RunsUnit (.cicComb ⟨0, 0⟩) s (railsResult .intB (intsOfWords ⟨0, 0⟩)) t ∧ Low 3 t := by
  rw [intsOfWords_zero]
  exact ⟨_, runsUnitB rfl rfl h.1 (zero_cicComb h.2.2.1), h⟩

theorem test_witness_PushBStopsAtAFailingUnit {s : State} (h : Low 3 s) : PushBOverflows ⟨0, 0⟩ s [0] := by
  obtain ⟨s1, r1, h1⟩ := low_zs2 h
  obtain ⟨s2, r2, h2⟩ := low_firPush h1
  obtain ⟨s3, r3, h3⟩ := low_cicQnt h2
  obtain ⟨s4, r4, h4⟩ := low_cicComb h3
  obtain ⟨s5, r5, h5⟩ := low_integrator (.inl rfl) h4
  obtain ⟨s6, r6, h6⟩ := low_mix h5
  obtain ⟨s7, r7, h7⟩ := low_integrator (.inr rfl) h6
  exact ⟨s1, r1, .inl ⟨_, s2, r2, .inr ⟨_, s3, r3, .inr ⟨_, s4, r4, .inr
    ⟨0, [], s6, ⟨lowWord, s5, r5, r6⟩, .inl ⟨.inr ⟨lowWord, s7, r7, low_mix_overflows h7⟩, rfl⟩, rfl⟩⟩⟩⟩⟩

/-- A chunk of zeros of which the first overflows. -/
theorem test_witness_BlockBStopsAtAFailingUnit :
    let s : State := { State.reset with b := lowIntegrator }
    ([] ++ (⟨0, 0⟩ : Rails Sample) :: List.replicate (Config.cfg.ducN / 10 - 1) ⟨0, 0⟩).length =
      (1 : Count).toNat * (Config.cfg.ducN / 10) ∧
    execAll (([] : List (Rails Sample)).map .bPush) s = .next s ∧ PushBOverflows ⟨0, 0⟩ s [0] := by
  have := Config.cfg_wf.ducN_pos
  refine ⟨?_, rfl, test_witness_PushBStopsAtAFailingUnit ⟨rfl, rfl, rfl, rfl, rfl⟩⟩
  simp
  omega

/-- Two chunks of zeros; the counts at the top of their range would not add up. -/
theorem test_witness_ConsecutiveBlocksAreOneBlock :
    ∃ t, execAll [.bBlock 1 (List.replicate (Config.cfg.ducN / 10) ⟨0, 0⟩),
        .bBlock 1 (List.replicate (Config.cfg.ducN / 10) ⟨0, 0⟩)] State.reset = .next t ∧ t.st.ovfB = false ∧
      (1 : Count).toNat + (1 : Count).toNat < 2 ^ 24 ∧ ¬((0xFFFFFF : Count).toNat + (1 : Count).toNat < 2 ^ 24) := by
  obtain ⟨s1, h1, f1, q1⟩ := exec_zero_chunk (s := State.reset) rfl quiet_reset
  obtain ⟨t, h2, f2, -⟩ := exec_zero_chunk f1 q1
  exact ⟨t, by rw [execAll_cons h1, execAll_cons h2]; rfl, f2, by decide, by decide⟩

theorem test_witness_CountOfSamplesOfB :
    ∃ t, exec (.bBlock 1 (List.replicate (Config.cfg.ducN / 10) ⟨0, 0⟩)) State.reset = .next t ∧
      t.st.ovfB = false := by
  obtain ⟨t, h, f, -⟩ := exec_zero_chunk (s := State.reset) rfl quiet_reset
  exact ⟨t, h, f⟩

/-- One sample of zero, and one chunk of zeros for `B.BLOCK` with count 1, with the bound 0. -/
theorem test_witness_SizedStreamsThroughBComplete :
    State.reset.b.Quiet ∧ 125 * (0 : Int) ≤ 2 ^ (Config.cfg.wCic - 1) - 1 ∧
    (∀ k, ∀ q ∈ quantisedStream Config.cfg (List.replicate k ⟨0, 0⟩), |q.re| ≤ 0 ∧ |q.im| ≤ 0) ∧
    (List.replicate 1 (⟨0, 0⟩ : Rails Sample) = [⟨0, 0⟩]) ∧
    (List.replicate (Config.cfg.ducN / 10) (⟨0, 0⟩ : Rails Sample)).length =
      (1 : Count).toNat * (Config.cfg.ducN / 10) ∧ 0 < Config.cfg.ducN / 10 := by
  have hw := Config.cfg_wf
  refine ⟨quiet_reset, by have := two_pow_pos (Config.cfg.wCic - 1); omega, fun k q hq => ?_, rfl, by simp,
    by have := hw.ducN_pos; omega⟩
  obtain ⟨n, hn, rfl⟩ := List.mem_map.1 hq
  have hz : ∀ m, (stuffedStream (List.replicate k ⟨0, 0⟩)).getD m ⟨0, 0⟩ = ⟨0, 0⟩ := by
    intro m
    rw [List.getD_eq_getElem?_getD]
    cases h : (stuffedStream (List.replicate k ⟨0, 0⟩))[m]? with
    | none => rfl
    | some z =>
      obtain ⟨y, hy, hz⟩ := List.mem_flatMap.1 (List.mem_of_getElem? h)
      obtain ⟨-, rfl⟩ := List.mem_replicate.1 hy
      simpa using hz
  have hf : ∀ l : List (Fin 21), l.foldl (fun y _ => Config.cfg.num.radd y 0) 0 = 0 := by
    intro l
    induction l with
    | nil => rfl
    | cons k l ih => rw [List.foldl_cons, hw.num_lawful.add_zero_zero]; exact ih
  have hr : firResponse Config.cfg (stuffedStream (List.replicate k ⟨0, 0⟩)) n = ⟨0, 0⟩ := by
    simp only [firResponse, hz, ite_self, hw.num_lawful.mul_zero _ (hw.h_mem _), hf]
  simp [hr, Rails.map, hw.num_lawful.zero_mul _ hw.fixScale_mem, hw.quantB_law.zero]

/-! ### Witnesses: flags, frames and the two components -/

/-- Each unit command runs from reset on zero and leaves its flag clear: the premises of
`CommandsLeaveTheOtherComponent`, `AccessMatrix` and `FlagsSetOnlyByTheirOperations`. -/
theorem test_witness_AccessMatrix_componentA :
    (∃ t, exec (.aPre 0) State.reset = .next t ∧ t.st.ovfA = false) ∧
    (∃ t, exec (.aQnt 0) State.reset = .next t ∧ t.st.ovfA = false) ∧
    (∃ t, exec (.aIirx 0) State.reset = .next t ∧ t.st.ovfA = false) ∧
    ∃ t, exec .aIirf State.reset = .next t ∧ t.st.ovfA = false :=
  ⟨⟨_, exec_of_operationA rfl rfl rfl zero_aPre, rfl⟩, ⟨_, exec_of_operationA rfl rfl rfl zero_aQnt, rfl⟩,
    ⟨_, exec_of_operationA rfl rfl rfl zero_aIirx, rfl⟩, ⟨_, exec_of_operationA rfl rfl rfl zero_aIirf, rfl⟩⟩

theorem test_witness_AccessMatrix_componentB :
    (∃ t, exec (.zs2 ⟨0, 0⟩) State.reset = .next t ∧ t.st.ovfB = false) ∧
    (∃ t, exec (.firPush ⟨0, 0⟩) State.reset = .next t ∧ t.st.ovfB = false) ∧
    (∃ t, exec (.cicQnt ⟨0, 0⟩) State.reset = .next t ∧ t.st.ovfB = false) ∧
    (∃ t, exec (.cicComb ⟨0, 0⟩) State.reset = .next t ∧ t.st.ovfB = false) ∧
    (∃ t, exec (.cicInt ⟨0, 0⟩) State.reset = .next t ∧ t.st.ovfB = false) ∧
    (∃ t, exec .cicIntz State.reset = .next t ∧ t.st.ovfB = false) ∧
    ∃ t, exec (.mix ⟨0, 0⟩) State.reset = .next t ∧ t.st.ovfB = false :=
  ⟨⟨_, exec_of_operationB rfl rfl rfl (zero_zs2 _), rfl⟩,
    ⟨_, exec_of_operationB rfl rfl rfl (zero_firPush quiet_reset.1), rfl⟩,
    ⟨_, exec_of_operationB rfl rfl rfl (zero_cicQnt _), rfl⟩,
    ⟨_, exec_of_operationB rfl rfl rfl (zero_cicComb quiet_reset.2.1), rfl⟩,
    ⟨_, exec_of_operationB rfl rfl rfl (zero_cicInt quiet_reset), rfl⟩,
    ⟨_, exec_of_operationB rfl rfl rfl (zero_cicIntz quiet_reset), rfl⟩,
    ⟨_, exec_of_operationB rfl rfl rfl (zero_mix _), rfl⟩⟩

/-- A state with every flag set whose next step takes no reset event. -/
theorem test_witness_FlagsAreStickyUntilReset :
    let s : State := { State.reset with st := ⟨true, true, true⟩ }
    step s = .next s ∧ ∀ rest, fetch s.input ≠ .reset rest := ⟨rfl, fun _ h => by cases h⟩

theorem test_witness_FlaggedComponentIsFree :
    ({ State.reset with st := ⟨true, true, false⟩ } : State).st.ovfA = true ∧
    ({ State.reset with st := ⟨true, true, false⟩ } : State).st.ovfB = true ∧
    Instr.aIirf.component = .a ∧ Instr.cicIntz.component = .b := ⟨rfl, rfl, rfl, rfl⟩

/-- A command of each component, from reset. -/
theorem test_witness_ComponentsCommute :
    (∃ t, exec (.aPre 1) State.reset = .next t) ∧ ∃ t, exec (.firPush ⟨1, 2⟩) State.reset = .next t :=
  ⟨⟨_, rfl⟩, ⟨_, rfl⟩⟩

/-- The reset state and one in which the other component has overflowed (V-E9). -/
theorem test_witness_ComponentsDoNotObserveEachOther :
    (State.reset.overflowB []).a = State.reset.a ∧ (State.reset.overflowB []).st.ovfA = State.reset.st.ovfA ∧
    (State.reset.overflowB []).freeA = State.reset.freeA ∧ (State.reset.overflowA []).b = State.reset.b ∧
    (State.reset.overflowA []).st.ovfB = State.reset.st.ovfB ∧
    (State.reset.overflowA []).freeB = State.reset.freeB := ⟨rfl, rfl, rfl, rfl, rfl, rfl⟩

end Sys2Proof.Tests
end

namespace Sys2Proof

/-! ### What the port forms -/

/-- Everything a command the decoder finds says about the beats it came from. -/
theorem decode_eq_command {beats rest : List Beat} {i : Instr} (h : decode beats = .command i rest) :
    ∃ w ops hdr, beats = w :: ops ∧ decodeWord (BitVec.ofNat 32 w) = .ok hdr ∧
      hdr.operandBeats ≤ ops.length ∧ i = assemble hdr (fun k => ops.getD k 0) ∧
      rest = ops.drop hdr.operandBeats := by
  cases beats with
  | nil => cases h
  | cons w ops =>
    cases hd : decodeWord (BitVec.ofNat 32 w) with
    | error why => simp [decode, hd] at h
    | ok hdr =>
      simp only [decode, hd] at h
      split_ifs at h with hn
      cases h
      exact ⟨w, ops, hdr, rfl, hd, hn, rfl, rfl⟩

/-- What the port reads as a sample is a sample of the number system (R77). -/
theorem sampleOfBeat_mem (n : Beat) : Config.cfg.num.carrier (sampleOfBeat n) := Config.cfg_portWf.decS_mem _

/-- Every sample operand of an assembled command is read from a beat, so it is in the carrier. -/
theorem assemble_inCarrier (h : Header) (ops : Nat → Beat) : (assemble h ops).InCarrier := by
  obtain ⟨row, cnt⟩ := h
  cases row with
  | aIirx | aIirf | cicComb | cicInt | cicIntz | mix => simp [Instr.InCarrier, assemble, Instr.samples]
  | aPre | aQnt | aPush | aBlock => simp [Instr.InCarrier, assemble, Instr.samples, sampleOfBeat_mem]
  | zs2 | firPush | cicQnt | bPush =>
    simp [Instr.InCarrier, assemble, Instr.samples, railsAt, sampleOfBeat_mem]
  | bBlock =>
    intro v hv
    simp only [assemble, Instr.samples, List.mem_flatMap, List.mem_map] at hv
    obtain ⟨z, ⟨k, -, rfl⟩, hz⟩ := hv
    simp only [railsAt, List.mem_cons, List.not_mem_nil, or_false] at hz
    obtain rfl | rfl := hz <;> exact sampleOfBeat_mem _

/-- Every command the port forms has its sample operands in the carrier (R10, R77). -/
theorem inCarrier_of_decode {beats rest : List Beat} {i : Instr} (h : decode beats = .command i rest) :
    i.InCarrier := by
  obtain ⟨_, _, hdr, -, -, -, rfl, -⟩ := decode_eq_command h
  exact assemble_inCarrier hdr _

/-- Both rails have a property. -/
def Rails.Both {α : Type} (P : α → Prop) (z : Rails α) : Prop := P z.re ∧ P z.im

/-- The operands of a command that takes one rail pair are in the carrier. -/
theorem Instr.InCarrier.both {i : Instr} {z : Rails Sample} (hi : i.InCarrier) (hz : i.samples = [z.re, z.im]) :
    z.Both Config.cfg.num.carrier :=
  ⟨hi z.re (by simp [hz]), hi z.im (by simp [hz])⟩

namespace Machine

/-! ### The command a step takes -/

/-- A fetched command is the one the decoder finds at the front of the leading beats. -/
theorem fetch_eq_command {input rest : List HostInput} {i : Instr} (h : fetch input = .command i rest) :
    ∃ bs, decode (leadingBeats input).1 = .command i bs ∧
      rest = bs.map .beat ++ (leadingBeats input).2 := by
  unfold fetch at h
  cases hd : decode (leadingBeats input).1 with
  | command j bs =>
    simp only [hd] at h
    cases h
    exact ⟨bs, rfl, rfl⟩
  | reserved why bs => simp [hd] at h
  | incomplete =>
    simp only [hd] at h
    split at h <;> cases h

/-- Everything a step can do (R60, R70, R80, R210). -/
theorem step_next_cases {s t : State} (h : step s = .next t) :
    (fetch s.input = .idle ∧ t = s) ∨
    (∃ rest, fetch s.input = .reset rest ∧ t = { s with input := rest }.resetEvent) ∨
    (∃ why rest, fetch s.input = .reserved why rest ∧ t = { s with input := rest }.illegal) ∨
    ∃ i rest, fetch s.input = .command i rest ∧ exec i { s with input := rest } = .next t := by
  unfold step at h
  cases hf : fetch s.input with
  | idle => simp only [hf] at h; cases h; exact .inl ⟨rfl, rfl⟩
  | reset rest => simp only [hf] at h; cases h; exact .inr (.inl ⟨rest, rfl, rfl⟩)
  | reserved why rest => simp only [hf] at h; cases h; exact .inr (.inr (.inl ⟨why, rest, rfl, rfl⟩))
  | command i rest => simp only [hf] at h; exact .inr (.inr (.inr ⟨i, rest, rfl, h⟩))

/-! ### Values a run emits -/

variable {α σ ρ : Type}

/-- Every value a run emits, whether it ends well or overflows, has a property. -/
def Run.Emits (P : ρ → Prop) (r : Run σ ρ) : Prop := ∀ v ∈ r.emitted, P v

theorem Run.emits_overflow (P : ρ → Prop) : (Run.overflow : Run σ ρ).Emits P := by
  simp [Run.Emits, Run.overflow]

theorem Run.emits_ofOption {P : ρ → Prop} {o : Option (σ × ρ)} (h : ∀ s v, o = some (s, v) → P v) :
    (Run.ofOption o).Emits P := by
  cases o with
  | none => exact Run.emits_overflow P
  | some r =>
    obtain ⟨s, v⟩ := r
    simpa [Run.Emits] using h s v rfl

theorem Run.Emits.andThen {P : ρ → Prop} {r : Run σ ρ} {k : σ → Run σ ρ} (hr : r.Emits P)
    (hk : ∀ s, (k s).Emits P) : (r.andThen k).Emits P := by
  cases hf : r.final with
  | none => rwa [Run.andThen_none hf]
  | some s =>
    rw [Run.andThen_some hf]
    exact fun v hv => (List.mem_append.1 hv).elim (hr v) (hk s v)

theorem Run.emits_times {P : ρ → Prop} {op : σ → Run σ ρ} (h : ∀ s, (op s).Emits P) (n : Nat) (s : σ) :
    (Run.times op n s).Emits P := by
  induction n generalizing s with
  | zero => simp [Run.Emits, Run.times]
  | succ n ih => exact (h s).andThen ih

theorem Run.emits_forEach {P : ρ → Prop} {op : α → σ → Run σ ρ} (h : ∀ x s, (op x s).Emits P)
    (xs : List α) (s : σ) : (Run.forEach op xs s).Emits P := by
  induction xs generalizing s with
  | nil => simp [Run.Emits]
  | cons x xs ih => exact (h x s).andThen ih

theorem Run.Emits.results {P : ρ → Prop} {Q : Result → Prop} {f : ρ → List Result} {r : Run σ ρ}
    (hr : r.Emits P) (hf : ∀ v, P v → ∀ x ∈ f v, Q x) : (r.results f).Emits Q := by
  intro x hx
  obtain ⟨v, hv, hxv⟩ := List.mem_flatMap.1 hx
  exact hf v (hr v hv) x hxv

/-! ### What each operation of Component A emits -/

section
variable {c : Cfg}

/-- A code that passes its check is a `W_DAC`-bit code (R105). -/
theorem toNat_lt_of_iirFits {u : Int} {a : StateA} (h : IirFits c u a) :
    (iirValue c u a + c.dcOffset).toNat < 2 ^ c.wDac := by
  obtain ⟨-, -, -, -, -, hhi⟩ := h
  have hp := two_pow_pos c.wDac
  zify
  omega

theorem iirExcited_emits_code (u : Int) (a : StateA) :
    (Run.ofOption (iirExcited c u a)).Emits (· < 2 ^ c.wDac) :=
  Run.emits_ofOption fun s v h => by
    obtain ⟨hf, e⟩ := iirExcited_eq_some.1 h
    cases e
    exact toNat_lt_of_iirFits hf

theorem iirFree_emits_code (a : StateA) : (Run.ofOption (iirFree c a)).Emits (· < 2 ^ c.wDac) :=
  Run.emits_ofOption fun s v h => by
    obtain ⟨hf, e⟩ := iirFree_eq_some.1 h
    cases e
    exact toNat_lt_of_iirFits hf

theorem pushA_emits_code (x : Sample) (a : StateA) : (pushA c x a).Emits (· < 2 ^ c.wDac) := by
  unfold pushA
  cases hq : quantiseA c (preFilter c x a).2 with
  | none => simpa only [hq] using Run.emits_overflow _
  | some u =>
    simpa only [hq] using (iirExcited_emits_code u _).andThen (Run.emits_times iirFree_emits_code _)

/-- The operations of Component A emit what the port can carry, also where they overflow (R101 to R107,
R171, R172). -/
theorem operationA_emits_fits {i : Instr} {a : StateA} (hi : i.InCarrier) (ha : a.InCarrier Config.cfg) :
    (operationA i a).Emits (Result.Fits Config.cfg) := by
  have hn := Config.cfg_wf.num_lawful
  have code : ∀ n, n < 2 ^ Config.cfg.wDac → ∀ r ∈ [Result.code n], Result.Fits Config.cfg r := by
    simp [Result.Fits]
  cases i with
  | aPre x =>
    have hx : Config.cfg.num.carrier x := hi x (by simp [Instr.samples])
    simpa [Run.Emits, operationA, Result.Fits, preFilter] using
      hn.add_mem _ _ hx (hn.mul_mem _ _ ha.2 Config.cfg_wf.beta2_mem)
  | aQnt f =>
    refine Run.emits_ofOption fun s v h => ?_
    obtain ⟨u, hu, e⟩ := Option.map_eq_some_iff.1 h
    cases e
    obtain ⟨hw, rfl⟩ := quantiseA_eq_some.1 hu
    exact hw
  | aIirx u => exact (iirExcited_emits_code u.toInt a).results code
  | aIirf => exact (iirFree_emits_code a).results code
  | aPush x => exact (pushA_emits_code x a).results code
  | aBlock xs => exact (Run.emits_forEach pushA_emits_code xs a).results code
  | zs2 | firPush | cicQnt | cicComb | cicInt | cicIntz | mix | bPush | bBlock =>
    simp [Run.Emits, operationA]

/-! ### What each operation of Component B emits -/

theorem mem_railsResult {β : Type} {Q : Result → Prop} {f : β → Result} {z : Rails β}
    (hz : z.Both fun v => Q (f v)) : ∀ r ∈ railsResult f z, Q r := by
  simpa [railsResult, Rails.Both] using hz

/-- The convolution of samples of the number system is one (R10, R125). -/
theorem convolve_mem (hc : c.Wf) {m : Memory} (hm : ∀ i, c.num.carrier (m.read i)) (cur : Fin 21) :
    c.num.carrier (convolve c m cur) :=
  List.foldlRecOn _ _ hc.num_lawful.zero_mem fun _ hy k _ =>
    hc.num_lawful.add_mem _ _ hy (hc.num_lawful.mul_mem _ _ (hc.h_mem k) (hm _))

theorem read_doubleWrite_mem {m : Memory} (hw : m.wf) (hm : ∀ i, c.num.carrier (m.read i)) {v : Sample}
    (hv : c.num.carrier v) (cur : Fin 21) (i : Addr) : c.num.carrier ((doubleWrite m cur v).read i) := by
  rw [read_doubleWrite hw]
  split_ifs
  · exact hv
  · exact hm i

/-- A push of samples of the number system keeps the delay line in the carrier (R123). -/
theorem pushSample_inCarrier {z : Rails Sample} {b : StateB} (w1 : b.dl.re.wf) (w2 : b.dl.im.wf)
    (hb : b.InCarrier c) (hz : z.Both c.num.carrier) : (pushSample z b).InCarrier c := fun i =>
  ⟨read_doubleWrite_mem w1 (fun j => (hb j).1) hz.1 b.cur i,
    read_doubleWrite_mem w2 (fun j => (hb j).2) hz.2 b.cur i⟩

/-- `FIR.PUSH` of samples of the number system emits samples of it (R10, R123). -/
theorem firPush_mem (hc : c.Wf) {z : Rails Sample} {b : StateB} (w1 : b.dl.re.wf) (w2 : b.dl.im.wf)
    (hb : b.InCarrier c) (hz : z.Both c.num.carrier) : (firPush c z b).2.Both c.num.carrier :=
  have h := pushSample_inCarrier w1 w2 hb hz
  ⟨convolve_mem hc (fun i => (h i).1) _, convolve_mem hc (fun i => (h i).2) _⟩

theorem combPass_emits_inWidth (q : Rails Int) (b : StateB) :
    (Run.ofOption (combPass c q b)).Emits (Rails.Both (InWidth c.wCic)) :=
  Run.emits_ofOption fun s v h => by
    obtain ⟨⟨-, -, -, hre⟩, ⟨-, -, -, him⟩, e⟩ := combPass_eq_some.1 h
    cases e
    exact ⟨hre, him⟩

theorem integratorPass_emits_inWidth (u : Rails Int) (b : StateB) :
    (Run.ofOption (integratorPass c u b)).Emits (Rails.Both (InWidth c.wCic)) :=
  Run.emits_ofOption fun s v h => by
    obtain ⟨⟨-, -, -, hre⟩, ⟨-, -, -, him⟩, e⟩ := integratorPass_eq_some.1 h
    cases e
    exact ⟨hre, him⟩

/-- What `MIX` emits is a sample of the number system (R10, R163). -/
theorem mixSample_emits_mem (hc : c.Wf) (a : Rails Int) (b : StateB) :
    (Run.ofOption (mixSample c a b)).Emits c.num.carrier :=
  Run.emits_ofOption fun s v h => by
    obtain ⟨-, e⟩ := mixSample_eq_some.1 h
    cases e
    exact hc.div_mem _ (hc.num_lawful.rofint_mem _)

theorem passAndMix_emits_mem (hc : c.Wf) (pass : StateB → Option (StateB × Rails Int)) (b : StateB) :
    (passAndMix c pass b).Emits c.num.carrier := by
  unfold passAndMix
  cases pass b with
  | none => exact Run.emits_overflow _
  | some r => exact mixSample_emits_mem hc r.2 r.1

theorem stuffedSample_emits_mem (hc : c.Wf) (z : Rails Sample) (b : StateB) :
    (stuffedSample c z b).Emits c.num.carrier := by
  unfold stuffedSample
  cases hq : quantiseB c (firPush c z b).2 with
  | none => simpa only [hq] using Run.emits_overflow _
  | some q =>
    cases hd : combPass c q (firPush c z b).1 with
    | none => simpa only [hq, hd] using Run.emits_overflow _
    | some r =>
      simpa only [hq, hd] using (passAndMix_emits_mem hc (integratorPass c r.2) r.1).andThen
        (Run.emits_times (passAndMix_emits_mem hc (integratorZero c)) 4)

theorem pushB_emits_mem (hc : c.Wf) (z : Rails Sample) (b : StateB) : (pushB c z b).Emits c.num.carrier :=
  (stuffedSample_emits_mem hc _ b).andThen (stuffedSample_emits_mem hc _)

/-- The operations of Component B emit what the port can carry, also where they overflow (R121 to R161,
R174, R176). -/
theorem operationB_emits_fits {i : Instr} {b : StateB} (hi : i.InCarrier) (w1 : b.dl.re.wf)
    (w2 : b.dl.im.wf) (hb : b.InCarrier Config.cfg) :
    (operationB i b).Emits (Result.Fits Config.cfg) := by
  have hc := Config.cfg_wf
  have sample : ∀ v, Config.cfg.num.carrier v → ∀ r ∈ [Result.sample v], Result.Fits Config.cfg r := by
    simp [Result.Fits]
  have samples : ∀ z : Rails Sample, z.Both Config.cfg.num.carrier →
      ∀ r ∈ railsResult .sample z, Result.Fits Config.cfg r := fun _ hz => mem_railsResult hz
  have ints : ∀ z : Rails Int, z.Both (InWidth Config.cfg.wCic) →
      ∀ r ∈ railsResult .intB z, Result.Fits Config.cfg r := fun _ hz => mem_railsResult hz
  cases i with
  | zs2 z =>
    have h0 := hc.num_lawful.zero_mem
    exact fun r hr => (List.mem_append.1 hr).elim (samples z (hi.both rfl) r) (samples ⟨0, 0⟩ ⟨h0, h0⟩ r)
  | firPush z => exact samples _ (firPush_mem hc w1 w2 hb (hi.both rfl))
  | cicQnt y =>
    refine Run.Emits.results (Run.emits_ofOption fun s v h => ?_) ints
    obtain ⟨q, hq, e⟩ := Option.map_eq_some_iff.1 h
    cases e
    obtain ⟨hre, him, rfl⟩ := quantiseB_eq_some.1 hq
    exact ⟨hre, him⟩
  | cicComb q => exact (combPass_emits_inWidth _ b).results ints
  | cicInt u => exact (integratorPass_emits_inWidth _ b).results ints
  | cicIntz => exact (integratorPass_emits_inWidth _ b).results ints
  | mix a => exact (mixSample_emits_mem hc _ b).results sample
  | bPush z => exact (pushB_emits_mem hc z b).results sample
  | bBlock cnt zs => exact (Run.emits_forEach (pushB_emits_mem hc) zs b).results sample
  | aPre | aQnt | aIirx | aIirf | aPush | aBlock => simp [Run.Emits, operationB]

end

/-! ### What a step appends to the result stream -/

/-- A command that leaves both flags clear appends what its component's operation emits. -/
theorem exec_appends_fits {i : Instr} {s t : State} (hi : i.InCarrier) (hs : s.Inv) (h : exec i s = .next t)
    (hA : t.st.ovfA = false) (hB : t.st.ovfB = false) :
    ∃ rs, t.output = s.output ++ rs ∧ ∀ r ∈ rs, Result.Fits Config.cfg r := by
  cases hc : i.component with
  | a =>
    obtain ⟨hf, a, -, rfl⟩ := exec_clearA hc h hA
    exact ⟨_, rfl, operationA_emits_fits hi (hs.samplesA hf)⟩
  | b =>
    obtain ⟨hf, b, -, rfl⟩ := exec_clearB hc h hB
    exact ⟨_, rfl, operationB_emits_fits hi hs.memRe hs.memIm (hs.samplesB hf)⟩

/-- The invariant speaks of the block's own state, not of what stands at its port. -/
theorem State.Inv.withInput {s : State} (h : s.Inv) (input : List HostInput) :
    ({ s with input := input } : State).Inv :=
  ⟨h.memRe, h.memIm, h.rangeA, h.rangeB, h.samplesA, h.samplesB, h.mirror⟩

/-- Settles O15: the port reads every sample operand with `dec_S`, and each operation emits only values that
have passed their check or that the number system's operations give. -/
theorem valuesOnThePortsFit : Obligations.ValuesOnThePortsFit := by
  refine ⟨fun beats i rest => inCarrier_of_decode, fun s t hs h hA hB => ?_⟩
  obtain ⟨-, rfl⟩ | ⟨rest, -, rfl⟩ | ⟨why, rest, -, rfl⟩ | ⟨i, rest, hf, he⟩ := step_next_cases h
  case inr.inr.inr =>
    obtain ⟨bs, hd, -⟩ := fetch_eq_command hf
    exact exec_appends_fits (s := { s with input := rest }) (inCarrier_of_decode hd) (hs.withInput rest)
      he hA hB
  all_goals exact ⟨[], (List.append_nil _).symm, by simp⟩

end Machine
end Sys2Proof

namespace Sys2Proof.Machine

/-! ### The state a run leaves -/

section
variable {α σ ρ : Type}

/-- The state a run leaves, where it ends well, has a property. -/
def Run.Leaves (P : σ → Prop) (r : Run σ ρ) : Prop := ∀ s, r.final = some s → P s

theorem Run.leaves_mk_some {P : σ → Prop} {s : σ} (h : P s) (e : List ρ) :
    (⟨e, some s⟩ : Run σ ρ).Leaves P := by
  rintro t ⟨⟩
  exact h

theorem Run.leaves_ofOption {P : σ → Prop} {o : Option (σ × ρ)} (h : ∀ s v, o = some (s, v) → P s) :
    (Run.ofOption o).Leaves P := by
  intro s hs
  obtain ⟨v, hv⟩ := Run.ofOption_final.1 hs
  exact h s v hv

theorem Run.Leaves.results {P : σ → Prop} {r : Run σ ρ} (h : r.Leaves P) (f : ρ → List Result) :
    (r.results f).Leaves P := h

theorem Run.ofOption_results_final {o : Option (σ × ρ)} {f : ρ → List Result} {s : σ} :
    ((Run.ofOption o).results f).final = some s ↔ ∃ v, o = some (s, v) := by
  rw [Run.results_final, Run.ofOption_final]

/-- A check that leaves the state alone keeps whatever holds of it. -/
theorem Run.leaves_ofOption_map {β : Type} {P : σ → Prop} {s : σ} (h : P s) (o : Option β) (f : β → ρ) :
    (Run.ofOption (o.map fun x => (s, f x))).Leaves P := by
  cases o with
  | none => nofun
  | some x => exact Run.leaves_mk_some h _

theorem Run.Leaves.andThen {P Q : σ → Prop} {r : Run σ ρ} {k : σ → Run σ ρ} (hr : r.Leaves P)
    (hk : ∀ s, P s → (k s).Leaves Q) : (r.andThen k).Leaves Q := by
  intro t ht
  obtain ⟨s, hs, hst⟩ := Run.andThen_final.1 ht
  exact hk s (hr s hs) t hst

theorem Run.leaves_times {P : σ → Prop} {op : σ → Run σ ρ} (h : ∀ s, P s → (op s).Leaves P) (n : Nat)
    {s : σ} (hs : P s) : (Run.times op n s).Leaves P := by
  induction n generalizing s with
  | zero => exact Run.leaves_mk_some hs _
  | succ n ih => exact (h s hs).andThen fun _ => ih

theorem Run.leaves_forEach {P : σ → Prop} {op : α → σ → Run σ ρ} {xs : List α}
    (h : ∀ x ∈ xs, ∀ s, P s → (op x s).Leaves P) {s : σ} (hs : P s) :
    (Run.forEach op xs s).Leaves P := by
  induction xs generalizing s with
  | nil => exact Run.leaves_mk_some hs _
  | cons x xs ih =>
    exact (h x (by simp) s hs).andThen fun _ => ih fun y hy => h y (List.mem_cons_of_mem x hy)

end

/-! ### What one command touches (R20, R33, R192) -/

/-- From `s` to `t` nothing but Component A's part of the state changes, its overflow flag is not cleared,
and results are only appended. -/
structure TouchesOnlyA (s t : State) : Prop where
  b : t.b = s.b
  ovfB : t.st.ovfB = s.st.ovfB
  freeB : t.freeB = s.freeB
  ill : t.st.ill = s.st.ill
  input : t.input = s.input
  output : ∃ rs, t.output = s.output ++ rs
  ovfA : s.st.ovfA = true → t.st.ovfA = true

/-- The same for Component B's part. -/
structure TouchesOnlyB (s t : State) : Prop where
  a : t.a = s.a
  ovfA : t.st.ovfA = s.st.ovfA
  freeA : t.freeA = s.freeA
  ill : t.st.ill = s.st.ill
  input : t.input = s.input
  output : ∃ rs, t.output = s.output ++ rs
  ovfB : s.st.ovfB = true → t.st.ovfB = true

theorem State.runA_touchesOnlyA (s : State) (op : StateA → Run StateA Result) :
    TouchesOnlyA s (s.runA op) := by
  obtain ⟨a, -, -, e⟩ | ⟨l, e⟩ := s.runA_cases op <;> rw [e]
  · exact ⟨rfl, rfl, rfl, rfl, rfl, ⟨_, rfl⟩, id⟩
  · exact ⟨rfl, rfl, rfl, rfl, rfl, ⟨_, List.append_assoc ..⟩, fun _ => rfl⟩

theorem State.runB_touchesOnlyB (s : State) (op : StateB → Run StateB Result) :
    TouchesOnlyB s (s.runB op) := by
  obtain ⟨b, -, -, e⟩ | ⟨l, e⟩ := s.runB_cases op <;> rw [e]
  · exact ⟨rfl, rfl, rfl, rfl, rfl, ⟨_, rfl⟩, id⟩
  · exact ⟨rfl, rfl, rfl, rfl, rfl, ⟨_, List.append_assoc ..⟩, fun _ => rfl⟩

section
variable {i : Instr} {s t : State}

theorem exec_touchesOnlyA (hc : i.component = .a) (h : exec i s = .next t) : TouchesOnlyA s t :=
  exec_next_componentA hc h ▸ s.runA_touchesOnlyA _

theorem exec_touchesOnlyB (hc : i.component = .b) (h : exec i s = .next t) : TouchesOnlyB s t :=
  exec_next_componentB hc h ▸ s.runB_touchesOnlyB _

theorem operationA_of_componentB (hc : i.component = .b) (a : StateA) : operationA i a = ⟨[], some a⟩ := by
  cases i with
  | aPre | aQnt | aIirx | aIirf | aPush | aBlock => cases hc
  | zs2 | firPush | cicQnt | cicComb | cicInt | cicIntz | mix | bPush | bBlock => rfl

theorem operationB_of_componentA (hc : i.component = .a) (b : StateB) : operationB i b = ⟨[], some b⟩ := by
  cases i with
  | aPre | aQnt | aIirx | aIirf | aPush | aBlock => rfl
  | zs2 | firPush | cicQnt | cicComb | cicInt | cicIntz | mix | bPush | bBlock => cases hc

/-- A command of either component that leaves `ST.ovf_a` clear leaves Component A as its operation does. -/
theorem operationA_final_of_exec (h : exec i s = .next t) (ht : t.st.ovfA = false) :
    (operationA i s.a).final = some t.a := by
  cases hc : i.component with
  | a =>
    obtain ⟨-, a, ha, rfl⟩ := exec_clearA hc h ht
    exact ha
  | b => rw [operationA_of_componentB hc, (exec_touchesOnlyB hc h).a]

/-- A command of either component that leaves `ST.ovf_b` clear leaves Component B as its operation does. -/
theorem operationB_final_of_exec (h : exec i s = .next t) (ht : t.st.ovfB = false) :
    (operationB i s.b).final = some t.b := by
  cases hc : i.component with
  | a => rw [operationB_of_componentA hc, (exec_touchesOnlyA hc h).b]
  | b =>
    obtain ⟨-, b, hb, rfl⟩ := exec_clearB hc h ht
    exact hb

end

/-! ### The invariant, component by component -/

/-- What the invariant says of Component A while its flag is clear. -/
structure StateA.Good (c : Cfg) (a : StateA) : Prop where
  range : a.InRange c
  samples : a.InCarrier c

/-- What the invariant says of Component B while its flag is clear. -/
structure StateB.Good (c : Cfg) (b : StateB) : Prop where
  memRe : b.dl.re.wf
  memIm : b.dl.im.wf
  range : b.InRange c
  samples : b.InCarrier c
  mirror : b.Mir

theorem State.inv_iff {s : State} : s.Inv ↔
    s.b.dl.re.wf ∧ s.b.dl.im.wf ∧ (s.st.ovfA = false → s.a.Good Config.cfg) ∧
      (s.st.ovfB = false → s.b.Good Config.cfg) := by
  constructor
  · intro h
    exact ⟨h.memRe, h.memIm, fun hf => ⟨h.rangeA hf, h.samplesA hf⟩,
      fun hf => ⟨h.memRe, h.memIm, h.rangeB hf, h.samplesB hf, h.mirror hf⟩⟩
  · rintro ⟨w1, w2, hA, hB⟩
    exact ⟨w1, w2, fun hf => (hA hf).range, fun hf => (hB hf).range, fun hf => (hA hf).samples,
      fun hf => (hB hf).samples, fun hf => (hB hf).mirror⟩

section
variable {c : Cfg}

theorem StateA.good_zero (hc : c.Wf) : StateA.zero.Good c :=
  have h0 := hc.num_lawful.zero_mem
  ⟨⟨InWidth.zero _, InWidth.zero _⟩, ⟨h0, h0⟩⟩

theorem StateB.good_zero (hc : c.Wf) : StateB.zero.Good c :=
  have h0 := InWidth.zero c.wCic
  have hz : Chain.zero.InRange c := ⟨h0, h0, h0, h0⟩
  { memRe := Memory.wf_empty
    memIm := Memory.wf_empty
    range := ⟨hz, hz, hz, hz⟩
    samples := fun _ => ⟨hc.num_lawful.zero_mem, hc.num_lawful.zero_mem⟩
    mirror := ⟨Memory.read_zero_mirrored, Memory.read_zero_mirrored⟩ }

/-! ### The operations of Component A keep it -/

/-- `A.PRE` shifts a sample of the number system in (R101). -/
theorem StateA.Good.preFilter {a : StateA} (ha : a.Good c) {x : Sample} (hx : c.num.carrier x) :
    (preFilter c x a).1.Good c :=
  ⟨ha.range, ⟨hx, ha.samples.1⟩⟩

/-- A pass shifts in a value that has passed its check (R105). -/
theorem StateA.Good.shift {u : Int} {a : StateA} (ha : a.Good c) (hf : IirFits c u a) :
    (a.shift (iirValue c u a)).Good c :=
  have ⟨_, _, _, hn, _⟩ := hf
  ⟨⟨hn, ha.range.1⟩, ha.samples⟩

theorem iirExcited_good (u : Int) {a : StateA} (ha : a.Good c) :
    (Run.ofOption (iirExcited c u a)).Leaves (StateA.Good c) :=
  Run.leaves_ofOption fun s v h => by
    obtain ⟨hf, e⟩ := iirExcited_eq_some.1 h
    cases e
    exact ha.shift hf

theorem iirFree_good {a : StateA} (ha : a.Good c) :
    (Run.ofOption (iirFree c a)).Leaves (StateA.Good c) :=
  Run.leaves_ofOption fun s v h => by
    obtain ⟨hf, e⟩ := iirFree_eq_some.1 h
    cases e
    exact ha.shift hf

theorem pushA_good {x : Sample} (hx : c.num.carrier x) {a : StateA} (ha : a.Good c) :
    (pushA c x a).Leaves (StateA.Good c) := by
  unfold pushA
  cases hq : quantiseA c (preFilter c x a).2 with
  | none => simp only [hq]; nofun
  | some u =>
    simpa only [hq] using (iirExcited_good u (ha.preFilter hx)).andThen fun _ h =>
      Run.leaves_times (fun _ => iirFree_good) _ h

theorem operationA_good {i : Instr} (hi : i.InCarrier) {a : StateA} (ha : a.Good Config.cfg) :
    (operationA i a).Leaves (StateA.Good Config.cfg) := by
  cases i with
  | aPre x => exact Run.leaves_mk_some (ha.preFilter (hi x (by simp [Instr.samples]))) _
  | aQnt f => exact Run.leaves_ofOption_map ha _ _
  | aIirx u => exact (iirExcited_good _ ha).results _
  | aIirf => exact (iirFree_good ha).results _
  | aPush x => exact (pushA_good (hi x (by simp [Instr.samples])) ha).results _
  | aBlock xs => exact (Run.leaves_forEach (fun x hx _ => pushA_good (hi x hx)) ha).results _
  | zs2 | firPush | cicQnt | cicComb | cicInt | cicIntz | mix | bPush | bBlock =>
    exact Run.leaves_mk_some ha _

/-! ### The operations of Component B keep it -/

/-- A push keeps the memories canonical, in the carrier and mirrored (R31, R123). -/
theorem StateB.Good.pushSample {b : StateB} (hb : b.Good c) {z : Rails Sample}
    (hz : z.Both c.num.carrier) : (pushSample z b).Good c where
  memRe := wf_doubleWrite hb.memRe _ _
  memIm := wf_doubleWrite hb.memIm _ _
  range := hb.range
  samples := pushSample_inCarrier hb.memRe hb.memIm hb.samples hz
  mirror := ⟨mirrored_doubleWrite hb.memRe hb.mirror.1 _ _, mirrored_doubleWrite hb.memIm hb.mirror.2 _ _⟩

theorem combChain_inRange {v : Int} {x : Chain} (hv : InWidth c.wCic v) (hf : CombFits c.wCic v x) :
    (combChain v x).InRange c :=
  have ⟨h1, h2, h3, _⟩ := hf
  ⟨hv, h1, h2, h3⟩

/-- A comb pass of an input in range stores values that have passed their check (R143). -/
theorem combPass_good {q : Rails Int} (hq : q.Both (InWidth c.wCic)) {b b' : StateB} {d : Rails Int}
    (hb : b.Good c) (h : combPass c q b = some (b', d)) : b'.Good c := by
  obtain ⟨hre, him, e⟩ := combPass_eq_some.1 h
  cases e
  obtain ⟨-, -, hit⟩ := hb.range
  exact ⟨hb.memRe, hb.memIm, ⟨combChain_inRange hq.1 hre, combChain_inRange hq.2 him, hit⟩, hb.samples,
    hb.mirror⟩

/-- An integrator pass stores values that have passed their check (R145). -/
theorem integratorPass_good {u : Rails Int} {b b' : StateB} {a : Rails Int} (hb : b.Good c)
    (h : integratorPass c u b = some (b', a)) : b'.Good c := by
  obtain ⟨hre, him, e⟩ := integratorPass_eq_some.1 h
  cases e
  obtain ⟨hcre, hcim, -⟩ := hb.range
  exact ⟨hb.memRe, hb.memIm, ⟨hcre, hcim, hre, him⟩, hb.samples, hb.mirror⟩

/-- `MIX` writes the phase alone, of which the invariant says nothing (R161). -/
theorem mixSample_good {a : Rails Int} {b b' : StateB} {o : Sample} (hb : b.Good c)
    (h : mixSample c a b = some (b', o)) : b'.Good c := by
  obtain ⟨-, e⟩ := mixSample_eq_some.1 h
  cases e
  exact ⟨hb.memRe, hb.memIm, hb.range, hb.samples, hb.mirror⟩

theorem passAndMix_good (u : Rails Int) {b : StateB} (hb : b.Good c) :
    (passAndMix c (integratorPass c u) b).Leaves (StateB.Good c) := by
  intro b' h
  obtain ⟨b1, a, o, hp, hm⟩ := passAndMix_final.1 h
  exact mixSample_good (integratorPass_good hb hp) hm

theorem quantiseB_inWidth {y : Rails Sample} {q : Rails Int} (h : quantiseB c y = some q) :
    q.Both (InWidth c.wCic) := by
  obtain ⟨hre, him, rfl⟩ := quantiseB_eq_some.1 h
  exact ⟨hre, him⟩

theorem stuffedSample_good {z : Rails Sample} (hz : z.Both c.num.carrier) {b : StateB} (hb : b.Good c) :
    (stuffedSample c z b).Leaves (StateB.Good c) := by
  intro b' h
  obtain ⟨q, b1, d, b2, hq, hd, hp, ht⟩ := stuffedSample_final.1 h
  have g1 : b1.Good c := combPass_good (quantiseB_inWidth hq) (hb.pushSample hz) hd
  have g2 : b2.Good c := passAndMix_good d g1 b2 hp
  exact Run.leaves_times (fun _ => passAndMix_good ⟨0, 0⟩) 4 g2 b' ht

theorem pushB_good (hc : c.Wf) {z : Rails Sample} (hz : z.Both c.num.carrier) {b : StateB} (hb : b.Good c) :
    (pushB c z b).Leaves (StateB.Good c) :=
  have h0 := hc.num_lawful.zero_mem
  (stuffedSample_good hz hb).andThen fun _ => stuffedSample_good ⟨h0, h0⟩

theorem operationB_good {i : Instr} (hi : i.InCarrier) {b : StateB} (hb : b.Good Config.cfg) :
    (operationB i b).Leaves (StateB.Good Config.cfg) := by
  cases i with
  | zs2 z => exact Run.leaves_mk_some hb _
  | firPush z => exact Run.leaves_mk_some (hb.pushSample (hi.both rfl)) _
  | cicQnt y => exact (Run.leaves_ofOption_map hb _ _).results _
  | cicComb q =>
    have hq : (intsOfWords q).Both (InWidth Config.cfg.wCic) := ⟨inWidth_toInt q.re, inWidth_toInt q.im⟩
    exact (Run.leaves_ofOption fun _ _ => combPass_good hq hb).results _
  | cicInt u => exact (Run.leaves_ofOption fun _ _ => integratorPass_good hb).results _
  | cicIntz => exact (Run.leaves_ofOption fun _ _ => integratorPass_good hb).results _
  | mix a => exact (Run.leaves_ofOption fun _ _ => mixSample_good hb).results _
  | bPush z => exact (pushB_good Config.cfg_wf (hi.both rfl) hb).results _
  | bBlock cnt zs =>
    have hz : ∀ z ∈ zs, z.Both Config.cfg.num.carrier := fun z hz =>
      ⟨hi _ (List.mem_flatMap.2 ⟨z, hz, by simp⟩), hi _ (List.mem_flatMap.2 ⟨z, hz, by simp⟩)⟩
    exact (Run.leaves_forEach (fun z h _ => pushB_good Config.cfg_wf (hz z h)) hb).results _
  | aPre | aQnt | aIirx | aIirf | aPush | aBlock => exact Run.leaves_mk_some hb _

end

/-! ### Every step keeps the invariant -/

theorem State.inv_of_zero {s : State} (ha : s.a = StateA.zero) (hb : s.b = StateB.zero) : s.Inv := by
  rw [State.inv_iff, ha, hb]
  exact ⟨Memory.wf_empty, Memory.wf_empty, fun _ => StateA.good_zero Config.cfg_wf,
    fun _ => StateB.good_zero Config.cfg_wf⟩

/-- An operation that keeps a good Component A keeps the invariant: where it overflows the flag is set. -/
theorem State.Inv.runA {s : State} (h : s.Inv) {op : StateA → Run StateA Result}
    (hop : ∀ a, a.Good Config.cfg → (op a).Leaves (StateA.Good Config.cfg)) : (s.runA op).Inv := by
  obtain ⟨w1, w2, hA, hB⟩ := State.inv_iff.1 h
  rw [State.inv_iff]
  obtain ⟨a, hf, ha, e⟩ | ⟨l, e⟩ := s.runA_cases op <;> rw [e]
  · exact ⟨w1, w2, fun _ => hop s.a (hA hf) a ha, hB⟩
  · exact ⟨w1, w2, nofun, hB⟩

/-- The same for Component B: what `Overflow` leaves in the memories is free but canonical. -/
theorem State.Inv.runB {s : State} (h : s.Inv) {op : StateB → Run StateB Result}
    (hop : ∀ b, b.Good Config.cfg → (op b).Leaves (StateB.Good Config.cfg)) : (s.runB op).Inv := by
  obtain ⟨-, -, hA, hB⟩ := State.inv_iff.1 h
  rw [State.inv_iff]
  obtain ⟨b, hf, hb, e⟩ | ⟨l, e⟩ := s.runB_cases op <;> rw [e]
  · have g : b.Good Config.cfg := hop s.b (hB hf) b hb
    exact ⟨g.memRe, g.memIm, hA, fun _ => g⟩
  · exact ⟨Memory.wf_ofEntries _, Memory.wf_ofEntries _, hA, nofun⟩

theorem exec_keeps_inv {i : Instr} {s t : State} (hi : i.InCarrier) (hs : s.Inv) (h : exec i s = .next t) :
    t.Inv := by
  cases hc : i.component with
  | a => exact exec_next_componentA hc h ▸ hs.runA fun _ => operationA_good hi
  | b => exact exec_next_componentB hc h ▸ hs.runB fun _ => operationB_good hi

/-- Settles O4: a command the port forms has its operands in the carrier, and each operation of a component
keeps what the invariant says of that component, or sets its flag. -/
theorem everyStepKeepsTheInvariant : Obligations.EveryStepKeepsTheInvariant := by
  intro s t hs h
  obtain ⟨-, rfl⟩ | ⟨rest, -, rfl⟩ | ⟨why, rest, -, rfl⟩ | ⟨i, rest, hf, he⟩ := step_next_cases h
  · exact hs
  · exact State.inv_of_zero rfl rfl
  · exact ⟨hs.memRe, hs.memIm, hs.rangeA, hs.rangeB, hs.samplesA, hs.samplesB, hs.mirror⟩
  · obtain ⟨bs, hd, -⟩ := fetch_eq_command hf
    exact exec_keeps_inv (inCarrier_of_decode hd) (hs.withInput rest) he

/-- Settles O3: every register is zero, and zero is in every range and in the carrier. -/
theorem invariantHoldsAtReset : Obligations.InvariantHoldsAtReset := State.inv_of_zero rfl rfl

/-- Settles O1, by reading off the reset state. -/
theorem resetStateIsAllZero : Obligations.ResetStateIsAllZero := by
  refine ⟨rfl, rfl, rfl, rfl, fun i => ⟨Memory.read_empty i, Memory.read_empty i⟩, ?_⟩
  exact ⟨rfl, rfl, rfl, rfl, rfl, rfl, rfl, rfl, rfl⟩

/-! ### What each unit writes (R33) -/

section
variable {c : Cfg} {a a' : StateA} {b b' : StateB}

theorem iirExcited_writes {u : Int} {n : Nat} (h : iirExcited c u a = some (a', n)) :
    a'.f1 = a.f1 ∧ a'.f2 = a.f2 := by
  obtain ⟨-, e⟩ := iirExcited_eq_some.1 h
  cases e
  exact ⟨rfl, rfl⟩

theorem iirFree_writes {n : Nat} (h : iirFree c a = some (a', n)) : a'.f1 = a.f1 ∧ a'.f2 = a.f2 := by
  obtain ⟨-, e⟩ := iirFree_eq_some.1 h
  cases e
  exact ⟨rfl, rfl⟩

theorem combPass_writes {q d : Rails Int} (h : combPass c q b = some (b', d)) :
    b' = { b with cb := b'.cb } := by
  obtain ⟨-, -, e⟩ := combPass_eq_some.1 h
  cases e
  rfl

theorem integratorPass_writes {u o : Rails Int} (h : integratorPass c u b = some (b', o)) :
    b' = { b with it := b'.it } := by
  obtain ⟨-, -, e⟩ := integratorPass_eq_some.1 h
  cases e
  rfl

/-- With forcing term zero stage 1 adds zero to its register (R147). -/
theorem integratorZero_stage1 {o : Rails Int} (h : integratorZero c b = some (b', o)) :
    b'.it.re.r1 = b.it.re.r1 ∧ b'.it.im.r1 = b.it.im.r1 := by
  obtain ⟨-, -, e⟩ := integratorPass_eq_some.1 h
  cases e
  exact ⟨add_zero _, add_zero _⟩

theorem mixSample_writes {v : Rails Int} {o : Sample} (h : mixSample c v b = some (b', o)) :
    b' = { b with ph := nextPhase b.ph } := by
  obtain ⟨-, e⟩ := mixSample_eq_some.1 h
  cases e
  rfl

/-- A push writes only the entry at the cursor and the one 21 above it, in canonical form or not (R51). -/
theorem read_doubleWrite_ne (m : Memory) (cur : Fin 21) (v : Sample) {j : Addr} (h1 : j.val ≠ cur.val)
    (h2 : j.val ≠ cur.val + 21) : (doubleWrite m cur v).read j = m.read j := by
  have hp : primaryAddr cur ≠ j := fun e => h1 (congrArg Fin.val e).symm
  have hm : mirrorAddr cur ≠ j := fun e => h2 (congrArg Fin.val e).symm
  rw [doubleWrite, Memory.read_write_ne _ hm, Memory.read_write_ne _ hp]

end

/-- Settles O54: a unit command that leaves its flag clear leaves its component as its operation does, and
each operation writes what its row marks. -/
theorem accessMatrix : Obligations.AccessMatrix := by
  intro s t
  refine ⟨fun x h ht => ?aPre, fun f h ht => ?aQnt, fun u h ht => ?aIirx, fun h ht => ?aIirf,
    fun z h ht => ?zs2, fun z h ht => ?firPush, fun y h ht => ?cicQnt, fun q h ht => ?cicComb,
    fun u h ht => ?cicInt, fun h ht => ?cicIntz, fun v h ht => ?mix⟩
  case aPre =>
    have e : (preFilter Config.cfg x s.a).1 = t.a := Option.some.inj (operationA_final_of_exec h ht)
    exact ⟨e ▸ rfl, e ▸ rfl, (exec_touchesOnlyA rfl h).b⟩
  case aQnt =>
    have keeps : (operationA (.aQnt f) s.a).Leaves (· = s.a) :=
      Run.leaves_ofOption_map (P := (· = s.a)) rfl _ _
    exact ⟨keeps t.a (operationA_final_of_exec h ht), (exec_touchesOnlyA rfl h).b⟩
  case aIirx =>
    obtain ⟨n, hn⟩ := Run.ofOption_results_final.1 (operationA_final_of_exec h ht)
    obtain ⟨h1, h2⟩ := iirExcited_writes hn
    exact ⟨h1, h2, (exec_touchesOnlyA rfl h).b⟩
  case aIirf =>
    obtain ⟨n, hn⟩ := Run.ofOption_results_final.1 (operationA_final_of_exec h ht)
    obtain ⟨h1, h2⟩ := iirFree_writes hn
    exact ⟨h1, h2, (exec_touchesOnlyA rfl h).b⟩
  case zs2 =>
    exact ⟨(exec_touchesOnlyB rfl h).a, (Option.some.inj (operationB_final_of_exec h ht)).symm⟩
  case firPush =>
    have e : pushSample z s.b = t.b := Option.some.inj (operationB_final_of_exec h ht)
    rw [← e]
    exact ⟨(exec_touchesOnlyB rfl h).a, rfl, rfl, rfl, fun j h1 h2 =>
      ⟨read_doubleWrite_ne _ _ _ h1 h2, read_doubleWrite_ne _ _ _ h1 h2⟩⟩
  case cicQnt =>
    have keeps : (operationB (.cicQnt y) s.b).Leaves (· = s.b) :=
      (Run.leaves_ofOption_map (P := (· = s.b)) rfl _ _).results _
    exact ⟨(exec_touchesOnlyB rfl h).a, keeps t.b (operationB_final_of_exec h ht)⟩
  case cicComb =>
    obtain ⟨d, hd⟩ := Run.ofOption_results_final.1 (operationB_final_of_exec h ht)
    exact ⟨(exec_touchesOnlyB rfl h).a, combPass_writes hd⟩
  case cicInt =>
    obtain ⟨o, ho⟩ := Run.ofOption_results_final.1 (operationB_final_of_exec h ht)
    exact ⟨(exec_touchesOnlyB rfl h).a, integratorPass_writes ho⟩
  case cicIntz =>
    obtain ⟨o, ho⟩ := Run.ofOption_results_final.1 (operationB_final_of_exec h ht)
    exact ⟨(exec_touchesOnlyB rfl h).a, integratorPass_writes ho, integratorZero_stage1 ho⟩
  case mix =>
    obtain ⟨o, ho⟩ := Run.ofOption_results_final.1 (operationB_final_of_exec h ht)
    have e := mixSample_writes ho
    exact ⟨(exec_touchesOnlyB rfl h).a, by rw [e]⟩

/-! ### The cursor and the phase count operations (R24, R164) -/

/-- From `b` to `b'` the phase has advanced by `m` steps modulo 4 and the cursor by `f` modulo 21. -/
def StateB.Advanced (b : StateB) (m f : Nat) (b' : StateB) : Prop :=
  b'.ph.val = (b.ph.val + m) % 4 ∧ b'.cur.val = (b.cur.val + f) % 21

theorem StateB.Advanced.refl (b : StateB) : b.Advanced 0 0 b :=
  ⟨(Nat.mod_eq_of_lt b.ph.isLt).symm, (Nat.mod_eq_of_lt b.cur.isLt).symm⟩

theorem StateB.Advanced.trans {b b1 b2 : StateB} {m f m' f' : Nat} (h : b.Advanced m f b1)
    (h' : b1.Advanced m' f' b2) : b.Advanced (m + m') (f + f') b2 := by
  obtain ⟨hp, hc⟩ := h
  obtain ⟨hp', hc'⟩ := h'
  constructor <;> omega

theorem StateB.Advanced.succ {b b1 b2 : StateB} {m f n : Nat} (h : b.Advanced m f b1)
    (h' : b1.Advanced (m * n) (f * n) b2) : b.Advanced (m * (n + 1)) (f * (n + 1)) b2 := by
  rw [Nat.mul_succ, Nat.mul_succ, Nat.add_comm _ m, Nat.add_comm _ f]
  exact h.trans h'

theorem Run.forEach_advanced {α ρ : Type} {op : α → StateB → Run StateB ρ} {m f : Nat}
    (h : ∀ x b, (op x b).Leaves (b.Advanced m f)) (xs : List α) (b : StateB) :
    (Run.forEach op xs b).Leaves (b.Advanced (m * xs.length) (f * xs.length)) := by
  induction xs generalizing b with
  | nil => exact Run.leaves_mk_some (.refl b) _
  | cons x xs ih => exact (h x b).andThen fun b1 h1 b2 h2 => h1.succ (ih b1 b2 h2)

theorem Run.times_advanced {ρ : Type} {op : StateB → Run StateB ρ} {m f : Nat}
    (h : ∀ b, (op b).Leaves (b.Advanced m f)) (n : Nat) (b : StateB) :
    (Run.times op n b).Leaves (b.Advanced (m * n) (f * n)) := by
  induction n generalizing b with
  | zero => exact Run.leaves_mk_some (.refl b) _
  | succ n ih => exact (h b).andThen fun b1 h1 b2 h2 => h1.succ (ih b1 b2 h2)

section
variable {c : Cfg} {b b' : StateB}

theorem pushSample_advanced (z : Rails Sample) (b : StateB) : b.Advanced 0 1 (pushSample z b) :=
  ⟨(StateB.Advanced.refl b).1, rfl⟩

theorem combPass_advanced {q d : Rails Int} (h : combPass c q b = some (b', d)) : b.Advanced 0 0 b' :=
  combPass_writes h ▸ StateB.Advanced.refl b

theorem integratorPass_advanced {u o : Rails Int} (h : integratorPass c u b = some (b', o)) :
    b.Advanced 0 0 b' :=
  integratorPass_writes h ▸ StateB.Advanced.refl b

theorem mixSample_advanced {v : Rails Int} {o : Sample} (h : mixSample c v b = some (b', o)) :
    b.Advanced 1 0 b' :=
  mixSample_writes h ▸ ⟨rfl, (StateB.Advanced.refl b).2⟩

theorem passAndMix_advanced (u : Rails Int) (b : StateB) :
    (passAndMix c (integratorPass c u) b).Leaves (b.Advanced 1 0) := by
  intro b' h
  obtain ⟨b1, a, o, hp, hm⟩ := passAndMix_final.1 h
  exact (integratorPass_advanced hp).trans (mixSample_advanced hm)

/-- A stuffed sample is one `FIR.PUSH` and five `MIX` (R149, R174). -/
theorem stuffedSample_advanced (z : Rails Sample) (b : StateB) :
    (stuffedSample c z b).Leaves (b.Advanced 5 1) := by
  intro b' h
  obtain ⟨q, b1, d, b2, -, hd, hp, ht⟩ := stuffedSample_final.1 h
  have h1 : b.Advanced 0 1 b1 := (pushSample_advanced z b).trans (combPass_advanced hd)
  have h2 : b.Advanced 1 1 b2 := h1.trans (passAndMix_advanced d b1 b2 hp)
  exact h2.trans (Run.times_advanced (passAndMix_advanced ⟨0, 0⟩) 4 b2 b' ht)

theorem pushB_advanced (z : Rails Sample) (b : StateB) : (pushB c z b).Leaves (b.Advanced 10 2) :=
  (stuffedSample_advanced _ b).andThen fun b1 h1 b2 h2 => h1.trans (stuffedSample_advanced _ b1 b2 h2)

end

theorem operationB_advanced (i : Instr) (b : StateB) :
    (operationB i b).Leaves (b.Advanced (mixCount i) (firCount i)) := by
  cases i with
  | aPre | aQnt | aIirx | aIirf | aPush | aBlock | zs2 => exact Run.leaves_mk_some (.refl b) _
  | firPush z => exact Run.leaves_mk_some (pushSample_advanced z b) _
  | cicQnt y => exact (Run.leaves_ofOption_map (.refl b) _ _).results _
  | cicComb q => exact (Run.leaves_ofOption fun _ _ => combPass_advanced).results _
  | cicInt u => exact (Run.leaves_ofOption fun _ _ => integratorPass_advanced).results _
  | cicIntz => exact (Run.leaves_ofOption fun _ _ => integratorPass_advanced).results _
  | mix v => exact (Run.leaves_ofOption fun _ _ => mixSample_advanced).results _
  | bPush z => exact (pushB_advanced z b).results _
  | bBlock cnt zs => exact (Run.forEach_advanced pushB_advanced zs b).results _

/-- Settles O42: each unit advances the two counters by what it is, and advances add up. -/
theorem phaseAndCursorCountOperations : Obligations.PhaseAndCursorCountOperations :=
  fun i s t h ht => operationB_advanced i s.b t.b (operationB_final_of_exec h ht)

/-! ### Flags and frames -/

/-- Settles O53, by the frame of each component's commands. -/
theorem commandsLeaveTheOtherComponent : Obligations.CommandsLeaveTheOtherComponent := by
  intro i s t h
  cases hc : i.component with
  | a =>
    have f := exec_touchesOnlyA hc h
    exact ⟨fun _ => ⟨f.b, f.ovfB, f.freeB⟩, nofun, f.ill, f.input, f.output⟩
  | b =>
    have f := exec_touchesOnlyB hc h
    exact ⟨nofun, fun _ => ⟨f.a, f.ovfA, f.freeA⟩, f.ill, f.input, f.output⟩

/-- An operation of Component A that ends well sets no flag, also where the flag is set already. -/
theorem State.runA_st_of_some {s : State} {op : StateA → Run StateA Result} {a : StateA}
    (h : (op s.a).final = some a) : (s.runA op).st = s.st := by
  cases hf : s.st.ovfA with
  | false => rw [State.runA_some hf h]
  | true => rw [State.runA_flagged op hf, State.overflowA_st, Status.setOvfA, ← hf]

theorem State.runB_st_of_some {s : State} {op : StateB → Run StateB Result} {b : StateB}
    (h : (op s.b).final = some b) : (s.runB op).st = s.st := by
  cases hf : s.st.ovfB with
  | false => rw [State.runB_some hf h]
  | true => rw [State.runB_flagged op hf, State.overflowB_st, Status.setOvfB, ← hf]

/-- The three commands without a check change no flag (R191). -/
theorem exec_st_of_unchecked {i : Instr} {s t : State} (h : exec i s = .next t)
    (hi : i.row = .aPre ∨ i.row = .zs2 ∨ i.row = .firPush) : t.st = s.st := by
  cases i with
  | aPre x => exact exec_next_componentA rfl h ▸ State.runA_st_of_some rfl
  | zs2 z => exact exec_next_componentB rfl h ▸ State.runB_st_of_some rfl
  | firPush z => exact exec_next_componentB rfl h ▸ State.runB_st_of_some rfl
  | aQnt | aIirx | aIirf | aPush | aBlock | cicQnt | cicComb | cicInt | cicIntz | mix | bPush | bBlock =>
    simp [Instr.row] at hi

/-- Settles O55, by the frame of each component's commands and the three operations that cannot fail. -/
theorem flagsSetOnlyByTheirOperations : Obligations.FlagsSetOnlyByTheirOperations := by
  intro i s t h
  have hu := exec_st_of_unchecked h
  cases hc : i.component with
  | a =>
    have f := exec_touchesOnlyA hc h
    exact ⟨f.ill, nofun, fun _ => f.ovfB, hu, f.ovfA, f.ovfB.trans⟩
  | b =>
    have f := exec_touchesOnlyB hc h
    exact ⟨f.ill, fun _ => f.ovfA, nofun, hu, f.ovfA.trans, f.ovfB⟩

/-- Settles O56: an idle step changes nothing, a reserved word sets `ST.ill`, and no command clears a flag. -/
theorem flagsAreStickyUntilReset : Obligations.FlagsAreStickyUntilReset := by
  intro s t h hr
  obtain ⟨-, rfl⟩ | ⟨rest, hf, -⟩ | ⟨why, rest, -, rfl⟩ | ⟨i, rest, -, he⟩ := step_next_cases h
  · exact ⟨id, id, id⟩
  · exact absurd hf (hr rest)
  · exact ⟨id, id, fun _ => rfl⟩
  · obtain ⟨hill, -, -, -, hA, hB⟩ := flagsSetOnlyByTheirOperations i _ t he
    exact ⟨hA, hB, hill.trans⟩

/-! ### Two runs that agree on one component -/

/-- Where two states agree on Component A, its flag and its count of free values, an operation of it does
the same in both. -/
theorem State.runA_congr {s s' : State} (op : StateA → Run StateA Result) (ha : s'.a = s.a)
    (hf : s'.st.ovfA = s.st.ovfA) (hn : s'.freeA = s.freeA) :
    ∃ rs, (s'.runA op).a = (s.runA op).a ∧ (s'.runA op).st.ovfA = (s.runA op).st.ovfA ∧
      (s'.runA op).freeA = (s.runA op).freeA ∧ (s.runA op).output = s.output ++ rs ∧
      (s'.runA op).output = s'.output ++ rs := by
  cases hs : s.st.ovfA with
  | true =>
    exact ⟨Config.freeResults .a s.freeA, by
      simp [State.runA_flagged op hs, State.runA_flagged op (hf.trans hs), hn]⟩
  | false =>
    cases h : (op s.a).final with
    | none =>
      exact ⟨(op s.a).emitted ++ Config.freeResults .a s.freeA, by
        simp [State.runA_none hs h, State.runA_none (hf.trans hs) (ha ▸ h), ha, hn]⟩
    | some a =>
      rw [State.runA_some hs h, State.runA_some (hf.trans hs) (ha ▸ h), ha]
      exact ⟨_, rfl, hf, hn, rfl, rfl⟩

/-- The same for Component B. -/
theorem State.runB_congr {s s' : State} (op : StateB → Run StateB Result) (hb : s'.b = s.b)
    (hf : s'.st.ovfB = s.st.ovfB) (hn : s'.freeB = s.freeB) :
    ∃ rs, (s'.runB op).b = (s.runB op).b ∧ (s'.runB op).st.ovfB = (s.runB op).st.ovfB ∧
      (s'.runB op).freeB = (s.runB op).freeB ∧ (s.runB op).output = s.output ++ rs ∧
      (s'.runB op).output = s'.output ++ rs := by
  cases hs : s.st.ovfB with
  | true =>
    exact ⟨Config.freeResults .b s.freeB, by
      simp [State.runB_flagged op hs, State.runB_flagged op (hf.trans hs), hn]⟩
  | false =>
    cases h : (op s.b).final with
    | none =>
      exact ⟨(op s.b).emitted ++ Config.freeResults .b s.freeB, by
        simp [State.runB_none hs h, State.runB_none (hf.trans hs) (hb ▸ h), hb, hn]⟩
    | some b =>
      rw [State.runB_some hs h, State.runB_some (hf.trans hs) (hb ▸ h), hb]
      exact ⟨_, rfl, hf, hn, rfl, rfl⟩

/-- Settles O59: a command is an operation of its component, which reads nothing of the other. -/
theorem componentsDoNotObserveEachOther : Obligations.ComponentsDoNotObserveEachOther := by
  constructor
  · intro i s s' t hc ha hf hn h
    obtain ⟨rs, hrs⟩ := State.runA_congr (operationA i) ha hf hn
    exact ⟨_, rs, exec_componentA hc (wellFormed_of_exec h) s', exec_next_componentA hc h ▸ hrs⟩
  · intro i s s' t hc hb hf hn h
    obtain ⟨rs, hrs⟩ := State.runB_congr (operationB i) hb hf hn
    exact ⟨_, rs, exec_componentB hc (wellFormed_of_exec h) s', exec_next_componentB hc h ▸ hrs⟩

end Sys2Proof.Machine

namespace Sys2Proof

/-! ### A command read back from its own beats (R75, R77) -/

theorem wellFormed_aBlock_iff {xs : List Sample} :
    (Instr.aBlock xs).WellFormed ↔ xs.length = Config.cfg.ducN := beq_iff_eq

theorem wellFormed_bBlock_iff {cnt : Count} {zs : List (Rails Sample)} :
    (Instr.bBlock cnt zs).WellFormed ↔ zs.length = chunkLength Config.cfg * cnt.toNat := beq_iff_eq

/-- A sample of the number system survives the port. -/
theorem sampleOfBeat_beatOfSample {v : Sample} (hv : Config.cfg.num.carrier v) :
    sampleOfBeat (beatOfSample v) = v := by
  rw [sampleOfBeat, beatOfSample, BitVec.ofNat_toNat, BitVec.setWidth_eq, Config.cfg_portWf.decS_encS v hv]

@[simp] theorem wordAOfBeat_toNat (u : WordA) : wordAOfBeat u.toNat = u := by simp [wordAOfBeat]

@[simp] theorem wordBOfBeat_toNat (u : WordB) : wordBOfBeat u.toNat = u := by simp [wordBOfBeat]

/-- The `k`-th pair of a stream of pairs stands at position `2 * k` (R75). -/
theorem railsAt_flatMap_beatsOfRails {α β : Type} (f : Beat → β) (g : α → Beat) {zs : List (Rails α)}
    {k : Nat} (hk : k < zs.length) :
    railsAt f (fun n => (zs.flatMap (beatsOfRails g)).getD n 0) (2 * k) = zs[k].map (f ∘ g) := by
  induction zs generalizing k with
  | nil => simp at hk
  | cons z zs ih =>
    cases k with
    | zero => rfl
    | succ k => exact ih (Nat.lt_of_succ_lt_succ hk)

/-- The command assembled from a command's header and operand stream is that command. -/
theorem assemble_operandStream {i : Instr} (hw : i.WellFormed) (hi : i.InCarrier) :
    assemble i.header (fun k => i.operandStream.getD k 0) = i := by
  have back : ∀ v ∈ i.samples, sampleOfBeat (beatOfSample v) = v := fun v hv =>
    sampleOfBeat_beatOfSample (hi v hv)
  have backRails : ∀ z : Rails Sample, (∀ v ∈ [z.re, z.im], v ∈ i.samples) →
      z.map (sampleOfBeat ∘ beatOfSample) = z := fun z hz => by
    simp only [Rails.map, Function.comp, back z.re (hz _ (by simp)), back z.im (hz _ (by simp))]
  cases i with
  | aIirf | cicIntz => rfl
  | aPre x | aQnt x | aPush x =>
    simp [assemble, Instr.header, Instr.row, Instr.operandStream, back x (by simp [Instr.samples])]
  | aIirx u => exact congrArg Instr.aIirx (wordAOfBeat_toNat u)
  | zs2 z => exact congrArg Instr.zs2 (backRails z fun _ => id)
  | firPush z => exact congrArg Instr.firPush (backRails z fun _ => id)
  | cicQnt z => exact congrArg Instr.cicQnt (backRails z fun _ => id)
  | bPush z => exact congrArg Instr.bPush (backRails z fun _ => id)
  | cicComb u | cicInt u | mix u =>
    simp [assemble, Instr.header, Instr.row, Instr.operandStream, beatsOfRails, railsAt]
  | aBlock xs =>
    have hl := wellFormed_aBlock_iff.1 hw
    refine congrArg Instr.aBlock (List.ext_getElem (by simp [hl]) fun k _ hk => ?_)
    simpa [Instr.operandStream, hk] using back xs[k] (List.getElem_mem hk)
  | bBlock cnt zs =>
    have hl := wellFormed_bBlock_iff.1 hw
    refine congrArg (Instr.bBlock cnt) (List.ext_getElem ?_ fun k _ hk => ?_)
    · rw [List.length_map, List.length_range, hl, Instr.header, Instr.count]
    · rw [List.getElem_map, List.getElem_range]
      exact (railsAt_flatMap_beatsOfRails _ _ hk).trans
        (backRails zs[k] fun v hv => List.mem_flatMap.2 ⟨zs[k], List.getElem_mem hk, hv⟩)

/-- The decoder gives back a well-formed command of samples of the number system. -/
theorem decode_encode {i : Instr} (hw : i.WellFormed) (hi : i.InCarrier) :
    decode (encode i) = .command i [] := by
  have hword : BitVec.ofNat 32 i.header.word.toNat = i.header.word := by simp
  have hlen := operandStream_length i hw
  simp only [decode, encode, hword, decodeWord_header, assemble_operandStream hw hi]
  rw [if_pos hlen.ge, ← hlen, List.drop_length]

namespace Machine

/-! ### The step takes the command at the front of the port -/

/-- What the decoder finds among the leading beats is what the port takes. -/
theorem fetch_of_decode {input : List HostInput} {i : Instr} {rest : List Beat}
    (h : decode (leadingBeats input).1 = .command i rest) :
    fetch input = .command i (rest.map .beat ++ (leadingBeats input).2) := by
  simp only [fetch, h]

theorem step_of_fetch {s : State} {i : Instr} {rest : List HostInput} (h : fetch s.input = .command i rest) :
    step s = exec i { s with input := rest } := by
  simp only [step, h]

/-- Settles O9: the step runs what the port takes, and the port takes what the decoder finds. -/
theorem stepRunsTheDecodedCommand : Obligations.StepRunsTheDecodedCommand :=
  fun _ _ _ h => step_of_fetch (fetch_of_decode h)

/-- Settles O10: the decoder gives back a command from its own beats, whatever beats follow, and what the port
leaves is then what stood after them. -/
theorem stepRunsTheCommandPutToThePort : Obligations.StepRunsTheCommandPutToThePort := by
  intro s i rest hw hi hs
  have hd : decode (leadingBeats s.input).1 = .command i (leadingBeats rest).1 := by
    rw [hs, leadingBeats_map_append]
    exact decode_append (decode_encode hw hi) _
  have hr : (leadingBeats rest).1.map .beat ++ (leadingBeats s.input).2 = rest := by
    rw [hs, leadingBeats_map_append, leadingBeats_append]
  rw [stepRunsTheDecodedCommand s i _ hd, hr]

/-! ### Two blocks are one (R67, R177) -/

/-- The block of two lists performs the block of the first and then that of the second; the counts say only
how long the lists are. -/
theorem operationB_bBlock_append (c c1 c2 : Count) (zs1 zs2 : List (Rails Sample)) (b : StateB) :
    operationB (.bBlock c (zs1 ++ zs2)) b =
      (operationB (.bBlock c1 zs1) b).andThen (operationB (.bBlock c2 zs2)) := by
  simp only [operationB, blockB, Run.forEach_append, Run.results_andThen]

/-- Counts that add up within 24 bits make the block of two well-formed blocks well formed (R79). -/
theorem wellFormed_bBlock_append {c1 c2 : Count} {zs1 zs2 : List (Rails Sample)}
    (hc : c1.toNat + c2.toNat < 2 ^ 24) (h1 : (Instr.bBlock c1 zs1).WellFormed)
    (h2 : (Instr.bBlock c2 zs2).WellFormed) : (Instr.bBlock (c1 + c2) (zs1 ++ zs2)).WellFormed := by
  rw [wellFormed_bBlock_iff] at h1 h2 ⊢
  rw [List.length_append, h1, h2, BitVec.toNat_add_of_lt hc, Nat.mul_add]

/-- Settles O49: without `Overflow` each block is its operation, and the two operations in sequence are that of
the one block. -/
theorem consecutiveBlocksAreOneBlock : Obligations.ConsecutiveBlocksAreOneBlock := by
  intro c1 c2 zs1 zs2 s t hc hs h ht
  obtain ⟨u, h1, h'⟩ := execAll_cons_inv h
  obtain ⟨v, h2, hv⟩ := execAll_cons_inv h'
  cases hv
  have hw := wellFormed_bBlock_append hc (wellFormed_of_exec h1) (wellFormed_of_exec h2)
  obtain ⟨hu, b2, hb2, rfl⟩ := exec_clearB rfl h2 ht
  obtain ⟨-, b1, hb1, rfl⟩ := exec_clearB rfl h1 hu
  have hop := (operationB_bBlock_append (c1 + c2) c1 c2 zs1 zs2 s.b).trans (Run.andThen_some hb1 _)
  rw [exec_of_operationB rfl hw hs (hop.trans (congrArg _ hb2)), List.append_assoc]

/-! ### The two components commute (R62) -/

theorem Status.eq_of_flags {x y : Status} (hA : x.ovfA = y.ovfA) (hB : x.ovfB = y.ovfB)
    (hill : x.ill = y.ill) : x = y := by
  cases x; cases y; simp_all

theorem State.eq_of_fields {s t : State} (a : s.a = t.a) (b : s.b = t.b) (st : s.st = t.st)
    (input : s.input = t.input) (output : s.output = t.output) (freeA : s.freeA = t.freeA)
    (freeB : s.freeB = t.freeB) : s = t := by
  cases s; cases t; simp_all

/-- An operation of Component A and one of Component B, in either order: the same results of each, and the same
state but for the order of the results. -/
theorem State.runA_runB_comm (s : State) (f : StateA → Run StateA Result) (g : StateB → Run StateB Result) :
    ∃ ra rb, (s.runB g).runA f = { (s.runA f).runB g with output := s.output ++ rb ++ ra } ∧
      (s.runA f).output = s.output ++ ra ∧ (s.runB g).output = s.output ++ rb ∧
      ((s.runA f).runB g).output = s.output ++ ra ++ rb := by
  have A := s.runA_touchesOnlyA f
  have B := s.runB_touchesOnlyB g
  have AB := (s.runA f).runB_touchesOnlyB g
  have BA := (s.runB g).runA_touchesOnlyA f
  obtain ⟨ra, ha, hovfA, hfreeA, houtA, houtBA⟩ := State.runA_congr f B.a B.ovfA B.freeA
  obtain ⟨rb, hb, hovfB, hfreeB, houtB, houtAB⟩ := State.runB_congr g A.b A.ovfB A.freeB
  refine ⟨ra, rb, State.eq_of_fields ?_ ?_ (Status.eq_of_flags ?_ ?_ ?_) ?_ ?_ ?_ ?_, houtA, houtB, ?_⟩
  · exact ha.trans AB.a.symm
  · exact BA.b.trans hb.symm
  · exact hovfA.trans AB.ovfA.symm
  · exact BA.ovfB.trans hovfB.symm
  · exact (BA.ill.trans B.ill).trans (AB.ill.trans A.ill).symm
  · exact (BA.input.trans B.input).trans (AB.input.trans A.input).symm
  · exact houtBA.trans (congrArg (· ++ ra) houtB)
  · exact hfreeA.trans AB.freeA.symm
  · exact BA.freeB.trans hfreeB.symm
  · exact houtAB.trans (congrArg (· ++ rb) houtA)

/-- Settles O58: each command is an operation of its own component, and the two operations commute. -/
theorem componentsCommute : Obligations.ComponentsCommute := by
  intro i j s s1 s2 hi hj h1 h2
  obtain ⟨ra, rb, hcomm, hra, hrb, hout⟩ := s.runA_runB_comm (operationA i) (operationB j)
  rw [exec_next_componentA hi h1, exec_next_componentB hj h2]
  exact ⟨_, ra, rb, exec_componentB hj (wellFormed_of_exec h2) _,
    hcomm ▸ exec_componentA hi (wellFormed_of_exec h1) _, hra, hrb, hout⟩

end Machine
end Sys2Proof

namespace Sys2Proof

/-! ### The command word and the command's beats (R71 to R80) -/

/-- Settles O5: a command is read back from its own beats, and the beats after a whole command do not change
it. -/
theorem decodeGivesBackEncode : Obligations.DecodeGivesBackEncode :=
  fun _ rest hw hi => Machine.decode_append (decode_encode hw hi) rest

/-- Settles O7: a word is the word of its two fields, and the word of a header decodes to it. -/
theorem eachCommandWordHasOneMeaning : Obligations.EachCommandWordHasOneMeaning := by
  rintro cw ⟨row, cnt⟩
  constructor
  · intro h
    obtain ⟨rfl, hf⟩ := decodeWord_ok h
    exact ⟨Header.word_op _, Header.word_cnt _, hf⟩
  · rintro ⟨hop, rfl, hf⟩
    have hw := word_of_fields cw row hop.symm
    exact (congrArg decodeWord hw).symm.trans (decodeWord_word _ hf)

/-- Settles O6: the decoder evaluates on each of the eight words. -/
theorem sampleWordsDecode : Obligations.SampleWordsDecode := by
  unfold Obligations.SampleWordsDecode
  decide

/-! ### What the port forms is well formed (R79) -/

/-- Two beats for each pair of a list. -/
theorem length_flatMap_beatsOfRails {α : Type} (f : α → Beat) (zs : List (Rails α)) :
    (zs.flatMap (beatsOfRails f)).length = 2 * zs.length := by
  simp [List.length_flatMap, beatsOfRails, Nat.mul_comm]

/-- A command with the operand beats its row asks for is well formed: only the two block commands can have
another number. -/
theorem wellFormed_of_operandStream_length {i : Instr}
    (h : i.operandStream.length = i.header.operandBeats) : i.WellFormed := by
  cases i with
  | aBlock xs => exact wellFormed_aBlock_iff.2 ((List.length_map _).symm.trans h)
  | bBlock cnt zs =>
    have h2 := (length_flatMap_beatsOfRails beatOfSample zs).symm.trans h
    exact wellFormed_bBlock_iff.2 (Nat.eq_of_mul_eq_mul_left Nat.two_pos h2)
  | aPre | aQnt | aIirx | aIirf | aPush | zs2 | firPush | cicQnt | cicComb | cicInt | cicIntz | mix
  | bPush => rfl

theorem wellFormed_iff (i : Instr) :
    i.WellFormed ↔ i.operandStream.length = i.header.operandBeats :=
  ⟨operandStream_length i, wellFormed_of_operandStream_length⟩

/-- Every command the decoder assembles is well formed. -/
theorem assemble_wellFormed (h : Header) (ops : Nat → Beat) : (assemble h ops).WellFormed := by
  obtain ⟨row, cnt⟩ := h
  cases row with
  | aBlock => exact wellFormed_aBlock_iff.2 (by simp)
  | bBlock => exact wellFormed_bBlock_iff.2 (by simp)
  | aPre | aQnt | aIirx | aIirf | aPush | zs2 | firPush | cicQnt | cicComb | cicInt | cicIntz | mix
  | bPush => rfl

/-- An assembled command has the header it was assembled from, whose count is zero in format N. -/
theorem assemble_header (h : Header) (ops : Nat → Beat) (hf : h.row.format = .n → h.cnt = 0) :
    (assemble h ops).header = h := by
  obtain ⟨row, cnt⟩ := h
  cases row with
  | bBlock => rfl
  | aPre | aQnt | aIirx | aIirf | aPush | aBlock | zs2 | firPush | cicQnt | cicComb | cicInt | cicIntz
  | mix | bPush =>
    obtain rfl : cnt = 0 := hf rfl
    rfl

/-- A command the port forms is well formed, and its word and its operand beats have been taken. -/
theorem decode_takes {beats rest : List Beat} {i : Instr} (h : decode beats = .command i rest) :
    i.WellFormed ∧ ∃ taken, beats = taken ++ rest ∧ taken.length = 1 + i.header.operandBeats := by
  obtain ⟨w, ops, hdr, rfl, hd, hn, rfl, rfl⟩ := decode_eq_command h
  obtain ⟨-, hf⟩ := decodeWord_ok hd
  refine ⟨assemble_wellFormed hdr _, w :: ops.take hdr.operandBeats, ?_, ?_⟩
  · rw [List.cons_append, List.take_append_drop]
  · rw [assemble_header hdr _ hf, List.length_cons, List.length_take_of_le hn, Nat.add_comm]

namespace Machine

/-- An ill-formed command is given no meaning. -/
theorem exec_of_not_wellFormed {i : Instr} (h : ¬i.WellFormed) (s : State) :
    exec i s = .refused .malformedCommand := by
  cases i with
  | aBlock xs => exact if_neg fun hl => h (wellFormed_aBlock_iff.2 hl)
  | bBlock cnt zs => exact if_neg fun hl => h (wellFormed_bBlock_iff.2 hl)
  | aPre | aQnt | aIirx | aIirf | aPush | zs2 | firPush | cicQnt | cicComb | cicInt | cicIntz | mix
  | bPush => exact absurd rfl h

/-- Settles O8: the lengths of operand streams, what the decoder takes, and the refusal, command by
command. -/
theorem portFormsOnlyWellFormedCommands : Obligations.PortFormsOnlyWellFormedCommands :=
  ⟨wellFormed_iff, fun _ _ _ => decode_takes, fun _ s h => exec_of_not_wellFormed h s⟩

/-! ### Reserved words and idle steps (R70, R80, R193) -/

/-- A reserved word alone is what the decoder takes, whatever follows it (R80). -/
theorem decode_reserved {w : Beat} (h : ∀ hdr, decodeWord (BitVec.ofNat 32 w) ≠ .ok hdr)
    (rest : List Beat) : ∃ why, decode (w :: rest) = .reserved why rest := by
  cases hd : decodeWord (BitVec.ofNat 32 w) with
  | ok hdr => exact absurd hd (h hdr)
  | error why => exact ⟨why, by simp only [decode, hd]⟩

/-- Settles O11: the port takes the reserved word and leaves what follows it. -/
theorem reservedWordSetsIllOnly : Obligations.ReservedWordSetsIllOnly := by
  intro s w rest hw hs
  obtain ⟨why, hd⟩ := decode_reserved hw (leadingBeats rest).1
  have hf : fetch s.input = .reserved why rest := by
    simp only [hs, fetch, leadingBeats, hd, leadingBeats_append]
  exact ⟨by simp only [step, hf]; rfl, by simp [State.final, Status.clear]⟩

/-- Settles O12: all that stands at the port is beats, and the decoder finds no whole command in them. -/
theorem blockWaitsForAWholeCommand : Obligations.BlockWaitsForAWholeCommand := by
  intro s beats hs hd
  have hl : leadingBeats s.input = (beats, []) := by
    simpa [hs, leadingBeats] using leadingBeats_map_append beats []
  have hf : fetch s.input = .idle := by simp only [fetch, hl, hd]
  simp only [step, hf]

/-! ### Results read back as operands (R77) -/

/-- An integer in range survives its two's-complement word. -/
theorem toInt_ofInt_of_inWidth {w : Nat} (hw : 0 < w) {v : Int} (hv : InWidth w v) :
    (BitVec.ofInt w v).toInt = v :=
  BitVec.toInt_ofInt_eq_self hw hv.1 (Int.lt_of_le_sub_one hv.2)

/-- Settles O14: a beat is a word of its width, and each kind of word gives back its value. -/
theorem resultBeatsReadBack : Obligations.ResultBeatsReadBack := by
  have hA : 0 < Config.cfg.wIir := Nat.zero_lt_of_lt Config.cfg_wf.wIir_ge
  have hB : 0 < Config.cfg.wCic := Nat.zero_lt_of_lt Config.cfg_wf.wCic_ge
  refine ⟨fun v => BitVec.isLt _, fun v => BitVec.isLt _, fun v => BitVec.isLt _,
    fun v => sampleOfBeat_beatOfSample, fun v hv => ?_, fun v hv => ?_, fun n hn => ?_⟩
  · exact (congrArg BitVec.toInt (wordAOfBeat_toNat _)).trans (toInt_ofInt_of_inWidth hA hv)
  · exact (congrArg BitVec.toInt (wordBOfBeat_toNat _)).trans (toInt_ofInt_of_inWidth hB hv)
  · exact (BitVec.toNat_ofNat n _).trans (Nat.mod_eq_of_lt hn)

end Machine
end Sys2Proof

namespace Sys2Proof.Machine

/-! ### Results of a run (R76) -/

section
variable {σ ρ : Type}

/-- A checked operation puts `f v` on the result port exactly when it emits `v`. -/
theorem Run.ofOption_results_eq {f : ρ → List Result} (hf : Function.Injective f) {o : Option (σ × ρ)}
    {s : σ} {v : ρ} : (Run.ofOption o).results f = ⟨f v, some s⟩ ↔ o = some (s, v) := by
  match o with
  | none => simp [Run.results, Run.overflow]
  | some (s', v') => simp [Run.results, hf.eq_iff, and_comm]

theorem Run.mk_some_inj {vs vs' : List ρ} {s s' : σ}
    (h : (⟨vs, some s⟩ : Run σ ρ) = ⟨vs', some s'⟩) : vs = vs' ∧ s = s' := by
  cases h
  exact ⟨rfl, rfl⟩

theorem Run.ofOption_eq {o : Option (σ × ρ)} {s : σ} {v : ρ} :
    Run.ofOption o = ⟨[v], some s⟩ ↔ o = some (s, v) := by
  match o with
  | none => simp [Run.overflow]
  | some (s', v') => simp [and_comm]

theorem Run.results_times (f : ρ → List Result) (op : σ → Run σ ρ) (n : Nat) (s : σ) :
    (Run.times op n s).results f = Run.times (fun s => (op s).results f) n s := by
  induction n generalizing s with
  | zero => rfl
  | succ n ih => exact (Run.results_andThen f _ _).trans (congrArg _ (funext ih))

/-- A loop over a list of equal elements is a loop that counts them. -/
theorem Run.forEach_replicate {α : Type} (op : α → σ → Run σ ρ) (n : Nat) (x : α) (s : σ) :
    Run.forEach op (List.replicate n x) s = Run.times (op x) n s := by
  induction n generalizing s with
  | zero => rfl
  | succ n ih => exact congrArg _ (funext ih)

theorem railsResult_injective {α : Type} {f : α → Result} (hf : Function.Injective f) :
    Function.Injective (railsResult f) := by
  rintro ⟨x, y⟩ ⟨x', y'⟩ h
  simpa [railsResult, hf.eq_iff] using h

theorem sample_injective : Function.Injective Result.sample := fun _ _ => Result.sample.inj
theorem intB_injective : Function.Injective Result.intB := fun _ _ => Result.intB.inj

theorem singleton_sample_injective : Function.Injective fun v => [Result.sample v] :=
  List.singleton_injective.comp sample_injective

end

/-! ### States that differ in one component and the result stream -/

/-- From `s` to `t` nothing changes but Component A and the result stream. -/
def State.SameButA (s t : State) : Prop := t = { s with a := t.a, output := t.output }

/-- From `s` to `t` nothing changes but Component B and the result stream. -/
def State.SameButB (s t : State) : Prop := t = { s with b := t.b, output := t.output }

section
variable {s t u : State}

theorem State.SameButA.trans (h : s.SameButA t) (h' : t.SameButA u) : s.SameButA u :=
  Eq.trans h' (congrArg (fun v : State => { v with a := u.a, output := u.output }) h)

theorem State.SameButA.ovfA (h : s.SameButA t) (hs : s.st.ovfA = false) : t.st.ovfA = false :=
  (congrArg (fun v : State => v.st.ovfA) h).trans hs

theorem State.SameButA.withOutput (h : s.SameButA t) (out : List Result) :
    { t with output := out } = { s with a := t.a, output := out } :=
  congrArg (fun v : State => { v with output := out }) h

theorem State.SameButB.trans (h : s.SameButB t) (h' : t.SameButB u) : s.SameButB u :=
  Eq.trans h' (congrArg (fun v : State => { v with b := u.b, output := u.output }) h)

theorem State.SameButB.ovfB (h : s.SameButB t) (hs : s.st.ovfB = false) : t.st.ovfB = false :=
  (congrArg (fun v : State => v.st.ovfB) h).trans hs

theorem State.SameButB.withOutput (h : s.SameButB t) (out : List Result) :
    { t with output := out } = { s with b := t.b, output := out } :=
  congrArg (fun v : State => { v with output := out }) h

/-! ### A unit command that sets no flag did its operation -/

variable {i : Instr} {vs : List Result}

theorem RunsUnit.componentA (h : RunsUnit i s vs t) (hc : i.component = .a) (hs : s.st.ovfA = false) :
    operationA i s.a = ⟨vs, some t.a⟩ ∧ s.SameButA t := by
  obtain ⟨he, hst, hout⟩ := h
  obtain ⟨-, a, ha, rfl⟩ := exec_clearA hc he (hst ▸ hs)
  obtain rfl := List.append_cancel_left hout
  exact ⟨ha ▸ rfl, rfl⟩

theorem RunsUnit.componentB (h : RunsUnit i s vs t) (hc : i.component = .b) (hs : s.st.ovfB = false) :
    operationB i s.b = ⟨vs, some t.b⟩ ∧ s.SameButB t := by
  obtain ⟨he, hst, hout⟩ := h
  obtain ⟨-, b, hb, rfl⟩ := exec_clearB hc he (hst ▸ hs)
  obtain rfl := List.append_cancel_left hout
  exact ⟨hb ▸ rfl, rfl⟩

end

/-! ### `A.PUSH` and its units (R83, R171, R177) -/

/-- After the pre-filter and the quantiser, `A.PUSH` performs one excited pass and `M - 1` free ones. -/
theorem operationA_aPush {x : Sample} {u : WordA} {a : StateA}
    (hu : quantiseA Config.cfg (preFilter Config.cfg x a).2 = some u.toInt) :
    operationA (.aPush x) a =
      Run.forEach operationA (.aIirx u :: List.replicate (Config.cfg.m - 1) .aIirf)
        (preFilter Config.cfg x a).1 := by
  have hfree : Run.forEach operationA (List.replicate (Config.cfg.m - 1) .aIirf) = fun a =>
      (Run.times (fun a => Run.ofOption (iirFree Config.cfg a)) (Config.cfg.m - 1) a).results
        fun n => [.code n] :=
    funext fun a => (Run.forEach_replicate _ _ _ a).trans (Run.results_times _ _ _ a).symm
  rw [Run.forEach_cons, hfree]
  simp only [operationA, pushA, hu, Run.results_andThen]

/-- Commands of Component A that leave the flag clear and append `vs` did their operations one after another. -/
theorem forEach_operationA_of_execAll {is : List Instr} (hc : ∀ i ∈ is, i.component = .a) {s t : State}
    {vs : List Result} (h : execAll is s = .next t) (ht : t.st.ovfA = false)
    (hout : t.output = s.output ++ vs) :
    Run.forEach operationA is s.a = ⟨vs, some t.a⟩ ∧ s.SameButA t := by
  obtain ⟨-, a, ha, rfl⟩ := execAll_clearA hc h ht
  obtain rfl := List.append_cancel_left hout
  exact ⟨ha ▸ rfl, rfl⟩

/-- Settles O23: the pre-filter's and the quantiser's results are what `A.PUSH` goes on with, and its passes are
the operations of the commands that follow. -/
theorem pushAEqualsItsUnits : Obligations.PushAEqualsItsUnits := by
  intro x f u s s1 s2 t codes hs hpre hqnt hpasses ht hout
  obtain ⟨hop1, h1⟩ := hpre.componentA rfl hs
  obtain ⟨hop2, h2⟩ := hqnt.componentA rfl (h1.ovfA hs)
  obtain ⟨hop, h3⟩ := forEach_operationA_of_execAll
    (by simp [Instr.component, Instr.row, Row.component]) hpasses ht hout
  obtain ⟨⟨rfl⟩, ha1⟩ := Run.mk_some_inj hop1
  obtain ⟨u', hu, e⟩ := Option.map_eq_some_iff.1 (Run.ofOption_eq.1 hop2)
  obtain ⟨ha2, ⟨rfl⟩⟩ := Prod.mk.inj e
  rw [((h1.trans h2).trans h3).withOutput]
  refine exec_of_operationA rfl rfl hs ((operationA_aPush hu).trans ?_)
  rw [← hop, ← ha2, ← ha1]

/-! ### `B.PUSH` and its units (R83, R174, R177) -/

/-- An integrator command and the `MIX` of what it emits, as two commands, are a pass and its `MIX`. -/
theorem passAndMix_of_passByUnits {i : Instr} {pass : StateB → Option (StateB × Rails Int)}
    (hc : i.component = .b)
    (hop : ∀ b, operationB i b = (Run.ofOption (pass b)).results (railsResult .intB)) {s t : State}
    {o : Sample} (hs : s.st.ovfB = false) (h : PassByUnits i s o t) :
    passAndMix Config.cfg pass s.b = ⟨[o], some t.b⟩ ∧ s.SameButB t := by
  obtain ⟨a, s', hpass, hmix⟩ := h
  obtain ⟨hop1, h1⟩ := hpass.componentB hc hs
  obtain ⟨hop2, h2⟩ := hmix.componentB rfl (h1.ovfB hs)
  have hp := (Run.ofOption_results_eq (railsResult_injective intB_injective)).1 ((hop s.b).symm.trans hop1)
  have hm := (Run.ofOption_results_eq singleton_sample_injective).1 hop2
  exact ⟨by simp only [passAndMix, hp, hm, Run.ofOption_some], h1.trans h2⟩

theorem times_of_zeroPassesByUnits {os : List Sample} {s t : State} (hs : s.st.ovfB = false)
    (h : ZeroPassesByUnits s os t) :
    Run.times (passAndMix Config.cfg (integratorZero Config.cfg)) os.length s.b = ⟨os, some t.b⟩ ∧
      s.SameButB t := by
  induction os generalizing s with
  | nil => cases h; exact ⟨rfl, rfl⟩
  | cons o os ih =>
    obtain ⟨s', hpass, hrest⟩ := h
    obtain ⟨hp, h1⟩ := passAndMix_of_passByUnits rfl (fun _ => rfl) hs hpass
    obtain ⟨ht, h2⟩ := ih (h1.ovfB hs) hrest
    exact ⟨by rw [List.length_cons, Run.times, hp, Run.andThen_mk_some, ht]; rfl, h1.trans h2⟩

/-- A zero-stuffed sample taken through the unit commands is one taken through the pipeline. -/
theorem stuffedSample_of_stuffedByUnits {z : Rails Sample} {s t : State} {os : List Sample}
    (hs : s.st.ovfB = false) (h : StuffedByUnits z s os t) :
    stuffedSample Config.cfg z s.b = ⟨os, some t.b⟩ ∧ s.SameButB t := by
  obtain ⟨y, q, d, s1, s2, s3, s4, o, os', hfir, hqnt, hcomb, hint, hzero, hlen, rfl⟩ := h
  obtain ⟨hop1, h1⟩ := hfir.componentB rfl hs
  obtain ⟨hop2, h2⟩ := hqnt.componentB rfl (h1.ovfB hs)
  have h12 := h1.trans h2
  obtain ⟨hop3, h3⟩ := hcomb.componentB rfl (h12.ovfB hs)
  have h13 := h12.trans h3
  obtain ⟨hpass, h4⟩ := passAndMix_of_passByUnits rfl (fun _ => rfl) (h13.ovfB hs) hint
  have h14 := h13.trans h4
  obtain ⟨htimes, h5⟩ := times_of_zeroPassesByUnits (h14.ovfB hs) hzero
  obtain ⟨hy, hb1⟩ := Run.mk_some_inj hop1
  obtain rfl := railsResult_injective sample_injective hy
  obtain ⟨q', hq, e⟩ := Option.map_eq_some_iff.1
    ((Run.ofOption_results_eq (railsResult_injective intB_injective)).1 hop2)
  obtain ⟨hb2, rfl⟩ := Prod.mk.inj e
  have hd := (Run.ofOption_results_eq (railsResult_injective intB_injective)).1 hop3
  rw [← hb2, ← hb1] at hd
  rw [hlen] at htimes
  exact ⟨by simp only [stuffedSample, hq, hd, hpass, Run.andThen_mk_some, htimes, List.singleton_append],
    h14.trans h5⟩

/-- Settles O43: the two zero-stuffed samples go through the units as through the pipeline, one after the
other. -/
theorem pushBEqualsItsUnits : Obligations.PushBEqualsItsUnits := by
  intro z s s1 s2 t os os' hs hzs2 hfirst hsecond
  obtain ⟨hop, h1⟩ := hzs2.componentB rfl hs
  obtain ⟨hrun1, h2⟩ := stuffedSample_of_stuffedByUnits (h1.ovfB hs) hfirst
  have h12 := h1.trans h2
  obtain ⟨hrun2, h3⟩ := stuffedSample_of_stuffedByUnits (h12.ovfB hs) hsecond
  obtain ⟨-, hb⟩ := Run.mk_some_inj hop
  have hpush : pushB Config.cfg z s.b = ⟨os ++ os', some t.b⟩ := by
    simp only [pushB, zeroStuff, hb, hrun1, Run.andThen_mk_some, hrun2]
  rw [(h12.trans h3).withOutput, List.map_eq_flatMap]
  exact exec_of_operationB rfl rfl hs (congrArg (Run.results fun o => [.sample o]) hpush)

/-! ### How many samples Component B emits (R76, R174, R176) -/

section
variable {α σ ρ : Type}

/-- The run, where it ends well, has emitted exactly `n` values. -/
def Run.EmitsCount (n : Nat) (r : Run σ ρ) : Prop := ∀ s, r.final = some s → r.emitted.length = n

theorem Run.emitsCount_overflow (n : Nat) : (Run.overflow : Run σ ρ).EmitsCount n := nofun

theorem Run.emitsCount_ofOption (o : Option (σ × ρ)) : (Run.ofOption o).EmitsCount 1 := by
  cases o with
  | none => exact Run.emitsCount_overflow 1
  | some r => exact fun _ _ => rfl

theorem Run.EmitsCount.andThen {n m : Nat} {r : Run σ ρ} {k : σ → Run σ ρ} (hr : r.EmitsCount n)
    (hk : ∀ s, (k s).EmitsCount m) : (r.andThen k).EmitsCount (n + m) := by
  intro t ht
  obtain ⟨s, hs, hst⟩ := Run.andThen_final.1 ht
  rw [Run.andThen_some hs, List.length_append, hr s hs, hk s t hst]

theorem Run.emitsCount_forEach {n : Nat} {op : α → σ → Run σ ρ} (h : ∀ x s, (op x s).EmitsCount n)
    (xs : List α) (s : σ) : (Run.forEach op xs s).EmitsCount (n * xs.length) := by
  induction xs generalizing s with
  | nil => exact fun _ _ => rfl
  | cons x xs ih =>
    rw [List.length_cons, Nat.mul_succ, Nat.add_comm]
    exact (h x s).andThen ih

theorem Run.emitsCount_times {n : Nat} {op : σ → Run σ ρ} (h : ∀ s, (op s).EmitsCount n) (k : Nat)
    (s : σ) : (Run.times op k s).EmitsCount (n * k) := by
  simpa [Run.forEach_replicate] using Run.emitsCount_forEach (fun _ : Unit => h) (List.replicate k ()) s

end

section
variable (c : Cfg)

theorem passAndMix_emitsCount (pass : StateB → Option (StateB × Rails Int)) (b : StateB) :
    (passAndMix c pass b).EmitsCount 1 := by
  unfold passAndMix
  cases pass b with
  | none => exact Run.emitsCount_overflow 1
  | some r => exact Run.emitsCount_ofOption _

/-- One `MIX` for each of the five integrator passes (R149, R174). -/
theorem stuffedSample_emitsCount (z : Rails Sample) (b : StateB) : (stuffedSample c z b).EmitsCount 5 := by
  unfold stuffedSample
  cases hq : quantiseB c (firPush c z b).2 with
  | none => simpa only [hq] using Run.emitsCount_overflow 5
  | some q =>
    cases hd : combPass c q (firPush c z b).1 with
    | none => simpa only [hq, hd] using Run.emitsCount_overflow 5
    | some r =>
      simpa only [hq, hd] using (passAndMix_emitsCount c (integratorPass c r.2) r.1).andThen
        (Run.emitsCount_times (passAndMix_emitsCount c (integratorZero c)) 4)

theorem pushB_emitsCount (z : Rails Sample) (b : StateB) : (pushB c z b).EmitsCount 10 :=
  (stuffedSample_emitsCount c _ b).andThen (stuffedSample_emitsCount c _)

theorem blockB_emitsCount (zs : List (Rails Sample)) (b : StateB) :
    (blockB c zs b).EmitsCount (10 * zs.length) :=
  Run.emitsCount_forEach (pushB_emitsCount c) zs b

end

/-- A command of Component B that leaves the flag clear, and whose operation is a run that emits `n` samples,
has put `n` samples on the result port. -/
theorem exec_appends_samples {i : Instr} {s t : State} {n : Nat} {r : Run StateB Sample}
    (hc : i.component = .b) (hop : operationB i s.b = r.results fun o => [.sample o])
    (hr : r.EmitsCount n) (h : exec i s = .next t) (ht : t.st.ovfB = false) :
    ∃ os : List Sample, os.length = n ∧ t.output = s.output ++ os.map .sample := by
  obtain ⟨-, b, hb, rfl⟩ := exec_clearB hc h ht
  rw [hop] at hb ⊢
  exact ⟨r.emitted, hr b hb, congrArg (s.output ++ ·) List.map_eq_flatMap.symm⟩

/-- Ten outputs for each sample of a well-formed block are `DUC_N` for each of its chunks. -/
theorem ten_mul_length_of_bBlock {cnt : Count} {zs : List (Rails Sample)}
    (h : (Instr.bBlock cnt zs).WellFormed) : 10 * zs.length = cnt.toNat * Config.cfg.ducN := by
  have hchunk : 10 * chunkLength Config.cfg = Config.cfg.ducN :=
    Nat.mul_div_cancel' (Nat.dvd_of_mod_eq_zero Config.cfg_wf.ducN_mult)
  rw [wellFormed_bBlock_iff.1 h, ← Nat.mul_assoc, hchunk, Nat.mul_comm]

/-- Settles O50: every integrator pass that ends well is followed by one `MIX`, and a sample has ten. -/
theorem countOfSamplesOfB : Obligations.CountOfSamplesOfB := by
  refine ⟨fun z s t => exec_appends_samples rfl rfl (pushB_emitsCount _ z s.b), fun cnt zs s t h => ?_⟩
  rw [← ten_mul_length_of_bBlock (wellFormed_of_exec h)]
  exact exec_appends_samples rfl rfl (blockB_emitsCount _ zs s.b) h

end Sys2Proof.Machine

namespace Sys2Proof.Machine

/-! ### Checked commands of Component A -/

section
variable {i : Instr} {s : State} {vs : List Result}

/-- A command of Component A whose operation is known to overflow. -/
theorem exec_of_overflowA (hc : i.component = .a) (hw : i.WellFormed) (hf : s.st.ovfA = false)
    (h : operationA i s.a = ⟨vs, none⟩) : exec i s = .next (s.overflowA vs) := by
  rw [exec_componentA hc hw, State.runA_none hf (by rw [h]), h]

/-- A command of Component A whose operation ends well exactly when `P` holds and emits nothing otherwise. -/
theorem exec_of_checkedA {P : Prop} [Decidable P] {a : StateA} (hc : i.component = .a) (hw : i.WellFormed)
    (hf : s.st.ovfA = false) (h : operationA i s.a = if P then ⟨vs, some a⟩ else Run.overflow) :
    exec i s = .next (if P then { s with a := a, output := s.output ++ vs } else s.overflowA []) := by
  split_ifs at h ⊢ with hP
  · exact exec_of_operationA hc hw hf h
  · exact exec_of_overflowA hc hw hf h

/-- What an overflowing command of Component A sets, keeps and has emitted (R191, R192). -/
theorem exec_stopsA (hc : i.component = .a) (hw : i.WellFormed) (hf : s.st.ovfA = false)
    (h : operationA i s.a = ⟨vs, none⟩) :
    ∃ t rest, exec i s = .next t ∧ t.st.ovfA = true ∧ t.b = s.b ∧ t.st.ovfB = s.st.ovfB ∧
      t.output = s.output ++ vs ++ rest :=
  ⟨_, _, exec_of_overflowA hc hw hf h, rfl, rfl, rfl, rfl⟩

end

/-! ### The units of Component A (R101 to R108) -/

/-- Settles O16: `A.PRE` has no check, so it performs its operation. -/
theorem preFilterStep : Obligations.PreFilterStep :=
  fun _ => ⟨show Header.word ⟨.aPre, 0⟩ = _ by decide, fun _ hf => exec_of_operationA rfl rfl hf rfl⟩

/-- Settles O18: the quantiser's one check decides. -/
theorem quantiserOfAStep : Obligations.QuantiserOfAStep := by
  refine fun f => ⟨show Header.word ⟨.aQnt, 0⟩ = _ by decide, fun s hf => exec_of_checkedA rfl rfl hf ?_⟩
  simp only [operationA, quantiseA, chk]
  split_ifs <;> rfl

/-- A pass of the IIR recursion with forcing term `u`, as a run (R105). -/
def excitedPass (c : Cfg) (u : Int) (a : StateA) : Run StateA Nat := Run.ofOption (iirExcited c u a)

/-- A pass ends well exactly when its five checks pass (R105). -/
theorem excitedPass_eq (c : Cfg) (u : Int) (a : StateA) :
    excitedPass c u a =
      if IirFits c u a then ⟨[(iirValue c u a + c.dcOffset).toNat], some (a.shift (iirValue c u a))⟩
      else Run.overflow := by
  unfold excitedPass
  split_ifs with hfit
  · rw [iirExcited_eq_some.2 ⟨hfit, rfl⟩, Run.ofOption_some]
  · rw [Option.eq_none_iff_forall_ne_some.2 fun _ h => hfit (iirExcited_eq_some.1 h).1, Run.ofOption_none]

/-- A free-running pass is an excited pass with forcing term 0 (R108). -/
theorem iirFree_eq_iirExcited_zero (c : Cfg) : iirFree c = iirExcited c 0 :=
  funext fun _ => Option.ext fun _ => iirFree_eq_some.trans iirExcited_eq_some.symm

/-- Settles O19: the pass's checks decide, and its value is the recursion's. -/
theorem excitedIirPass : Obligations.ExcitedIirPass := by
  refine fun u => ⟨show Header.word ⟨.aIirx, 0⟩ = _ by decide,
    fun s n hf hn => exec_of_checkedA rfl rfl hf ?_⟩
  obtain rfl : n = iirValue Config.cfg u.toInt s.a := hn
  refine (congrArg (Run.results fun n => [.code n]) (excitedPass_eq _ _ _)).trans ?_
  split_ifs <;> rfl

/-- Settles O21: a free pass is the excited pass of 0, and the operand word 0 is the integer 0. -/
theorem freePassIsExcitedPassOfZero : Obligations.FreePassIsExcitedPassOfZero := by
  intro s
  have hop : operationA .aIirf = operationA (.aIirx 0) := by
    simp only [operationA, iirFree_eq_iirExcited_zero, BitVec.ofNat_eq_ofNat, BitVec.toInt_zero]
  rw [exec_componentA rfl rfl, exec_componentA rfl rfl, hop]

/-- Settles O20: it is `A.IIRX 0`, and a zero forcing term adds nothing. -/
theorem freeIirPass : Obligations.FreeIirPass := by
  refine ⟨by decide, fun s n hf hn => ?_⟩
  have h0 : (0 : WordA).toInt = 0 := BitVec.toInt_zero
  have h := (excitedIirPass 0).2 s n hf (by rw [hn, h0, zero_add])
  rwa [h0, ← freePassIsExcitedPassOfZero] at h

/-! ### The pre-filter over a stream (R102) -/

/-- Commands of which command `j` takes `st j` to `st (j + 1)`. -/
theorem execAll_of_steps {is : List Instr} {st : Nat → State}
    (h : ∀ j (hj : j < is.length), exec is[j] (st j) = .next (st (j + 1))) :
    execAll is (st 0) = .next (st is.length) := by
  induction is generalizing st with
  | nil => rfl
  | cons i is ih =>
    have h0 : exec i (st 0) = .next (st 1) := h 0 (Nat.zero_lt_succ _)
    rw [execAll_cons h0]
    exact ih (st := fun j => st (j + 1)) fun j hj => h (j + 1) (Nat.succ_lt_succ hj)

/-- The stream `d` samples late: sample `j - d`, and `rzero` before the first. -/
def delayed (xs : List Sample) (d j : Nat) : Sample := if j < d then 0 else xs.getD (j - d) 0

@[simp] theorem delayed_zero (xs : List Sample) (j : Nat) : delayed xs 0 j = xs.getD j 0 := rfl

@[simp] theorem delayed_succ (xs : List Sample) (d j : Nat) : delayed xs (d + 1) (j + 1) = delayed xs d j := by
  simp [delayed]

/-- What the `j`-th `A.PRE` of a stream emits. -/
def preFilterResult (xs : List Sample) (j : Nat) : Result :=
  .sample (Config.cfg.num.radd (xs.getD j 0) (Config.cfg.num.rmul (delayed xs 2 j) Config.cfg.beta2))

/-- The state before the `j`-th `A.PRE` of a stream. -/
def preFiltered (xs : List Sample) (s : State) (j : Nat) : State :=
  { s with
    a := { s.a with f1 := delayed xs 1 j, f2 := delayed xs 2 j }
    output := s.output ++ (List.range j).map (preFilterResult xs) }

theorem preFiltered_zero (xs : List Sample) {s : State} (h1 : s.a.f1 = 0) (h2 : s.a.f2 = 0) :
    preFiltered xs s 0 = s := by
  obtain ⟨⟨f1, f2, n1, n2⟩, b, st, input, output, freeA, freeB⟩ := s
  obtain ⟨rfl, rfl⟩ : f1 = 0 ∧ f2 = 0 := ⟨h1, h2⟩
  simp [preFiltered, delayed]

theorem exec_aPre_preFiltered (xs : List Sample) {s : State} (hf : s.st.ovfA = false) (j : Nat) :
    exec (.aPre (xs.getD j 0)) (preFiltered xs s j) = .next (preFiltered xs s (j + 1)) := by
  rw [(preFilterStep _).2 (preFiltered xs s j) hf]
  simp [preFiltered, preFilterResult, List.range_succ]

/-- Settles O17: the registers hold the stream one and two samples late. -/
theorem preFilterOverAStream : Obligations.PreFilterOverAStream := by
  intro xs s hf h1 h2
  have h := execAll_of_steps (is := xs.map .aPre) (st := preFiltered xs s) fun j hj => by
    rw [List.getElem_map, ← exec_aPre_preFiltered xs hf, List.getD_eq_getElem]
  rw [preFiltered_zero xs h1 h2, List.length_map] at h
  exact ⟨_, h, rfl⟩

/-! ### Loops whose rounds are known -/

section
variable {α σ ρ : Type} {op : α → σ → Run σ ρ} {xs : List α} {st : Nat → σ} {out : Nat → List ρ} {k : Nat}

/-- A loop whose first `k` rounds end well goes on with the rest of its list. -/
theorem Run.forEach_of_rounds (hk : k ≤ xs.length)
    (h : ∀ j (hj : j < k), op (xs[j]'(hj.trans_le hk)) (st j) = ⟨out j, some (st (j + 1))⟩) :
    Run.forEach op xs (st 0) =
      Run.andThen ⟨(List.range k).flatMap out, some (st k)⟩ (Run.forEach op (xs.drop k)) := by
  induction k with
  | zero => simp
  | succ k ih =>
    rw [ih (Nat.le_of_succ_le hk) fun j hj => h j (Nat.lt_succ_of_lt hj), Run.andThen_mk_some,
      List.drop_eq_getElem_cons hk, Run.forEach_cons, h k (Nat.lt_succ_self k)]
    simp [List.range_succ]

/-- A loop whose rounds all end well. -/
theorem Run.forEach_completes
    (h : ∀ j (hj : j < xs.length), op xs[j] (st j) = ⟨out j, some (st (j + 1))⟩) :
    Run.forEach op xs (st 0) = ⟨(List.range xs.length).flatMap out, some (st xs.length)⟩ := by
  rw [Run.forEach_of_rounds le_rfl h]
  simp

/-- A loop whose round `k` is the first to overflow. -/
theorem Run.forEach_stops {es : List ρ} (hk : k < xs.length)
    (h : ∀ j (hj : j < k), op (xs[j]'(hj.trans hk)) (st j) = ⟨out j, some (st (j + 1))⟩)
    (hstop : op xs[k] (st k) = ⟨es, none⟩) :
    Run.forEach op xs (st 0) = ⟨(List.range k).flatMap out ++ es, none⟩ := by
  rw [Run.forEach_of_rounds hk.le h, Run.andThen_mk_some, List.drop_eq_getElem_cons hk, Run.forEach_cons,
    hstop, Run.andThen_mk_none]

end

/-! ### Codes of a recursion -/

section
variable {c : Cfg} {n : Nat → Int}

/-- The code of slot `j` of a recursion with values `n` (R109). -/
def slotCode (c : Cfg) (n : Nat → Int) (j : Nat) : Nat := (n (j + 2) + c.dcOffset).toNat

/-- The codes of the first `k` slots. -/
def slotCodes (c : Cfg) (n : Nat → Int) (k : Nat) : List Nat := (List.range k).map (slotCode c n)

theorem flatMap_slotCode (k : Nat) : (List.range k).flatMap (fun j => [slotCode c n j]) = slotCodes c n k :=
  List.map_eq_flatMap.symm

theorem slotCodes_add (p q : Nat) :
    slotCodes c n (p + q) = slotCodes c n p ++ slotCodes c (fun i => n (p + i)) q := by
  simp [slotCodes, slotCode, List.range_add, Nat.add_assoc]

theorem flatMap_slotCodes (m l : Nat) :
    (List.range l).flatMap (fun q => slotCodes c (fun i => n (q * m + i)) m) = slotCodes c n (l * m) := by
  induction l with
  | zero => simp [slotCodes]
  | succ l ih => simp [List.range_succ, ih, Nat.succ_mul, slotCodes_add]

theorem flatMap_code_slotCodes (k : Nat) : (slotCodes c n k).flatMap (fun v => [Result.code v]) =
    (List.range k).map fun j => .code (n (j + 2) + c.dcOffset).toNat := by
  rw [← List.map_eq_flatMap, slotCodes, List.map_map]
  rfl

/-- A pass whose checks pass, in a recursion with values `n`. -/
theorem excitedPass_of_fits {u : Int} {j : Nat} (f1 f2 : Sample)
    (hn : n (j + 2) = iirValue c u ⟨0, 0, n (j + 1), n j⟩) (hfit : IirFits c u ⟨0, 0, n (j + 1), n j⟩) :
    excitedPass c u ⟨f1, f2, n (j + 1), n j⟩ =
      ⟨[slotCode c n j], some ⟨f1, f2, n (j + 2), n (j + 1)⟩⟩ := by
  rw [excitedPass_eq, slotCode, hn]
  exact if_pos hfit

/-! ### `A.PUSH` (R109, R171) -/

variable {x : Sample} {a : StateA} {u : Int}

/-- The forcing terms of the slots of one sample: the quantised input, then zeros (R109). -/
def forcing (c : Cfg) (u : Int) : List Int := u :: List.replicate (c.m - 1) 0

theorem forcing_length (hm : 1 ≤ c.m) : (forcing c u).length = c.m := by
  simp [forcing]
  omega

theorem forcing_getElem {j : Nat} (hj : j < (forcing c u).length) :
    (forcing c u)[j] = if j = 0 then u else 0 := by
  cases j <;> simp [forcing]

/-- After the pre-filter and the quantiser, `A.PUSH` is one pass for each forcing term. -/
theorem pushA_eq_forEach (hu : quantiseA c (preFilter c x a).2 = some u) :
    pushA c x a = Run.forEach (excitedPass c) (forcing c u) (preFilter c x a).1 := by
  have hfree : Run.forEach (excitedPass c) (List.replicate (c.m - 1) 0) =
      Run.times (fun a => Run.ofOption (iirFree c a)) (c.m - 1) := by
    rw [iirFree_eq_iirExcited_zero]
    exact funext (Run.forEach_replicate _ _ _)
  rw [forcing, Run.forEach_cons, hfree]
  simp only [pushA, hu, excitedPass]

/-- `u` and `n` are the quantised pre-filter output and the values of the recursion of one sample, from the
state `a` (R109, R171). -/
structure FollowsPush (c : Cfg) (x : Sample) (a : StateA) (u : Int) (n : Nat → Int) : Prop where
  quantised : u = c.quantA (c.num.rmul (c.num.radd x (c.num.rmul a.f2 c.beta2)) c.aScale)
  old2 : n 0 = a.n2
  old1 : n 1 = a.n1
  value : ∀ j < c.m, n (j + 2) = iirValue c (if j = 0 then u else 0) ⟨0, 0, n (j + 1), n j⟩

/-- No check of slot `j` of one sample fails. -/
abbrev PushSlotFits (c : Cfg) (u : Int) (n : Nat → Int) (j : Nat) : Prop :=
  (j = 0 → InWidth c.wIir u) ∧ IirFits c (if j = 0 then u else 0) ⟨0, 0, n (j + 1), n j⟩

/-- Component A before slot `j` of one sample, after the pre-filter. -/
def pushState (x : Sample) (a : StateA) (n : Nat → Int) (j : Nat) : StateA := ⟨x, a.f1, n (j + 1), n j⟩

theorem FollowsPush.pushA_eq (h : FollowsPush c x a u n) (hu : InWidth c.wIir u) :
    pushA c x a = Run.forEach (excitedPass c) (forcing c u) (pushState x a n 0) := by
  obtain ⟨rfl, h2, h1, -⟩ := h
  rw [pushA_eq_forEach (quantiseA_eq_some.2 ⟨hu, rfl⟩), pushState, h1, h2]
  rfl

theorem FollowsPush.round (h : FollowsPush c x a u n) {j : Nat} (hj : j < c.m)
    (hfit : PushSlotFits c u n j) :
    excitedPass c (if j = 0 then u else 0) (pushState x a n j) =
      ⟨[slotCode c n j], some (pushState x a n (j + 1))⟩ :=
  excitedPass_of_fits x a.f1 (h.value j hj) hfit.2

/-- `A.PUSH` where every slot passes its checks. -/
theorem FollowsPush.completes (h : FollowsPush c x a u n) (hm : 1 ≤ c.m)
    (hfit : ∀ j < c.m, PushSlotFits c u n j) :
    pushA c x a = ⟨slotCodes c n c.m, some (pushState x a n c.m)⟩ := by
  have hlen : (forcing c u).length = c.m := forcing_length hm
  have hround (j : Nat) (hj : j < (forcing c u).length) :
      excitedPass c (forcing c u)[j] (pushState x a n j) =
        ⟨[slotCode c n j], some (pushState x a n (j + 1))⟩ := by
    rw [forcing_getElem, h.round (hlen ▸ hj) (hfit j (hlen ▸ hj))]
  rw [h.pushA_eq ((hfit 0 hm).1 rfl), Run.forEach_completes hround, hlen, flatMap_slotCode]

/-- `A.PUSH` where slot `k` is the first with a failing check. -/
theorem FollowsPush.stops (h : FollowsPush c x a u n) {k : Nat} (hk : k < c.m)
    (hfit : ∀ j < k, PushSlotFits c u n j) (hnot : ¬PushSlotFits c u n k) :
    pushA c x a = ⟨slotCodes c n k, none⟩ := by
  by_cases hu : InWidth c.wIir u
  · have hk' : k < (forcing c u).length := by rwa [forcing_length (by omega)]
    have hround (j : Nat) (hj : j < k) :
        excitedPass c ((forcing c u)[j]'(hj.trans hk')) (pushState x a n j) =
          ⟨[slotCode c n j], some (pushState x a n (j + 1))⟩ := by
      rw [forcing_getElem, h.round (hj.trans hk) (hfit j hj)]
    have hfail : ¬IirFits c (if k = 0 then u else 0) (pushState x a n k) := fun hp => hnot ⟨fun _ => hu, hp⟩
    have hstop : excitedPass c (forcing c u)[k] (pushState x a n k) = ⟨[], none⟩ := by
      rw [forcing_getElem, excitedPass_eq, if_neg hfail, Run.overflow]
    rw [h.pushA_eq hu, Run.forEach_stops hk' hround hstop, flatMap_slotCode, List.append_nil]
  · obtain rfl : k = 0 := by
      by_contra h0
      exact hu ((hfit 0 (Nat.pos_of_ne_zero h0)).1 rfl)
    have hq : quantiseA c (preFilter c x a).2 = none := chk_eq_none.2 (h.quantised ▸ hu)
    simp only [pushA, hq]
    rfl

end

/-- Settles O22: the passes follow the recursion, slot by slot, up to the first that fails. -/
theorem pushAFollowsTheRecursion : Obligations.PushAFollowsTheRecursion := by
  intro x s u n k hf hu h0 h1 hval hfit
  have h : FollowsPush Config.cfg x s.a u n := ⟨hu, h0, h1, hval⟩
  rw [← flatMap_code_slotCodes, ← flatMap_code_slotCodes]
  constructor
  · rintro rfl
    exact exec_of_operationA rfl rfl hf
      (congrArg (Run.results fun v => [.code v]) (h.completes Config.cfg_wf.m_pos hfit))
  · intro hk hnot
    exact exec_stopsA rfl rfl hf (congrArg (Run.results fun v => [.code v]) (h.stops hk hfit hnot))

/-! ### `A.BLOCK` (R109, R172) -/

section
variable {c : Cfg} {xs : List Sample} {a : StateA} {x : Nat → Sample} {u n : Nat → Int}

/-- `x`, `u` and `n` are the input stream of a block with the two samples before it in front, the quantised
pre-filter outputs and the values of the recursion, from the state `a` (R109, R172). -/
structure FollowsBlock (c : Cfg) (xs : List Sample) (a : StateA) (x : Nat → Sample) (u n : Nat → Int) :
    Prop where
  input2 : x 0 = a.f2
  input1 : x 1 = a.f1
  input : ∀ j < xs.length, x (j + 2) = xs.getD j 0
  old2 : n 0 = a.n2
  old1 : n 1 = a.n1
  quantised : ∀ j < xs.length,
    u j = c.quantA (c.num.rmul (c.num.radd (x (j + 2)) (c.num.rmul (x j) c.beta2)) c.aScale)
  value : ∀ j < xs.length * c.m,
    n (j + 2) = iirValue c (if j % c.m = 0 then u (j / c.m) else 0) ⟨0, 0, n (j + 1), n j⟩

/-- No check of slot `j` of a block fails. -/
abbrev BlockSlotFits (c : Cfg) (u n : Nat → Int) (j : Nat) : Prop :=
  (j % c.m = 0 → InWidth c.wIir (u (j / c.m))) ∧
    IirFits c (if j % c.m = 0 then u (j / c.m) else 0) ⟨0, 0, n (j + 1), n j⟩

/-- Component A before sample `q` of a block. -/
def blockState (c : Cfg) (x : Nat → Sample) (n : Nat → Int) (q : Nat) : StateA :=
  ⟨x (q + 1), x q, n (q * c.m + 1), n (q * c.m)⟩

theorem slot_div {q i m : Nat} (hi : i < m) : (q * m + i) / m = q := by
  rw [Nat.add_comm, Nat.add_mul_div_right _ _ (Nat.zero_lt_of_lt hi), Nat.div_eq_of_lt hi, Nat.zero_add]

theorem slot_lt {q i m l : Nat} (hq : q < l) (hi : i < m) : q * m + i < l * m := by
  rw [Nat.mul_comm q]
  exact Nat.mul_add_lt_mul_of_lt_of_lt hq hi

/-- The checks of slot `i` of sample `q` are those of a slot of the block. -/
theorem blockSlotFits_iff {q i : Nat} (hi : i < c.m) :
    BlockSlotFits c u n (q * c.m + i) ↔ PushSlotFits c (u q) (fun i => n (q * c.m + i)) i := by
  rw [BlockSlotFits, Nat.mul_add_mod_of_lt hi, slot_div hi]
  rfl

theorem FollowsBlock.push (h : FollowsBlock c xs a x u n) {q : Nat} (hq : q < xs.length) :
    FollowsPush c xs[q] (blockState c x n q) (u q) (fun i => n (q * c.m + i)) where
  quantised := by rw [h.quantised q hq, h.input q hq, List.getD_eq_getElem, blockState]
  old2 := rfl
  old1 := rfl
  value i hi := by
    have hlt : q * c.m + i < xs.length * c.m := slot_lt hq hi
    have hv := h.value _ hlt
    rwa [Nat.mul_add_mod_of_lt hi, slot_div hi] at hv

/-- A sample of a block all whose slots pass their checks. -/
theorem FollowsBlock.round (h : FollowsBlock c xs a x u n) (hm : 1 ≤ c.m) {q : Nat} (hq : q < xs.length)
    (hfit : ∀ i < c.m, BlockSlotFits c u n (q * c.m + i)) :
    pushA c xs[q] (blockState c x n q) =
      ⟨slotCodes c (fun i => n (q * c.m + i)) c.m, some (blockState c x n (q + 1))⟩ := by
  rw [(h.push hq).completes hm fun i hi => (blockSlotFits_iff hi).1 (hfit i hi), pushState, blockState,
    blockState, h.input q hq, List.getD_eq_getElem, Nat.succ_mul]
  rfl

theorem FollowsBlock.blockState_zero (h : FollowsBlock c xs a x u n) : blockState c x n 0 = a := by
  simp [blockState, h.input1, h.input2, h.old1, h.old2]

/-- `A.BLOCK` where every slot passes its checks. -/
theorem FollowsBlock.completes (h : FollowsBlock c xs a x u n) (hm : 1 ≤ c.m)
    (hfit : ∀ j < xs.length * c.m, BlockSlotFits c u n j) :
    blockA c xs a = ⟨slotCodes c n (xs.length * c.m), some (blockState c x n xs.length)⟩ := by
  rw [blockA, ← h.blockState_zero, Run.forEach_completes fun q hq =>
    h.round hm hq fun i hi => hfit _ (slot_lt hq hi), flatMap_slotCodes]

/-- `A.BLOCK` where slot `k` is the first with a failing check. -/
theorem FollowsBlock.stops (h : FollowsBlock c xs a x u n) (hm : 1 ≤ c.m) {k : Nat}
    (hk : k < xs.length * c.m) (hfit : ∀ j < k, BlockSlotFits c u n j) (hnot : ¬BlockSlotFits c u n k) :
    blockA c xs a = ⟨slotCodes c n k, none⟩ := by
  obtain ⟨q, i, hi, rfl⟩ : ∃ q i, i < c.m ∧ k = q * c.m + i :=
    ⟨k / c.m, k % c.m, Nat.mod_lt k hm, (Nat.div_add_mod' k c.m).symm⟩
  have hq : q < xs.length := Nat.lt_of_mul_lt_mul_right (a := c.m) (by omega)
  have hstop := (h.push hq).stops hi
    (fun j hj => (blockSlotFits_iff (hj.trans hi)).1 (hfit _ (Nat.add_lt_add_left hj _)))
    (mt (blockSlotFits_iff hi).2 hnot)
  have hround (p : Nat) (hp : p < q) :
      pushA c (xs[p]'(hp.trans hq)) (blockState c x n p) =
        ⟨slotCodes c (fun i => n (p * c.m + i)) c.m, some (blockState c x n (p + 1))⟩ :=
    h.round hm (hp.trans hq) fun i hi => hfit _ ((slot_lt hp hi).trans_le (Nat.le_add_right _ _))
  rw [blockA, ← h.blockState_zero, Run.forEach_stops hq hround hstop, flatMap_slotCodes, slotCodes_add]

end

/-- Settles O25: each sample's slots follow the recursion from the state the sample before leaves. -/
theorem blockAFollowsTheRecursion : Obligations.BlockAFollowsTheRecursion := by
  intro xs s x u n k hf hlen hx0 hx1 hx h0 h1 hu hval hfit
  rw [← hlen] at hx hu hval ⊢
  have h : FollowsBlock Config.cfg xs s.a x u n := ⟨hx0, hx1, hx, h0, h1, hu, hval⟩
  have hw : (Instr.aBlock xs).WellFormed := wellFormed_aBlock_iff.2 hlen
  have hm := Config.cfg_wf.m_pos
  rw [← flatMap_code_slotCodes, ← flatMap_code_slotCodes]
  constructor
  · rintro rfl
    exact exec_of_operationA rfl hw hf (congrArg (Run.results fun v => [.code v]) (h.completes hm hfit))
  · intro hk hnot
    exact exec_stopsA rfl hw hf (congrArg (Run.results fun v => [.code v]) (h.stops hm hk hfit hnot))

end Sys2Proof.Machine

namespace Sys2Proof.Machine

/-! ### The zero-stuffer and the FIR filter (R121 to R128) -/

/-- Settles O27: `ZS2` has no check and keeps no state. -/
theorem zeroStuffStep : Obligations.ZeroStuffStep :=
  fun _ => ⟨show Header.word ⟨.zs2, 0⟩ = _ by decide, fun _ hf => exec_of_operationB rfl rfl hf rfl⟩

/-- The state a `FIR.PUSH` leaves: the operand pushed, and the two convolutions of the new delay line on the
result port (R123). -/
def firPushed (z : Rails Sample) (s : State) : State :=
  { s with
    b := pushSample z s.b
    output := s.output ++ railsResult .sample (firPush Config.cfg z s.b).2 }

/-- `FIR.PUSH` has no check, so it completes (R123). -/
theorem exec_firPush (z : Rails Sample) {s : State} (hf : s.st.ovfB = false) :
    exec (.firPush z) s = .next (firPushed z s) :=
  exec_of_operationB rfl rfl hf rfl

theorem eq_firPushed_of_exec {z : Rails Sample} {s t : State} (hf : s.st.ovfB = false)
    (h : exec (.firPush z) s = .next t) : t = firPushed z s :=
  Host.Outcome.next.inj (h.symm.trans (exec_firPush z hf))

/-- What a push leaves in a rail, by the two addresses it writes (R52, R123). -/
theorem read_doubleWrite_at {m : Memory} (hm : m.wf) (cur : Fin 21) (v : Sample) (j : Addr) :
    (doubleWrite m cur v).read j = if j.val = cur.val ∨ j.val = cur.val + 21 then v else m.read j :=
  (read_doubleWrite hm cur v j).trans (if_congr (by omega) rfl rfl)

/-- Settles O28: each rail is written at its two addresses; the rest is what `FIR.PUSH` says. -/
theorem firPushStep : Obligations.FirPushStep :=
  fun z => ⟨show Header.word ⟨.firPush, 0⟩ = _ by decide, fun s hf hre him =>
    ⟨firPushed z s, exec_firPush z hf, read_doubleWrite_at hre s.b.cur z.re,
      read_doubleWrite_at him s.b.cur z.im, rfl, rfl, rfl, rfl, rfl, rfl, rfl, rfl, rfl, rfl⟩⟩

/-- Settles O29: `MIR` survives both writes, so the convolution reads the new history. -/
theorem firPushShiftsTheHistory : Obligations.FirPushShiftsTheHistory := by
  intro z s t hf w1 w2 hm h
  obtain rfl := eq_firPushed_of_exec hf h
  obtain ⟨hnewest, holder⟩ := hist_pushSample (z := z) w1 w2
  refine ⟨hnewest, holder, ?_⟩
  have hre := convolve_hist (c := Config.cfg) (mirrored_doubleWrite w1 hm.1 s.b.cur z.re) (advance s.b.cur)
  have him := convolve_hist (c := Config.cfg) (mirrored_doubleWrite w2 hm.2 s.b.cur z.im) (advance s.b.cur)
  exact congrArg (s.output ++ ·) (congrArg₂ (fun re im => [Result.sample re, .sample im]) hre him)

/-- The filter is causal: samples pushed after the `n`-th do not change its response. -/
theorem firResponse_append {c : Cfg} {ss : List (Rails Sample)} (zs : List (Rails Sample)) {n : Nat}
    (hn : n < ss.length) : firResponse c (ss ++ zs) n = firResponse c ss n := by
  have hget (k : Nat) : (ss ++ zs).getD (n - k) ⟨0, 0⟩ = ss.getD (n - k) ⟨0, 0⟩ :=
    List.getD_append _ _ _ _ (by omega)
  simp only [firResponse, hget]

/-- The responses of the filter to a stream, one after another on the result port (R127). -/
def firResponses (ss : List (Rails Sample)) : List Result :=
  (List.range ss.length).flatMap fun n => railsResult .sample (firResponse Config.cfg ss n)

/-- One more push adds the response to it and leaves those before it as they were. -/
theorem firResponses_append_singleton (ss : List (Rails Sample)) (z : Rails Sample) :
    firResponses (ss ++ [z]) =
      firResponses ss ++ railsResult .sample (firResponse Config.cfg (ss ++ [z]) ss.length) := by
  have hold : ∀ n ∈ List.range ss.length, railsResult Result.sample (firResponse Config.cfg (ss ++ [z]) n) =
      railsResult .sample (firResponse Config.cfg ss n) := fun n hn => by
    rw [firResponse_append [z] (List.mem_range.1 hn)]
  rw [firResponses, List.length_append, List.length_singleton, List.range_succ, List.flatMap_append,
    List.flatMap_congr hold, List.flatMap_singleton, firResponses]

/-- A stream of pushes onto an all-zero delay line completes, leaves the stream as the history, and emits the
filter's responses to it (R127). -/
theorem execAll_firPush (ss : List (Rails Sample)) {s : State} (hf : s.st.ovfB = false)
    (hdl : s.b.dl = ⟨Memory.empty, Memory.empty⟩) :
    ∃ t, execAll (ss.map .firPush) s = .next t ∧ t.st.ovfB = false ∧ HistoryIs ss t.b ∧
      t.output = s.output ++ firResponses ss := by
  induction ss using List.reverseRecOn with
  | nil => exact ⟨s, rfl, hf, .empty hdl, (List.append_nil _).symm⟩
  | append_singleton ss z ih =>
    obtain ⟨t, ht, htf, hhist, hout⟩ := ih
    obtain ⟨hhist', hresp⟩ := hhist.push (c := Config.cfg) (z := z)
    refine ⟨firPushed z t, ?_, htf, hhist', ?_⟩
    · rw [List.map_append, execAll_append ht]
      exact execAll_cons (exec_firPush z htf)
    · rw [firPushed, hresp, hout, firResponses_append_singleton, List.append_assoc]

/-- Settles O30: the ring holds the stream, so each push convolves the stream. -/
theorem firOverAStreamIsTheConvolution : Obligations.FirOverAStreamIsTheConvolution := by
  intro ss s hf hre him
  obtain ⟨t, ht, -, -, hout⟩ := execAll_firPush ss hf (congrArg₂ Rails.mk hre him)
  exact ⟨t, ht, hout⟩

/-- A lane of `FIR.PUSH`, its value and its memory, is a function of one memory, the cursor and one operand. -/
theorem firLane_congr (c : Cfg) {m m' : Memory} {cur cur' : Fin 21} {v v' : Sample} (hcur : cur = cur')
    (hm : m = m') (hv : v = v') :
    convolve c (doubleWrite m cur v) (advance cur) = convolve c (doubleWrite m' cur' v') (advance cur') ∧
      doubleWrite m cur v = doubleWrite m' cur' v' := by
  subst hcur hm hv
  exact ⟨rfl, rfl⟩

/-- Settles O31: both rails are the same lane, so equal inputs of two lanes give equal results. -/
theorem firRailsAreIndependent : Obligations.FirRailsAreIndependent := by
  intro z z' s s' t t' hf hf' hcur h h'
  obtain rfl := eq_firPushed_of_exec hf h
  obtain rfl := eq_firPushed_of_exec hf' h'
  exact ⟨_, _, _, _, rfl, rfl, firLane_congr _ hcur, firLane_congr _ hcur, firLane_congr _ hcur⟩

end Sys2Proof.Machine

namespace Sys2Proof.Machine

/-! ### Checked commands of Component B -/

section
variable {i : Instr} {s : State} {vs : List Result}

/-- A command of Component B whose operation is known to overflow. -/
theorem exec_of_overflowB (hc : i.component = .b) (hw : i.WellFormed) (hf : s.st.ovfB = false)
    (h : operationB i s.b = ⟨vs, none⟩) : exec i s = .next (s.overflowB vs) := by
  rw [exec_componentB hc hw, State.runB_none hf (by rw [h]), h]

/-- A command of Component B whose operation ends well exactly when `P` holds and emits nothing otherwise. -/
theorem exec_of_checkedB {P : Prop} [Decidable P] {b : StateB} (hc : i.component = .b) (hw : i.WellFormed)
    (hf : s.st.ovfB = false) (h : operationB i s.b = if P then ⟨vs, some b⟩ else Run.overflow) :
    exec i s = .next (if P then { s with b := b, output := s.output ++ vs } else s.overflowB []) := by
  split_ifs at h ⊢ with hP
  · exact exec_of_operationB hc hw hf h
  · exact exec_of_overflowB hc hw hf h

end

/-! ### The units of the CIC (R141 to R147) -/

/-- Settles O32: the quantiser's two checks decide. -/
theorem quantiserOfBStep : Obligations.QuantiserOfBStep := by
  refine fun y => ⟨show Header.word ⟨.cicQnt, 0⟩ = _ by decide, fun s re im hf hre him =>
    exec_of_checkedB rfl rfl hf ?_⟩
  subst hre him
  simp only [operationB]
  split_ifs with hfit
  · rw [quantiseB_eq_some.2 ⟨hfit.1, hfit.2, rfl⟩]
    rfl
  · rw [Option.eq_none_iff_forall_ne_some.2 fun q hq =>
      hfit ⟨(quantiseB_eq_some.1 hq).1, (quantiseB_eq_some.1 hq).2.1⟩]
    rfl

/-- Settles O33: the checks of the four stages decide. -/
theorem combStep : Obligations.CombStep := by
  refine fun q => ⟨show Header.word ⟨.cicComb, 0⟩ = _ by decide, fun s hf => exec_of_checkedB rfl rfl hf ?_⟩
  simp only [operationB, combPass_eq_ite]
  exact apply_ite (fun o => (Run.ofOption o).results (railsResult .intB)) _ _ _

/-- Settles O35: the checks of the four stages decide. -/
theorem integratorStep : Obligations.IntegratorStep := by
  refine fun u => ⟨show Header.word ⟨.cicInt, 0⟩ = _ by decide, fun s hf => exec_of_checkedB rfl rfl hf ?_⟩
  simp only [operationB, integratorPass_eq_ite]
  exact apply_ite (fun o => (Run.ofOption o).results (railsResult .intB)) _ _ _

/-- Settles O36: the operand words 0 are the integers 0, so the pass is that of `CIC.INT (0, 0)`. -/
theorem zeroIntegratorStep : Obligations.ZeroIntegratorStep := by
  have h0 : (0 : WordB).toInt = 0 := BitVec.toInt_zero
  have hop : operationB .cicIntz = operationB (.cicInt ⟨0, 0⟩) := by
    simp only [operationB, integratorZero, intsOfWords, Rails.map, h0]
  have heq (s : State) : exec .cicIntz s = exec (.cicInt ⟨0, 0⟩) s := by
    rw [exec_componentB rfl rfl, exec_componentB rfl rfl, hop]
  refine ⟨by decide, fun s hf => ?_, heq⟩
  have h := (integratorStep ⟨0, 0⟩).2 s hf
  rwa [h0, ← heq] at h

/-! ### The CIC on a stream of inputs (R144, R149 to R151)

The inputs are numbered `q 4`, `q 5`, ...; `q 0` to `q 3` are those before the first. -/

theorem combChain_combOfInputs (v a b c d : Int) :
    combChain v (combOfInputs a b c d) = combOfInputs v a b c := by
  simp only [combChain, combOfInputs, Chain.mk.injEq, true_and]
  omega

/-- A comb pass emits the fourth difference of its last five inputs (R144). -/
theorem combOut_combOfInputs (v a b c d : Int) :
    combOut v (combOfInputs a b c d) = v - 4 * a + 6 * b - 4 * c + d := by
  simp only [combOut, combOfInputs]
  omega

/-- The comb registers of both rails before input `j`. -/
def combAt (q : Nat → Rails Int) (j : Nat) : Rails Chain :=
  ⟨combOfInputs (q (j + 3)).re (q (j + 2)).re (q (j + 1)).re (q j).re,
    combOfInputs (q (j + 3)).im (q (j + 2)).im (q (j + 1)).im (q j).im⟩

/-- What the comb section puts on the result port on input `j`. -/
def combResults (q : Nat → Rails Int) (j : Nat) : List Result :=
  [.intB ((q (j + 4)).re - 4 * (q (j + 3)).re + 6 * (q (j + 2)).re - 4 * (q (j + 1)).re + (q j).re),
    .intB ((q (j + 4)).im - 4 * (q (j + 3)).im + 6 * (q (j + 2)).im - 4 * (q (j + 1)).im + (q j).im)]

/-- A comb pass that ends well takes the registers from before an input to before the next. -/
theorem operationB_cicComb_combAt {q : Nat → Rails Int} {j : Nat} {w : Rails WordB} {b b' : StateB}
    (hw : q (j + 4) = intsOfWords w) (hb : b.cb = combAt q j)
    (h : (operationB (.cicComb w) b).final = some b') :
    operationB (.cicComb w) b = ⟨combResults q j, some b'⟩ ∧ b'.cb = combAt q (j + 1) := by
  obtain ⟨d, hd⟩ := Run.ofOption_results_final.1 h
  simp only [operationB, hd]
  obtain ⟨-, -, e⟩ := combPass_eq_some.1 hd
  cases e
  simp only [hb, ← hw, combAt, combChain_combOfInputs, combOut_combOfInputs, and_true]
  rfl

theorem forEach_cicComb_combAt {q : Nat → Rails Int} {ws : List (Rails WordB)} {k : Nat} {b b' : StateB}
    (hws : ∀ j < ws.length, q (k + j + 4) = intsOfWords (ws.getD j ⟨0, 0⟩)) (hb : b.cb = combAt q k)
    (h : (Run.forEach operationB (ws.map .cicComb) b).final = some b') :
    (Run.forEach operationB (ws.map .cicComb) b).emitted =
      (List.range' k ws.length).flatMap (combResults q) := by
  induction ws generalizing k b with
  | nil => rfl
  | cons w ws ih =>
    rw [List.map_cons, Run.forEach_cons, Run.andThen_final] at h
    obtain ⟨b1, h1, h2⟩ := h
    obtain ⟨hop, hb1⟩ := operationB_cicComb_combAt (w := w) (hws 0 (Nat.zero_lt_succ _)) hb h1
    have hrest := ih (k := k + 1) (fun j hj => by
      have := hws (j + 1) (Nat.succ_lt_succ hj)
      rwa [show k + (j + 1) + 4 = k + 1 + j + 4 by omega] at this) hb1 h2
    rw [List.map_cons, Run.forEach_cons, hop, Run.andThen_mk_some, hrest, List.length_cons, List.range'_succ,
      List.flatMap_cons]

/-- Settles O34: each comb that ends well emits the fourth difference and moves the registers on by one
input. -/
theorem combIsTheFourthDifference : Obligations.CombIsTheFourthDifference := by
  intro ws s t q hcb hq hws h ht
  obtain ⟨-, b', hfinal, rfl⟩ := execAll_clearB
    (by simp [Instr.component, Instr.row, Row.component]) h ht
  have hcb0 : s.b.cb = combAt q 0 := by
    simp [hcb, combAt, hq, combOfInputs, Chain.zero]
  rw [List.range_eq_range']
  exact congrArg (s.output ++ ·) (forEach_cicComb_combAt (by simpa using hws) hcb0 hfinal)

/-- The CIC registers are those before input `j`. -/
abbrev CicAt (q : Nat → Rails Int) (j : Nat) (b : StateB) : Prop :=
  CicOfInputs b (q (j + 3)) (q (j + 2)) (q (j + 1)) (q j)

/-- The five outputs of the CIC on input `j`. -/
def cicOutputs (q : Nat → Rails Int) (j : Nat) : List (Rails Int) :=
  outputRails (q (j + 4)) (q (j + 3)) (q (j + 2)) (q (j + 1))

theorem length_cicOutputs (q : Nat → Rails Int) (j : Nat) : (cicOutputs q j).length = 5 := rfl

theorem length_flatMap_cicOutputs (q : Nat → Rails Int) (js : List Nat) :
    (js.flatMap (cicOutputs q)).length = 5 * js.length := by
  simp [List.length_flatMap, length_cicOutputs, Nat.mul_comm]

/-- Output `p` of a stream is one of the five outputs on input `p / 5`. -/
theorem getElem?_flatMap_cicOutputs {q : Nat → Rails Int} {k n p : Nat} {o : Rails Int}
    (h : ((List.range' k n).flatMap (cicOutputs q))[p]? = some o) :
    p / 5 < n ∧ (cicOutputs q (k + p / 5))[p % 5]? = some o := by
  induction n generalizing k p with
  | zero => simp at h
  | succ n ih =>
    rw [List.range'_succ, List.flatMap_cons, List.getElem?_append, length_cicOutputs] at h
    split_ifs at h with hp
    · rw [Nat.div_eq_of_lt hp, Nat.mod_eq_of_lt hp]
      exact ⟨Nat.zero_lt_succ n, h⟩
    · obtain ⟨m, rfl⟩ := Nat.exists_eq_add_of_le' (Nat.le_of_not_lt hp)
      obtain ⟨hlt, hget⟩ := ih h
      rw [Nat.add_sub_cancel] at hlt hget
      rw [Nat.add_div_right m (by norm_num), Nat.add_mod_right]
      exact ⟨Nat.succ_lt_succ hlt, by rwa [Nat.add_right_comm] at hget⟩

section
variable {c : Cfg} {Q : Int} {q : Nat → Rails Int} {b : StateB}

/-- Under the bound of R151 the CIC takes any number of inputs without a failing check. -/
theorem cicRun_of_cicAt (hQ : 125 * Q ≤ 2 ^ (c.wCic - 1) - 1) {k n : Nat} (hb : CicAt q k b)
    (hq : 0 < n → ∀ j, Bounded (q j) Q) :
    ∃ b', cicRun c ((List.range' k n).map fun j => q (j + 4)) b =
      some (b', (List.range' k n).flatMap (cicOutputs q)) ∧ CicAt q (k + n) b' := by
  induction n generalizing k b with
  | zero => exact ⟨b, rfl, hb⟩
  | succ n ih =>
    have hq := hq (Nat.zero_lt_succ n)
    obtain ⟨b1, hsample, hb1⟩ := cicSample_of_inputs hb hQ (hq (k + 4)) (hq _) (hq _) (hq _) (hq _)
    obtain ⟨b', hrun, hb'⟩ := ih (k := k + 1) hb1 fun _ => hq
    refine ⟨b', ?_, by rwa [Nat.add_right_comm] at hb'⟩
    rw [List.range'_succ, List.map_cons, cicRun_cons hsample, hrun]
    rfl

/-- Every output is at most 125 times the inputs' bound (R151). -/
theorem bounded_of_mem_cicOutputs (hq : ∀ j, Bounded (q j) Q) {j : Nat} {o : Rails Int}
    (ho : o ∈ cicOutputs q j) : Bounded o (125 * Q) := by
  have h1 := hq (j + 1)
  have h2 := hq (j + 2)
  have h3 := hq (j + 3)
  have h4 := hq (j + 4)
  simp only [Bounded, abs_le] at *
  simp only [cicOutputs, outputRails, outputsOfInputs, List.zipWith_cons_cons, List.zipWith_nil_right,
    List.mem_cons, List.not_mem_nil, or_false] at ho
  rcases ho with rfl | rfl | rfl | rfl | rfl <;> refine ⟨⟨?_, ?_⟩, ⟨?_, ?_⟩⟩ <;> linarith

end

/-- A stream of inputs as the CIC sees it from zero registers: zeros before the first (R149). -/
def inputsFromRest (qs : List (Rails Int)) : Nat → Rails Int
  | 0 | 1 | 2 | 3 => ⟨0, 0⟩
  | j + 4 => qs.getD j ⟨0, 0⟩

section
variable {c : Cfg} {Q : Int} {qs : List (Rails Int)} {b : StateB}

theorem cicAt_inputsFromRest_zero : CicAt (inputsFromRest qs) 0 b ↔ b.CicZero := cicOfInputs_zero

theorem map_inputsFromRest (qs : List (Rails Int)) :
    (List.range' 0 qs.length).map (fun j => inputsFromRest qs (j + 4)) = qs := by
  refine List.ext_getElem (by simp) fun j _ hj => ?_
  simp [inputsFromRest, hj]

theorem bounded_inputsFromRest (hqs : ∀ q ∈ qs, Bounded q Q) (hlen : 0 < qs.length) (j : Nat) :
    Bounded (inputsFromRest qs j) Q := by
  have hQ : 0 ≤ Q := (abs_nonneg _).trans (hqs qs[0] (List.getElem_mem hlen)).1
  have h0 : Bounded ⟨0, 0⟩ Q := ⟨by simpa using hQ, by simpa using hQ⟩
  match j with
  | 0 | 1 | 2 | 3 => exact h0
  | j + 4 =>
    rcases Nat.lt_or_ge j qs.length with hj | hj
    · simpa only [inputsFromRest, List.getD_eq_getElem _ _ hj] using hqs _ (List.getElem_mem hj)
    · simpa only [inputsFromRest, List.getD_eq_default _ _ hj] using h0

/-- A sized stream through the CIC from zero registers (R151). -/
theorem cicRun_of_bounded (hb : b.CicZero) (hQ : 125 * Q ≤ 2 ^ (c.wCic - 1) - 1)
    (hqs : ∀ q ∈ qs, Bounded q Q) :
    ∃ b', cicRun c qs b = some (b', (List.range' 0 qs.length).flatMap (cicOutputs (inputsFromRest qs))) ∧
      CicAt (inputsFromRest qs) qs.length b' := by
  have h := cicRun_of_cicAt hQ (cicAt_inputsFromRest_zero.2 hb) (bounded_inputsFromRest hqs)
  rwa [map_inputsFromRest, Nat.zero_add] at h

end

/-! ### What a sized stream through the CIC emits (R150, R151) -/

/-- Rails that each fit 125 times over have a common bound that does. -/
theorem exists_common_bound {w : Nat} {q : Rails Int} (hre : 125 * |q.re| ≤ 2 ^ (w - 1) - 1)
    (him : 125 * |q.im| ≤ 2 ^ (w - 1) - 1) : ∃ Q, 125 * Q ≤ 2 ^ (w - 1) - 1 ∧ Bounded q Q :=
  (le_total |q.re| |q.im|).elim (fun h => ⟨_, him, h, le_rfl⟩) fun h => ⟨_, hre, le_rfl, h⟩

/-- What `MIX` forms at each phase (R28, R161). -/
theorem mixValue_eq (p : Fin 4) (a : Rails Int) :
    mixValue p a = if p = 0 then -a.re else if p = 1 then a.im else if p = 2 then a.re else -a.im := by
  fin_cases p <;> simp [mixValue, cosTable, sinTable]

/-- On a value whose negation is in range too the check of `MIX` passes at every phase (R161). -/
theorem inWidth_mixValue {w : Nat} {R : Int} {a : Rails Int} (hR : R ≤ 2 ^ (w - 1) - 1) (ha : Bounded a R)
    (p : Fin 4) : InWidth w (mixValue p a) := by
  simp only [Bounded, abs_le] at ha
  rw [mixValue_eq]
  split_ifs <;> constructor <;> omega

/-- Settles O37: after the impulse come four zeros, so the registers are again those of zero inputs. -/
theorem cicImpulseResponse : Obligations.CicImpulseResponse := by
  intro c q b hb hre him
  obtain ⟨Q, hQ, hq⟩ := exists_common_bound hre him
  have h0 : 0 ≤ Q := (abs_nonneg _).trans hq.1
  obtain ⟨b', hrun, hb'⟩ := cicRun_of_bounded (qs := [q, ⟨0, 0⟩, ⟨0, 0⟩, ⟨0, 0⟩, ⟨0, 0⟩]) hb hQ
    (by simpa using ⟨hq, h0⟩)
  refine ⟨b', hrun.trans ?_, cicOfInputs_zero.1 hb'⟩
  simp [List.range'_succ, cicOutputs, inputsFromRest, outputRails, outputsOfInputs]

/-- Settles O39: the outputs are linear forms whose coefficients sum to 125 in magnitude. -/
theorem cicSizedNeverOverflows : Obligations.CicSizedNeverOverflows := by
  intro c Q qs b hb hQ hqs
  obtain ⟨b', hrun, -⟩ := cicRun_of_bounded hb hQ hqs
  refine ⟨b', _, hrun, by rw [length_flatMap_cicOutputs, List.length_range'], fun o ho => ?_⟩
  obtain ⟨j, hj, ho⟩ := List.mem_flatMap.1 ho
  have hlen : 0 < qs.length := by simp at hj; omega
  have hbound := bounded_of_mem_cicOutputs (bounded_inputsFromRest hqs hlen) ho
  refine ⟨hbound.1, hbound.2, fun m => ?_⟩
  rw [mixSample_eq_some.2 ⟨inWidth_mixValue hQ hbound m.ph, rfl⟩]
  rfl

/-- On the third of three equal inputs after `r` the first two outputs still see `r`. -/
theorem outputRails_of_three_equal (q r : Rails Int) :
    outputRails q q q r = [⟨121 * q.re + 4 * r.re, 121 * q.im + 4 * r.im⟩,
      ⟨124 * q.re + r.re, 124 * q.im + r.im⟩, ⟨125 * q.re, 125 * q.im⟩, ⟨125 * q.re, 125 * q.im⟩, ⟨125 * q.re, 125 * q.im⟩] := by
  simp [outputRails, outputsOfInputs]
  omega

/-- The last three outputs on it have settled, and all five where `r` is the same input again (R150). -/
theorem settled_of_getElem?_outputRails {q r o : Rails Int} {i : Nat}
    (h : (outputRails q q q r)[i]? = some o) (hi : 2 ≤ i ∨ r = q) : o = ⟨125 * q.re, 125 * q.im⟩ := by
  rw [outputRails_of_three_equal] at h
  match i with
  | 0 | 1 =>
    obtain rfl : r = q := hi.resolve_left (by omega)
    cases h
    rw [Rails.mk.injEq]
    constructor <;> ring
  | 2 | 3 | 4 => cases h; rfl
  | i + 5 => cases h

theorem inputsFromRest_replicate {n j : Nat} (q : Rails Int) (hj : j < n) :
    inputsFromRest (List.replicate n q) (j + 4) = q := by
  simp [inputsFromRest, hj]

/-- Settles O38: pass 13 is the third on the third input, and from there on the outputs have settled. -/
theorem cicSettlesAtGain125 : Obligations.CicSettlesAtGain125 := by
  intro c q b n hb hre him
  obtain ⟨Q, hQ, hq⟩ := exists_common_bound hre him
  obtain ⟨b', hrun, -⟩ := cicRun_of_bounded (qs := List.replicate n q) hb hQ (by simpa using fun _ => hq)
  refine ⟨b', _, hrun, by simp only [length_flatMap_cicOutputs, List.length_range', List.length_replicate],
    fun p o hp ho => ?_⟩
  rw [List.length_replicate] at ho
  obtain ⟨hlt, hget⟩ := getElem?_flatMap_cicOutputs ho
  obtain ⟨j, hj⟩ := Nat.exists_eq_add_of_le' (show 2 ≤ p / 5 by omega)
  rw [Nat.zero_add, hj, cicOutputs, inputsFromRest_replicate q (by omega),
    inputsFromRest_replicate q (j := j + 1) (by omega), inputsFromRest_replicate q (by omega)] at hget
  refine settled_of_getElem?_outputRails hget ?_
  cases j with
  | zero => exact .inl (by omega)
  | succ j => exact .inr (inputsFromRest_replicate q (by omega))

/-! ### `MIX` of a stream of integrator outputs (R161, R164) -/

theorem phaseAfter_zero (p : Fin 4) : phaseAfter p 0 = p := Fin.ext (Nat.mod_eq_of_lt p.isLt)

theorem phaseAfter_phaseAfter (p : Fin 4) (m n : Nat) :
    phaseAfter (phaseAfter p m) n = phaseAfter p (m + n) := by
  simp [phaseAfter, Nat.add_assoc]

/-- What `MIX` emits at phase `p` (R161). -/
def mixedSample (c : Cfg) (p : Fin 4) (a : Rails Int) : Sample :=
  c.num.rdiv (c.num.rofint (mixValue p a)) c.outDiv

/-- What a `MIX` of each of a list of values emits, the first at phase `p` (R161, R164). -/
def mixedStream (c : Cfg) (p : Fin 4) (as : List (Rails Int)) : List Sample :=
  as.mapIdx fun k => mixedSample c (phaseAfter p k)

theorem mixedStream_append (c : Cfg) (p : Fin 4) (as bs : List (Rails Int)) :
    mixedStream c p (as ++ bs) = mixedStream c p as ++ mixedStream c (phaseAfter p as.length) bs := by
  simp only [mixedStream, List.mapIdx_append, phaseAfter_phaseAfter, Nat.add_comm]

theorem mixedStream_cons (c : Cfg) (p : Fin 4) (a : Rails Int) (as : List (Rails Int)) :
    mixedStream c p (a :: as) = mixedStream c p [a] ++ mixedStream c (phaseAfter p 1) as :=
  mixedStream_append c p [a] as

theorem mixedStream_singleton (c : Cfg) (p : Fin 4) (a : Rails Int) :
    mixedStream c p [a] = [mixedSample c p a] := by
  simp [mixedStream, phaseAfter_zero]

theorem mixedStream_eq_map_range (c : Cfg) (p : Fin 4) (as : List (Rails Int)) :
    mixedStream c p as =
      (List.range as.length).map fun k => mixedSample c (phaseAfter p k) (as.getD k ⟨0, 0⟩) :=
  List.ext_getElem (by simp [mixedStream]) fun k hk _ => by
    simp only [mixedStream, List.length_mapIdx] at hk
    simp [mixedStream, hk]

/-- The check of `MIX` passes on a value at every phase. -/
abbrev Mixable (c : Cfg) (a : Rails Int) : Prop := ∀ p, InWidth c.wCic (mixValue p a)

section
variable {c : Cfg} {b b' : StateB} {a : Rails Int}

/-- An integrator pass neither reads nor writes the phase. -/
theorem integratorPass_at_phase {u : Rails Int} (h : integratorPass c u b = some (b', a)) (p : Fin 4) :
    integratorPass c u { b with ph := p } = some ({ b' with ph := p }, a) := by
  obtain ⟨hre, him, e⟩ := integratorPass_eq_some.1 h
  cases e
  exact integratorPass_eq_some.2 ⟨hre, him, rfl⟩

/-- A pass and its `MIX` are the pass and then the phase's advance (R174). -/
theorem passAndMix_at_phase {u : Rails Int} (h : integratorPass c u b = some (b', a)) (ha : Mixable c a)
    (p : Fin 4) :
    passAndMix c (integratorPass c u) { b with ph := p } =
      ⟨mixedStream c p [a], some { b' with ph := phaseAfter p 1 }⟩ := by
  rw [mixedStream_singleton]
  simp only [passAndMix, integratorPass_at_phase h, mixSample_eq_some.2 ⟨ha _, rfl⟩]
  rfl

theorem zeroPasses_succ_eq_some {n : Nat} {os : List (Rails Int)} :
    zeroPasses c (n + 1) b = some (b', os) ↔
      ∃ b1 a as, integratorPass c ⟨0, 0⟩ b = some (b1, a) ∧ zeroPasses c n b1 = some (b', as) ∧ os = a :: as := by
  simp only [zeroPasses, integratorZero, Option.bind_eq_bind, Option.bind_eq_some_iff, Option.pure_def,
    Option.some.injEq, Prod.exists, Prod.mk.injEq]
  constructor
  · rintro ⟨b1, a, h1, _, as, h2, rfl, rfl⟩
    exact ⟨b1, a, as, h1, h2, rfl⟩
  · rintro ⟨b1, a, as, h1, h2, rfl⟩
    exact ⟨b1, a, h1, _, as, h2, rfl, rfl⟩

theorem cicSample_eq_some {q : Rails Int} {os : List (Rails Int)} :
    cicSample c q b = some (b', os) ↔
      ∃ b1 d b2 a as, combPass c q b = some (b1, d) ∧ integratorPass c d b1 = some (b2, a) ∧
        zeroPasses c 4 b2 = some (b', as) ∧ os = a :: as := by
  simp only [cicSample, Option.bind_eq_bind, Option.bind_eq_some_iff, Option.pure_def, Option.some.injEq,
    Prod.exists, Prod.mk.injEq]
  constructor
  · rintro ⟨b1, d, h1, b2, a, h2, _, as, h3, rfl, rfl⟩
    exact ⟨b1, d, b2, a, as, h1, h2, h3, rfl⟩
  · rintro ⟨b1, d, b2, a, as, h1, h2, h3, rfl⟩
    exact ⟨b1, d, h1, b2, a, h2, _, as, h3, rfl, rfl⟩

theorem integratorZero_eq (c : Cfg) : integratorZero c = integratorPass c ⟨0, 0⟩ := rfl

theorem times_passAndMix_of_zeroPasses {n : Nat} {as : List (Rails Int)}
    (h : zeroPasses c n b = some (b', as)) (has : ∀ a ∈ as, Mixable c a) (p : Fin 4) :
    Run.times (passAndMix c (integratorPass c ⟨0, 0⟩)) n { b with ph := p } =
      ⟨mixedStream c p as, some { b' with ph := phaseAfter p as.length }⟩ := by
  induction n generalizing b as p with
  | zero =>
    cases h
    rw [List.length_nil, phaseAfter_zero]
    rfl
  | succ n ih =>
    obtain ⟨b1, a, as, h1, h2, rfl⟩ := zeroPasses_succ_eq_some.1 h
    have hrest := ih h2 (fun a ha => has a (List.mem_cons_of_mem _ ha)) (phaseAfter p 1)
    rw [Run.times, passAndMix_at_phase h1 (has a List.mem_cons_self), Run.andThen_mk_some, hrest,
      phaseAfter_phaseAfter, ← mixedStream_cons, List.length_cons, Nat.add_comm 1]

theorem zeroPasses_writes {n : Nat} {as : List (Rails Int)} (h : zeroPasses c n b = some (b', as)) :
    b' = { b with it := b'.it } := by
  induction n generalizing b as with
  | zero => cases h; rfl
  | succ n ih =>
    obtain ⟨b1, a, as, h1, h2, -⟩ := zeroPasses_succ_eq_some.1 h
    exact (ih h2).trans (congrArg (fun v : StateB => { v with it := b'.it }) (integratorPass_writes h1))

theorem cicSample_writes {q : Rails Int} {as : List (Rails Int)} (h : cicSample c q b = some (b', as)) :
    b' = { b with cb := b'.cb, it := b'.it } := by
  obtain ⟨b1, d, b2, a, as, hcomb, hpass, hzero, -⟩ := cicSample_eq_some.1 h
  have h1 := combPass_writes hcomb
  have h2 := integratorPass_writes hpass
  have h3 := zeroPasses_writes hzero
  rw [h1] at h2
  rw [h2] at h3
  rw [h3]

/-- A quantised sample that the CIC takes to outputs `as`, each of which `MIX` takes, is a stuffed sample that
emits them mixed (R149, R174). -/
theorem stuffedSample_of_cicSample {z : Rails Sample} {q : Rails Int} {as : List (Rails Int)}
    (hq : quantiseB c (firPush c z b).2 = some q)
    (h : cicSample c q (pushSample z b) = some (b', as)) (has : ∀ a ∈ as, Mixable c a) :
    stuffedSample c z b = ⟨mixedStream c b.ph as, some { b' with ph := phaseAfter b.ph as.length }⟩ := by
  obtain ⟨b1, d, b2, a, as, hcomb, hpass, hzero, rfl⟩ := cicSample_eq_some.1 h
  have hph : b1 = { b1 with ph := b.ph } := by rw [combPass_writes hcomb]; rfl
  have hcomb' : combPass c q (firPush c z b).1 = some ({ b1 with ph := b.ph }, d) :=
    hcomb.trans (congrArg (fun v => some (v, d)) hph)
  have h1 := passAndMix_at_phase hpass (has a List.mem_cons_self) b.ph
  have h2 := times_passAndMix_of_zeroPasses hzero (fun a ha => has a (List.mem_cons_of_mem _ ha))
    (phaseAfter b.ph 1)
  simp only [stuffedSample, hq, hcomb', h1, integratorZero_eq, Run.andThen_mk_some, h2, ← mixedStream_cons,
    phaseAfter_phaseAfter, List.length_cons, Nat.add_comm 1]

end

/-! ### A sized stream through Component B (R151, R174, R176) -/

/-- The integers a filtered sample becomes (R141). -/
def quantised (c : Cfg) (y : Rails Sample) : Rails Int := y.map fun v => c.quantB (c.num.rmul v c.fixScale)

section
variable {c : Cfg} {Q : Int} {q : Nat → Rails Int} {b : StateB}

/-- Integers within the bound of R151 pass the quantiser's checks. -/
theorem quantiseB_of_bounded {y : Rails Sample} (hQ : 125 * Q ≤ 2 ^ (c.wCic - 1) - 1)
    (hy : Bounded (quantised c y) Q) : quantiseB c y = some (quantised c y) := by
  have hw (v : Int) (hv : |v| ≤ Q) : InWidth c.wCic v := by
    rw [abs_le] at hv
    constructor <;> omega
  exact quantiseB_eq_some.2 ⟨hw _ hy.1, hw _ hy.2, rfl⟩

/-- One more stuffed sample completes, emits its five outputs mixed, and moves the delay line, the CIC registers
and the phase on. -/
theorem stuffedSample_of_cicAt {ss : List (Rails Sample)} {z : Rails Sample} {j : Nat}
    (hQ : 125 * Q ≤ 2 ^ (c.wCic - 1) - 1) (hq : ∀ j, Bounded (q j) Q) (hhist : HistoryIs ss b)
    (hcic : CicAt q j b) (hz : quantised c (firResponse c (ss ++ [z]) ss.length) = q (j + 4)) :
    ∃ b', stuffedSample c z b = ⟨mixedStream c b.ph (cicOutputs q j), some b'⟩ ∧ HistoryIs (ss ++ [z]) b' ∧
      CicAt q (j + 1) b' ∧ b'.ph = phaseAfter b.ph 5 := by
  obtain ⟨hhist', hresp⟩ := hhist.push (c := c) (z := z)
  have hquant : quantiseB c (firPush c z b).2 = some (q (j + 4)) := by
    rw [hresp, ← hz]
    exact quantiseB_of_bounded hQ (hz ▸ hq _)
  obtain ⟨b', hsample, hcic'⟩ :=
    cicSample_of_inputs (b := pushSample z b) hcic hQ (hq (j + 4)) (hq _) (hq _) (hq _) (hq _)
  have hmix : ∀ a ∈ cicOutputs q j, Mixable c a := fun a ha =>
    inWidth_mixValue hQ (bounded_of_mem_cicOutputs hq ha)
  refine ⟨_, stuffedSample_of_cicSample hquant hsample hmix, ?_, hcic', rfl⟩
  rw [cicSample_writes hsample]
  exact hhist'

/-- A stream of stuffed samples from an all-zero delay line, the inputs of the CIC numbered `q 4`, `q 5`, ... -/
theorem forEach_stuffedSample {ss : List (Rails Sample)} (hQ : 125 * Q ≤ 2 ^ (c.wCic - 1) - 1)
    (hq : 0 < ss.length → ∀ j, Bounded (q j) Q) (hdl : b.dl = ⟨Memory.empty, Memory.empty⟩)
    (hcic : CicAt q 0 b) (hss : ∀ n < ss.length, quantised c (firResponse c ss n) = q (n + 4)) :
    ∃ b', Run.forEach (stuffedSample c) ss b =
        ⟨mixedStream c b.ph ((List.range' 0 ss.length).flatMap (cicOutputs q)), some b'⟩ ∧
      HistoryIs ss b' ∧ CicAt q ss.length b' ∧ b'.ph = phaseAfter b.ph (5 * ss.length) := by
  induction ss using List.reverseRecOn with
  | nil => exact ⟨b, rfl, .empty hdl, hcic, (phaseAfter_zero _).symm⟩
  | append_singleton ss z ih =>
    have hlen : (ss ++ [z]).length = ss.length + 1 := by simp
    rw [hlen] at hq hss ⊢
    have hq := hq (Nat.zero_lt_succ _)
    obtain ⟨b1, hrun, hhist, hcic1, hph⟩ := ih (fun _ => hq) fun n hn => by
      rw [← firResponse_append [z] hn, hss n (by omega)]
    obtain ⟨b', hlast, hhist', hcic', hph'⟩ := stuffedSample_of_cicAt hQ hq hhist hcic1 (hss _ (by omega))
    refine ⟨b', ?_, hhist', hcic', by rw [hph', hph, phaseAfter_phaseAfter, Nat.mul_succ]⟩
    rw [Run.forEach_append, hrun, Run.andThen_mk_some, Run.forEach_cons, hlast, hph, List.range'_1_concat,
      List.flatMap_append, mixedStream_append, length_flatMap_cicOutputs, List.length_range']
    simp

end

theorem length_stuffedStream (zs : List (Rails Sample)) : (stuffedStream zs).length = 2 * zs.length := by
  simp [stuffedStream, List.length_flatMap, Nat.mul_comm]

/-- `B.BLOCK` is a loop over the zero-stuffed stream (R174, R176). -/
theorem blockB_eq_forEach_stuffedSample (c : Cfg) (zs : List (Rails Sample)) (b : StateB) :
    blockB c zs b = Run.forEach (stuffedSample c) (stuffedStream zs) b := by
  induction zs generalizing b with
  | nil => rfl
  | cons z zs ih =>
    have hrest : Run.forEach (pushB c) zs = Run.forEach (stuffedSample c) (stuffedStream zs) := funext ih
    rw [blockB, Run.forEach_cons, hrest, pushB, Run.andThen_assoc]
    rfl

/-- `B.PUSH` of each sample does what `B.BLOCK` of all of them does (R176). -/
theorem forEach_operationB_bPush (cnt : Count) (zs : List (Rails Sample)) (b : StateB) :
    Run.forEach operationB (zs.map .bPush) b = operationB (.bBlock cnt zs) b := by
  induction zs generalizing b with
  | nil => rfl
  | cons z zs ih =>
    rw [List.map_cons, Run.forEach_cons, funext ih]
    exact (Run.results_andThen _ _ _).symm

theorem quantised_firResponse (c : Cfg) (zs : List (Rails Sample)) {n : Nat} (hn : n < 2 * zs.length) :
    quantised c (firResponse c (stuffedStream zs) n) = inputsFromRest (quantisedStream c zs) (n + 4) := by
  simp [inputsFromRest, quantisedStream, hn, quantised]

theorem length_quantisedStream (c : Cfg) (zs : List (Rails Sample)) :
    (quantisedStream c zs).length = 2 * zs.length := by simp [quantisedStream]

/-- A sized stream through Component B from the zero state at any cursor and phase: the block completes, emits
the outputs of the CIC mixed, and leaves the CIC registers of the whole stream. -/
theorem blockB_of_bounded {c : Cfg} {Q : Int} {zs : List (Rails Sample)} {b : StateB} (hb : b.Quiet)
    (hQ : 125 * Q ≤ 2 ^ (c.wCic - 1) - 1) (hqs : ∀ q ∈ quantisedStream c zs, Bounded q Q) :
    ∃ b' bc outs, blockB c zs b = ⟨mixedStream c b.ph outs, some b'⟩ ∧
      cicRun c (quantisedStream c zs) b = some (bc, outs) ∧ outs.length = 10 * zs.length ∧
      b'.cb = bc.cb ∧ b'.it = bc.it := by
  obtain ⟨hdl, hzero⟩ := hb
  obtain ⟨bc, hrun, hcb, hit⟩ := cicRun_of_bounded hzero hQ hqs
  have hbound := bounded_inputsFromRest hqs
  rw [length_quantisedStream, ← length_stuffedStream] at hrun hcb hit hbound
  obtain ⟨b', hblock, -, ⟨hcb', hit'⟩, -⟩ := forEach_stuffedSample hQ hbound hdl
    (cicAt_inputsFromRest_zero.2 hzero) fun n hn => quantised_firResponse c zs (length_stuffedStream zs ▸ hn)
  refine ⟨b', bc, _, (blockB_eq_forEach_stuffedSample c zs b).trans hblock, hrun, ?_, hcb'.trans hcb.symm,
    hit'.trans hit.symm⟩
  rw [length_flatMap_cicOutputs, List.length_range', length_stuffedStream, ← Nat.mul_assoc]

/-- Settles O46: `B.BLOCK` of the stream is a loop over its samples, and so are the `B.PUSH` of them. -/
theorem sizedStreamsThroughBComplete : Obligations.SizedStreamsThroughBComplete := by
  intro zs s Q hf hquiet hQ hqs
  obtain ⟨b', bc, outs, hblock, hrun, hlen, hcb, hit⟩ := blockB_of_bounded hquiet hQ hqs
  have hop (cnt : Count) : operationB (.bBlock cnt zs) s.b =
      ⟨(mixedStream Config.cfg s.b.ph outs).flatMap fun o => [.sample o], some b'⟩ :=
    congrArg (Run.results fun o => [.sample o]) hblock
  have hpushes := (forEach_operationB_bPush 0 zs s.b).trans (hop 0)
  have hall := execAll_of_forEachB (is := zs.map .bPush)
    (by simp [Instr.component, Instr.row, Row.component, Instr.WellFormed, Instr.wellFormed]) hf
    (congrArg Run.final hpushes)
  rw [hpushes] at hall
  refine ⟨_, bc, outs, hall, ?_, fun cnt hcnt => ?_, rfl, rfl, hrun, hlen, hcb, hit, ?_⟩
  · rintro z rfl
    obtain ⟨t, ht, hnil⟩ := execAll_cons_inv hall
    cases hnil
    exact ht
  · exact exec_of_operationB rfl (wellFormed_bBlock_iff.2 (hcnt.trans (Nat.mul_comm _ _))) hf (hop cnt)
  · rw [mixedStream_eq_map_range, hlen, ← List.map_eq_flatMap, List.map_map]
    rfl

end Sys2Proof.Machine

namespace Sys2Proof.Machine

/-! ### The check of `MIX` (R161) -/

/-- The phase's advance is addition modulo 4 (R161). -/
theorem nextPhase_eq (p : Fin 4) : nextPhase p = p + 1 := rfl

/-- The one check of `MIX` decides (R161). -/
theorem mixSample_eq_ite (c : Cfg) (a : Rails Int) (b : StateB) :
    mixSample c a b =
      if InWidth c.wCic (mixValue b.ph a) then some ({ b with ph := b.ph + 1 }, mixedSample c b.ph a)
      else none := by
  split_ifs with h
  · exact mixSample_eq_some.2 ⟨h, by rw [nextPhase_eq, mixedSample]⟩
  · exact Option.eq_none_iff_forall_ne_some.2 fun r hr => h (mixSample_eq_some.1 hr).1

/-- Of the values in range only the most negative one has its negation out of range (R12). -/
theorem not_inWidth_neg_iff {w : Nat} {v : Int} (h : InWidth w v) :
    ¬InWidth w (-v) ↔ v = -2 ^ (w - 1) := by
  simp only [InWidth] at *
  omega

/-- On values in range the check of `MIX` fails only where it negates the most negative one (R161). -/
theorem not_inWidth_mixValue_iff {w : Nat} {a : Rails Int} (hre : InWidth w a.re) (him : InWidth w a.im)
    (p : Fin 4) :
    ¬InWidth w (mixValue p a) ↔ (p = 0 ∧ a.re = -2 ^ (w - 1)) ∨ (p = 3 ∧ a.im = -2 ^ (w - 1)) := by
  rw [mixValue_eq]
  match p with
  | 0 => simpa using not_inWidth_neg_iff hre
  | 1 => exact iff_of_false (not_not.2 him) (by simp)
  | 2 => exact iff_of_false (not_not.2 hre) (by simp)
  | 3 => simpa using not_inWidth_neg_iff him

/-- Settles O40: `m` is the value the mixer forms, and its operands are words, so in range. -/
theorem mixStep : Obligations.MixStep := by
  refine fun a => ⟨show Header.word ⟨.mix, 0⟩ = _ by decide, fun s m hf hm => ?_⟩
  obtain rfl : m = mixValue s.b.ph (intsOfWords a) := hm.trans (mixValue_eq s.b.ph (intsOfWords a)).symm
  refine ⟨exec_of_checkedB rfl rfl hf ?_,
    not_inWidth_mixValue_iff (inWidth_toInt a.re) (inWidth_toInt a.im) s.b.ph⟩
  simp only [operationB, mixSample_eq_ite]
  exact apply_ite (fun o => (Run.ofOption o).results fun v => [.sample v]) _ _ _

/-! ### The gain of the quantiser, the CIC and the mixer together (R163) -/

section
variable {c : Cfg} {y : Rails Sample} {q : Rails Int}

/-- In exact arithmetic a level that `FIX_SCALE` takes to integers is quantised to them (R11, R141). -/
theorem quantised_of_scaled (hc : c.Wf) (hn : c.num = Num.exact) (hre : y.re * c.fixScale = (q.re : Rat))
    (him : y.im * c.fixScale = (q.im : Rat)) : quantised c y = q := by
  have hcast (i : Int) : c.num.rofint i = (i : Rat) := by rw [hn]; rfl
  have hquant (i : Int) : c.quantB (i : Rat) = i := hcast i ▸ hc.quantB_law.exact i (hcast i)
  have hmul (v : Sample) : c.num.rmul v c.fixScale = v * c.fixScale := by rw [hn]; rfl
  simp only [quantised, Rails.map, hmul, hre, him, hquant]

/-- In exact arithmetic with `CIC_GAIN = 125`, the division by `OUT_DIV` undoes `FIX_SCALE` and the gain of the
CIC (R163). -/
theorem rdiv_outDiv_of_scaled (hc : c.Wf) (hn : c.num = Num.exact) (hg : c.cicGain = 125) {v : Sample} {i : Int}
    (h : v * c.fixScale = (i : Rat)) : c.num.rdiv (c.num.rofint (125 * i)) c.outDiv = v := by
  have hdiv : c.outDiv ≠ 0 := hc.outDiv_ne
  have hout : c.outDiv = c.fixScale * 125 := by rw [hc.outDiv_eq, hn, hg]; rfl
  calc c.num.rdiv (c.num.rofint (125 * i)) c.outDiv
      = ((125 * i : Int) : Rat) / c.outDiv := by rw [hn]; rfl
    _ = v * c.outDiv / c.outDiv := by rw [Int.cast_mul, ← h, hout]; push_cast; ring
    _ = v := mul_div_cancel_right₀ v hdiv

/-- So `MIX` emits a rail of the level that the CIC has settled on, or its negation (R161, R163). -/
theorem mixedSample_of_settled (hc : c.Wf) (hn : c.num = Num.exact) (hg : c.cicGain = 125)
    (hre : y.re * c.fixScale = (q.re : Rat)) (him : y.im * c.fixScale = (q.im : Rat)) (p : Fin 4) :
    mixedSample c p ⟨125 * q.re, 125 * q.im⟩ =
      if p = 0 then -y.re else if p = 1 then y.im else if p = 2 then y.re else -y.im := by
  have hneg {v : Sample} {i : Int} (h : v * c.fixScale = (i : Rat)) :
      -v * c.fixScale = ((-i : Int) : Rat) := by rw [neg_mul, h, Int.cast_neg]
  rw [mixedSample, mixValue_eq]
  split_ifs
  · rw [← mul_neg, rdiv_outDiv_of_scaled hc hn hg (hneg hre)]
  · exact rdiv_outDiv_of_scaled hc hn hg him
  · exact rdiv_outDiv_of_scaled hc hn hg hre
  · rw [← mul_neg, rdiv_outDiv_of_scaled hc hn hg (hneg him)]

end

/-- Settles O41: the CIC settles at 125 times the quantised level, which `MIX` takes back to the level. -/
theorem steadyLevelPassesWithUnitGain : Obligations.SteadyLevelPassesWithUnitGain := by
  intro c y q b n hc hn hg hre him hqre hqim hb
  obtain ⟨Q, hQ, hq⟩ := exists_common_bound hqre hqim
  have hquant := quantised_of_scaled hc hn hre him
  obtain ⟨b', outs, hrun, hlen, hsettled⟩ := cicSettlesAtGain125 c q b n hb hqre hqim
  refine ⟨hquant ▸ quantiseB_of_bounded hQ (hquant.symm ▸ hq), b', outs, hrun, hlen,
    fun p o hp ho m => ?_⟩
  obtain rfl := hsettled p o hp ho
  have hfits : Bounded ⟨125 * q.re, 125 * q.im⟩ (125 * Q) := by simpa [Bounded, abs_mul] using hq
  rw [← mixedSample_of_settled hc hn hg hre him, mixSample_eq_ite, if_pos (inWidth_mixValue hQ hfits m.ph)]
  exact ⟨_, rfl⟩

end Sys2Proof.Machine

namespace Sys2Proof.Machine

/-! ### A block is its pushes (R172, R176, R177) -/

/-- `A.PUSH` of each sample does what `A.BLOCK` of all of them does (R172). -/
theorem forEach_operationA_aPush (xs : List Sample) (a : StateA) :
    Run.forEach operationA (xs.map .aPush) a = operationA (.aBlock xs) a := by
  induction xs generalizing a with
  | nil => rfl
  | cons x xs ih =>
    rw [List.map_cons, Run.forEach_cons, funext ih]
    exact (Run.results_andThen _ _ _).symm

/-- Settles O24: without `Overflow` the pushes did their operations one after another, which is the block's. -/
theorem blockAEqualsItsPushes : Obligations.BlockAEqualsItsPushes := by
  intro xs s t hlen hs h ht
  obtain ⟨-, a, ha, rfl⟩ := execAll_clearA (List.forall_mem_map.2 fun _ _ => rfl) h ht
  rw [forEach_operationA_aPush] at ha ⊢
  exact exec_of_operationA rfl (wellFormed_aBlock_iff.2 hlen) hs (congrArg (Run.mk _) ha)

/-- Pushes that leave `ST.ovf_b` clear did the operation of the block of their samples. -/
theorem operationB_bBlock_of_pushes (cnt : Count) {zs : List (Rails Sample)} {s t : State}
    (h : execAll (zs.map .bPush) s = .next t) (ht : t.st.ovfB = false) :
    ∃ vs, operationB (.bBlock cnt zs) s.b = ⟨vs, some t.b⟩ ∧
      t = { s with b := t.b, output := s.output ++ vs } := by
  obtain ⟨-, b, hb, rfl⟩ := execAll_clearB (List.forall_mem_map.2 fun _ _ => rfl) h ht
  rw [forEach_operationB_bPush cnt] at hb ⊢
  exact ⟨_, congrArg (Run.mk _) hb, rfl⟩

/-- From a clear flag, pushes of the samples of a block that ends well all complete and emit what it emits. -/
theorem execAll_bPush_of_blockB {zs : List (Rails Sample)} {os : List Sample} {s : State} {b : StateB}
    (hf : s.st.ovfB = false) (h : blockB Config.cfg zs s.b = ⟨os, some b⟩) :
    execAll (zs.map .bPush) s = .next { s with b := b, output := s.output ++ os.map .sample } := by
  have hop : Run.forEach operationB (zs.map .bPush) s.b = ⟨os.map .sample, some b⟩ := by
    rw [forEach_operationB_bPush 0, List.map_eq_flatMap]
    exact congrArg (Run.results fun o => [.sample o]) h
  rw [execAll_of_forEachB (List.forall_mem_map.2 fun _ _ => ⟨rfl, rfl⟩) hf (congrArg Run.final hop), hop]

/-- `B.BLOCK` has as many operands as its count asks for, in the form the statements write it (R79). -/
theorem wellFormed_bBlock_of_length {cnt : Count} {zs : List (Rails Sample)}
    (h : zs.length = cnt.toNat * (Config.cfg.ducN / 10)) : (Instr.bBlock cnt zs).WellFormed :=
  wellFormed_bBlock_iff.2 (h.trans (Nat.mul_comm _ _))

/-- Settles O47: without `Overflow` the pushes did the block's operation. -/
theorem blockBEqualsItsPushes : Obligations.BlockBEqualsItsPushes := by
  intro cnt zs s t hlen hs h ht
  obtain ⟨vs, hop, e⟩ := operationB_bBlock_of_pushes cnt h ht
  rw [e]
  exact exec_of_operationB rfl (wellFormed_bBlock_of_length hlen) hs hop

/-- Settles O48: it is the block of no pushes. -/
theorem emptyBlockChangesNothing : Obligations.EmptyBlockChangesNothing :=
  fun s hs => blockBEqualsItsPushes 0 [] s s (by simp) hs rfl hs

/-! ### How many codes Component A emits (R173) -/

section
variable {c : Cfg}

/-- One excited pass and `M - 1` free ones (R171). -/
theorem pushA_emitsCount (hm : 1 ≤ c.m) (x : Sample) (a : StateA) : (pushA c x a).EmitsCount c.m := by
  have hpasses : 1 + 1 * (c.m - 1) = c.m := by omega
  unfold pushA
  cases hu : quantiseA c (preFilter c x a).2 with
  | none => simpa only [hu] using Run.emitsCount_overflow c.m
  | some u =>
    simpa only [hu, hpasses] using (Run.emitsCount_ofOption (iirExcited c u (preFilter c x a).1)).andThen
      (Run.emitsCount_times (fun a => Run.emitsCount_ofOption (iirFree c a)) (c.m - 1))

theorem blockA_emitsCount (hm : 1 ≤ c.m) (xs : List Sample) (a : StateA) :
    (blockA c xs a).EmitsCount (c.m * xs.length) :=
  Run.emitsCount_forEach (pushA_emitsCount hm) xs a

end

/-- A command of Component A that leaves the flag clear, and whose operation is a run that emits `n` codes, has
put `n` codes on the result port. -/
theorem exec_appends_codes {i : Instr} {s t : State} {n : Nat} {r : Run StateA Nat}
    (hc : i.component = .a) (hop : operationA i s.a = r.results fun v => [.code v])
    (hr : r.EmitsCount n) (h : exec i s = .next t) (ht : t.st.ovfA = false) :
    ∃ codes : List Nat, codes.length = n ∧ t.output = s.output ++ codes.map .code := by
  obtain ⟨-, a, ha, rfl⟩ := exec_clearA hc h ht
  rw [hop] at ha ⊢
  exact ⟨r.emitted, hr a ha, congrArg (s.output ++ ·) List.map_eq_flatMap.symm⟩

/-- Settles O26: every pass that ends well emits one code, and a sample has `M` passes. -/
theorem countOfCodesOfA : Obligations.CountOfCodesOfA := by
  have hm := Config.cfg_wf.m_pos
  refine ⟨fun x s t => exec_appends_codes rfl rfl (pushA_emitsCount hm x s.a), fun xs s t h => ?_⟩
  rw [← wellFormed_aBlock_iff.1 (wellFormed_of_exec h), Nat.mul_comm]
  exact exec_appends_codes rfl rfl (blockA_emitsCount hm xs s.a) h

/-! ### A unit command decides a check of the pipeline (R83, R174, R191) -/

section
variable {ρ : Type} {i : Instr} {s t : State} {o : Option (StateB × ρ)} {f : ρ → List Result} {v : ρ}

/-- The check behind a unit command that ran without `Overflow` passed. -/
theorem RunsUnit.check_passes (hf : Function.Injective f) (hc : i.component = .b)
    (hop : operationB i s.b = (Run.ofOption o).results f) (hs : s.st.ovfB = false)
    (h : RunsUnit i s (f v) t) : o = some (t.b, v) ∧ s.SameButB t := by
  obtain ⟨hrun, hsame⟩ := h.componentB hc hs
  exact ⟨(Run.ofOption_results_eq hf).1 (hop.symm.trans hrun), hsame⟩

/-- The check behind a unit command that overflowed failed. -/
theorem OverflowsB.check_fails (hc : i.component = .b)
    (hop : operationB i s.b = (Run.ofOption o).results f) (hs : s.st.ovfB = false)
    (h : OverflowsB i s) : o = none := by
  obtain ⟨t, he, ht⟩ := h
  rw [exec_next_componentB hc he] at ht
  match o with
  | none => rfl
  | some (b, v) =>
    rw [State.runB_st_of_some (congrArg Run.final hop), hs] at ht
    cases ht

/-- `FIR.PUSH` as a unit command is the pipeline's filter (R123). -/
theorem RunsUnit.firPush_eq {z y : Rails Sample} (hs : s.st.ovfB = false)
    (h : RunsUnit (.firPush z) s (railsResult .sample y) t) :
    firPush Config.cfg z s.b = (t.b, y) ∧ s.SameButB t := by
  obtain ⟨hrun, hsame⟩ := h.componentB rfl hs
  obtain ⟨hy, hb⟩ := Run.mk_some_inj hrun
  exact ⟨Prod.ext hb (railsResult_injective sample_injective hy), hsame⟩

/-- `CIC.QNT` as a unit command is the pipeline's quantiser, and leaves Component B as it is (R141). -/
theorem RunsUnit.quantiseB_eq {y : Rails Sample} {q : Rails Int} (hs : s.st.ovfB = false)
    (h : RunsUnit (.cicQnt y) s (railsResult .intB q) t) :
    quantiseB Config.cfg y = some q ∧ t.b = s.b ∧ s.SameButB t := by
  obtain ⟨hmap, hsame⟩ := h.check_passes (railsResult_injective intB_injective) rfl rfl hs
  obtain ⟨q', hq, e⟩ := Option.map_eq_some_iff.1 hmap
  obtain ⟨hb, rfl⟩ := Prod.mk.inj e
  exact ⟨hq, hb.symm, hsame⟩

end

/-! ### Where the expansion of `B.PUSH` stops (R174, R176, R191) -/

/-- Where an integrator command or its `MIX` overflows, so does a pass and its `MIX`. -/
theorem passAndMix_of_passOverflows {i : Instr} {pass : StateB → Option (StateB × Rails Int)}
    (hc : i.component = .b)
    (hop : ∀ b, operationB i b = (Run.ofOption (pass b)).results (railsResult .intB)) {s : State}
    (hs : s.st.ovfB = false) (h : PassOverflows i s) :
    passAndMix Config.cfg pass s.b = ⟨[], none⟩ := by
  obtain hpass | ⟨a, s', hpass, hmix⟩ := h
  · simp only [passAndMix, hpass.check_fails hc (hop s.b) hs, Run.overflow]
  · obtain ⟨hp, h1⟩ := hpass.check_passes (railsResult_injective intB_injective) hc (hop s.b) hs
    have hm := hmix.check_fails rfl rfl (h1.ovfB hs)
    simp only [passAndMix, hp, hm, Run.ofOption_none, Run.overflow]

theorem times_of_zeroPassesOverflow {n : Nat} {s : State} {os : List Sample} (hs : s.st.ovfB = false)
    (h : ZeroPassesOverflow n s os) :
    Run.times (passAndMix Config.cfg (integratorZero Config.cfg)) n s.b = ⟨os, none⟩ := by
  induction n generalizing s os with
  | zero => cases h
  | succ n ih =>
    obtain ⟨hpass, rfl⟩ | ⟨o, os', s', hpass, hrest, rfl⟩ := h
    · rw [Run.times, passAndMix_of_passOverflows rfl (fun _ => rfl) hs hpass, Run.andThen_mk_none]
    · obtain ⟨hp, h1⟩ := passAndMix_of_passByUnits rfl (fun _ => rfl) hs hpass
      rw [Run.times, hp, Run.andThen_mk_some, ih (h1.ovfB hs) hrest]
      rfl

/-- A zero-stuffed sample stops in the pipeline where it stops in the unit commands. -/
theorem stuffedSample_of_stuffedOverflows {z : Rails Sample} {s : State} {os : List Sample}
    (hs : s.st.ovfB = false) (h : StuffedOverflows z s os) :
    stuffedSample Config.cfg z s.b = ⟨os, none⟩ := by
  obtain ⟨y, s1, hfir, h⟩ := h
  obtain ⟨hy, h1⟩ := hfir.firPush_eq hs
  obtain ⟨hqnt, rfl⟩ | ⟨q, s2, hqnt, h⟩ := h
  · have hq := Option.map_eq_none_iff.1 (hqnt.check_fails rfl rfl (h1.ovfB hs))
    simp only [stuffedSample, hy, hq, Run.overflow]
  obtain ⟨hq, hb2, h2⟩ := hqnt.quantiseB_eq (h1.ovfB hs)
  have h12 := h1.trans h2
  obtain ⟨hcomb, rfl⟩ | ⟨d, s3, hcomb, h⟩ := h
  · have hd := hcomb.check_fails rfl rfl (h12.ovfB hs)
    simp only [stuffedSample, hy, hq, ← hb2, hd, Run.overflow]
  obtain ⟨hd, h3⟩ := hcomb.check_passes (railsResult_injective intB_injective) rfl rfl (h12.ovfB hs)
  have h13 := h12.trans h3
  obtain ⟨hint, rfl⟩ | ⟨o, os', s4, hint, hzero, rfl⟩ := h
  · have hpass := passAndMix_of_passOverflows rfl (fun _ => rfl) (h13.ovfB hs) hint
    simp only [stuffedSample, hy, hq, ← hb2, hd, hpass, Run.andThen_mk_none]
  · obtain ⟨hpass, h4⟩ := passAndMix_of_passByUnits rfl (fun _ => rfl) (h13.ovfB hs) hint
    have htimes := times_of_zeroPassesOverflow ((h13.trans h4).ovfB hs) hzero
    simp only [stuffedSample, hy, hq, ← hb2, hd, hpass, Run.andThen_mk_some, htimes, List.singleton_append]

/-- `B.PUSH` stops where the unit commands of its expansion stop. -/
theorem operationB_bPush_of_overflows {z : Rails Sample} {s : State} {os : List Sample}
    (hs : s.st.ovfB = false) (h : PushBOverflows z s os) :
    operationB (.bPush z) s.b = ⟨os.map .sample, none⟩ := by
  suffices hpush : pushB Config.cfg z s.b = ⟨os, none⟩ by
    rw [List.map_eq_flatMap]
    exact congrArg (Run.results fun o => [.sample o]) hpush
  obtain ⟨s1, hzs2, h⟩ := h
  obtain ⟨hop, h1⟩ := hzs2.componentB rfl hs
  obtain ⟨-, hb⟩ := Run.mk_some_inj hop
  obtain hfirst | ⟨os1, os2, s2, hfirst, hsecond, rfl⟩ := h
  · have hrun := stuffedSample_of_stuffedOverflows (h1.ovfB hs) hfirst
    simp only [pushB, zeroStuff, hb, hrun, Run.andThen_mk_none]
  · obtain ⟨hrun1, h2⟩ := stuffedSample_of_stuffedByUnits (h1.ovfB hs) hfirst
    have hrun2 := stuffedSample_of_stuffedOverflows ((h1.trans h2).ovfB hs) hsecond
    simp only [pushB, zeroStuff, hb, hrun1, Run.andThen_mk_some, hrun2]

/-- What an overflowing command of Component B sets, keeps and has emitted (R191, R192). -/
theorem exec_stopsB {i : Instr} {s : State} {vs : List Result} (hc : i.component = .b) (hw : i.WellFormed)
    (hf : s.st.ovfB = false) (h : operationB i s.b = ⟨vs, none⟩) :
    ∃ t rest, exec i s = .next t ∧ t.st.ovfB = true ∧ t.a = s.a ∧ t.st.ovfA = s.st.ovfA ∧
      t.output = s.output ++ vs ++ rest :=
  ⟨_, _, exec_of_overflowB hc hw hf h, rfl, rfl, rfl, rfl⟩

/-- Settles O44: the failing unit is the check at which the pipeline stops. -/
theorem pushBStopsAtAFailingUnit : Obligations.PushBStopsAtAFailingUnit :=
  fun _ _ _ hs h => exec_stopsB rfl rfl hs (operationB_bPush_of_overflows hs h)

/-- A block of which one sample overflows stops there, after the samples before it. -/
theorem operationB_bBlock_of_overflow (cnt : Count) {zs : List (Rails Sample)} (zs' : List (Rails Sample))
    {z : Rails Sample} {b b' : StateB} {vs es : List Result}
    (h : operationB (.bBlock cnt zs) b = ⟨vs, some b'⟩) (hz : operationB (.bPush z) b' = ⟨es, none⟩) :
    operationB (.bBlock cnt (zs ++ z :: zs')) b = ⟨vs ++ es, none⟩ := by
  have hrest : operationB (.bBlock cnt (z :: zs')) b' = ⟨es, none⟩ := by
    rw [← forEach_operationB_bPush, List.map_cons, Run.forEach_cons, hz, Run.andThen_mk_none]
  rw [operationB_bBlock_append cnt cnt cnt, h, Run.andThen_mk_some, hrest]

/-- Settles O45: the samples before the failing one did their part of the block, which stops with that
sample. -/
theorem blockBStopsAtAFailingUnit : Obligations.BlockBStopsAtAFailingUnit := by
  intro cnt zs zs' z s s' os hlen hs hpushes hs' h
  obtain ⟨vs, hop, e⟩ := operationB_bBlock_of_pushes cnt hpushes hs'
  have hstop := operationB_bBlock_of_overflow cnt zs' hop (operationB_bPush_of_overflows hs' h)
  rw [e, List.append_assoc s.output]
  exact exec_stopsB rfl (wellFormed_bBlock_of_length hlen) hs hstop

/-! ### Zero input from the zero state (R178) -/

/-- A block of zeros leaves a quiet Component B quiet and emits ten zeros for each. -/
theorem blockB_zero {c : Cfg} (hc : c.Wf) (k : Nat) {b : StateB} (hb : b.Quiet) :
    ∃ b', blockB c (List.replicate k ⟨0, 0⟩) b = ⟨List.replicate (k * 10) 0, some b'⟩ ∧ b'.Quiet := by
  induction k generalizing b with
  | zero => exact ⟨b, by simp [blockB], hb⟩
  | succ k ih =>
    obtain ⟨b1, hpush, h1⟩ := pushB_zero hc hb
    obtain ⟨b', hrest, h'⟩ := ih h1
    refine ⟨b', ?_, h'⟩
    rw [blockB] at hrest ⊢
    rw [List.replicate_succ, Run.forEach_cons, hpush, Run.andThen_mk_some, hrest, List.replicate_append_replicate,
      Nat.succ_mul, Nat.add_comm]

/-- `A.PUSH` of zero puts `M` times `DC_OFFSET` on the result port and leaves the zero state. -/
theorem operationA_aPush_zero {a : StateA} (ha : a = StateA.zero) : operationA (.aPush 0) a =
    ⟨List.replicate Config.cfg.m (.code Config.cfg.dcOffset.toNat), some a⟩ := by
  subst ha
  simp [operationA, pushA_zero Config.cfg_wf, Run.results, List.flatMap_replicate]

/-- The state after `j` pushes of zero to Component A. -/
def zeroPushed (s : State) (j : Nat) : State :=
  { s with output := s.output ++ List.replicate (j * Config.cfg.m) (.code Config.cfg.dcOffset.toNat) }

theorem exec_aPush_zeroPushed {s : State} (hf : s.st.ovfA = false) (ha : s.a = StateA.zero) (j : Nat) :
    exec (.aPush 0) (zeroPushed s j) = .next (zeroPushed s (j + 1)) := by
  rw [exec_of_operationA (s := zeroPushed s j) rfl rfl hf (operationA_aPush_zero ha)]
  simp [zeroPushed, Nat.succ_mul]

/-- Settles O51: a push of zero to the zero state of either component leaves it, up to B's cursor and phase,
which count the operations. -/
theorem zeroInputQuiescence : Obligations.ZeroInputQuiescence := by
  refine ⟨fun k s hf ha => ?_, fun k s hf hq => ?_⟩
  · have h := execAll_of_steps (is := List.replicate k (.aPush 0)) (st := zeroPushed s) fun j hj => by
      rw [List.getElem_replicate, exec_aPush_zeroPushed hf ha]
    simpa [zeroPushed] using h
  · obtain ⟨b', hblock, hq'⟩ := blockB_zero Config.cfg_wf k hq
    obtain ⟨hph, hcur⟩ := Run.forEach_advanced pushB_advanced _ s.b b' (congrArg Run.final hblock)
    rw [List.length_replicate] at hph hcur
    have hpushes := execAll_bPush_of_blockB hf hblock
    rw [List.map_replicate, List.map_replicate] at hpushes
    exact ⟨_, hpushes, rfl, hq', rfl, rfl, hcur, hph.trans (by omega)⟩

/-- Settles O52: a block is its pushes, and pushes of zero are quiet. -/
theorem zeroBlocksRun : Obligations.ZeroBlocksRun := by
  obtain ⟨hA, hB⟩ := zeroInputQuiescence
  refine ⟨fun s hf ha => ?_, fun cnt s hf hq => ?_⟩
  · have hpushes := hA Config.cfg.ducN s hf ha
    rw [← List.map_replicate] at hpushes
    exact blockAEqualsItsPushes _ s _ List.length_replicate hf hpushes hf
  · obtain ⟨t, hpushes, hout, hquiet, hst, ha, -, -⟩ := hB (cnt.toNat * (Config.cfg.ducN / 10)) s hf hq
    rw [← List.map_replicate] at hpushes
    have hcount : cnt.toNat * (Config.cfg.ducN / 10) * 10 = cnt.toNat * Config.cfg.ducN := by
      rw [Nat.mul_assoc, Nat.div_mul_cancel (Nat.dvd_of_mod_eq_zero Config.cfg_wf.ducN_mult)]
    have hblock := blockBEqualsItsPushes cnt _ s t List.length_replicate hf hpushes (hst ▸ hf)
    exact ⟨t, hblock, hcount ▸ hout, hquiet, hst, ha⟩

end Sys2Proof.Machine

namespace Sys2Proof.Machine

/-! ### Every command answers, also in a flagged component (R192, R197, R198) -/

/-- A well-formed command of either component answers a next state, in every state (R197). -/
theorem exists_exec_of_wellFormed {i : Instr} (hw : i.WellFormed) (s : State) : ∃ t, exec i s = .next t := by
  cases hc : i.component with
  | a => exact ⟨_, exec_componentA hc hw s⟩
  | b => exact ⟨_, exec_componentB hc hw s⟩

/-- A command the block takes from its port is well formed (R79). -/
theorem wellFormed_of_fetch {input rest : List HostInput} {i : Instr} (h : fetch input = .command i rest) :
    i.WellFormed := by
  obtain ⟨_, hd, -⟩ := fetch_eq_command h
  exact (decode_takes hd).1

/-- Settles O13: waiting, a reset event and a reserved word answer by themselves, and a command from the port
is well formed, so it answers too. -/
theorem everyStepAnswersANextState : Obligations.EveryStepAnswersANextState := by
  intro s
  cases hf : fetch s.input with
  | idle => exact ⟨s, by simp only [step, hf]⟩
  | reset rest => exact ⟨{ s with input := rest }.resetEvent, by simp only [step, hf]⟩
  | reserved why rest => exact ⟨{ s with input := rest }.illegal, by simp only [step, hf]⟩
  | command i rest =>
    obtain ⟨t, ht⟩ := exists_exec_of_wellFormed (wellFormed_of_fetch hf) { s with input := rest }
    exact ⟨t, (step_of_fetch hf).trans ht⟩

theorem Status.setOvfA_of_ovfA {st : Status} (h : st.ovfA = true) : st.setOvfA = st := by
  rw [Status.setOvfA, ← h]

theorem Status.setOvfB_of_ovfB {st : Status} (h : st.ovfB = true) : st.setOvfB = st := by
  rw [Status.setOvfB, ← h]

/-- Settles O57: in a flagged component every operation is an `Overflow` that has emitted nothing, and setting the
flag again changes no flag. -/
theorem flaggedComponentIsFree : Obligations.FlaggedComponentIsFree := by
  refine ⟨fun i s hw hc hf => ?_, fun i s hw hc hf => ?_⟩
  · rw [exec_componentA hc hw, State.runA_flagged _ hf, State.overflowA, Status.setOvfA_of_ovfA hf,
      List.append_nil]
  · rw [exec_componentB hc hw, State.runB_flagged _ hf, State.overflowB, Status.setOvfB_of_ovfB hf,
      List.append_nil]

end Sys2Proof.Machine

namespace Sys2Proof.Machine

/-! ### The reset event (R34, R210) -/

/-- With no whole command before it, the reset event is what the block takes, and the beats of the partly
arrived command go with it (R210; assumption 14). -/
theorem fetch_reset_of_incomplete {beats : List Beat} (h : decode beats = .incomplete) (rest : List HostInput) :
    fetch (beats.map .beat ++ .reset :: rest) = .reset rest := by
  have hl : leadingBeats (beats.map .beat ++ .reset :: rest) = (beats, .reset :: rest) := by
    simp [leadingBeats_map_append]
  simp only [fetch, hl, h]

/-- Settles O2: the block takes the reset event, whose next state has every element at its reset value. -/
theorem resetEventAbandonsAndZeroes : Obligations.ResetEventAbandonsAndZeroes := by
  intro s beats rest hd hs
  have hf : fetch s.input = .reset rest := by rw [hs, fetch_reset_of_incomplete hd]
  calc step s = .next { s with input := rest }.resetEvent := by simp only [step, hf]
    _ = .next { s with a := State.reset.a, b := State.reset.b, st := State.reset.st, input := rest } := rfl

end Sys2Proof.Machine
